-- ==== Sys2Proof/Word.lean ====
section
/-! DEFINITION. The two word types of the machine (00_scope.md R4: XLEN = 8, ALEN = 16). -/

namespace Sys2Proof

/-- A register or memory byte (R4, `XLEN`). -/
abbrev Byte := BitVec 8

/-- A CPU bus address (R4, `ALEN`), and the type of `PC` (10_state.md R22). -/
abbrev Word := BitVec 16

end Sys2Proof
end

