-- ==== Sys2Proof/Config.lean ====
section
/-! DEFINITION. What the spec leaves open for a value each time it is read (free values, no body), and the fixed
sizes and default launch values of 00_scope.md R4. -/

namespace Sys2Proof.Config

/-- `STUB_READ` (20_memory.md R65): the byte a read of 0x4000-0x4017 returns. "a value the source does not give: a model
takes it as a draw per read (any byte)". FREE VALUE, log entry 11: the `n`-th draw is `stubRead n`, of which nothing is
known. -/
opaque stubRead : Nat → Byte

/-- `PPU_OPEN_READ` (48_ppu.md R320): the byte a read of a PPU port with no modelled read behaviour returns, "a value
the source does not give: a draw per read". FREE VALUE, log entry 12. -/
opaque ppuOpenRead : Nat → Byte

/-- `RAM_SIZE` (R4): 2 KiB. -/
def ramSize : Nat := 0x0800

/-- `VRAM_SIZE` (R4): 2 KiB. -/
def vramSize : Nat := 0x0800

/-- The largest `PRG_SIZE` (R4, D24). -/
def prgSizeMax : Nat := 0x8000

/-- Frame buffer width in cells (R4). -/
def frameWidth : Nat := 256

/-- Frame buffer height in rows (R4). -/
def frameHeight : Nat := 240

/-- The last dot of a scanline (48_ppu.md R306). -/
def lastDot : Nat := 340

/-- The last scanline of a frame (48_ppu.md R306). -/
def lastScanline : Nat := 261

/-- PPU ticks a CPU tick (00_scope.md R4, R9): "a fixed 3:1 ratio". -/
def ppuTicksPerCpuTick : Nat := 3

/-- `RESET_A` (R4, D15). DESIGN CHOICE of the spec's default, log entry 4. -/
def resetA : Byte := 0x00#8
/-- `RESET_X` (R4, D15). Log entry 4. -/
def resetX : Byte := 0x00#8
/-- `RESET_Y` (R4, D15). Log entry 4. -/
def resetY : Byte := 0x00#8
/-- `RESET_S` (R4, D15). Log entry 4. -/
def resetS : Byte := 0x00#8
/-- `RESET_PC` (R4, D15). Log entry 4. -/
def resetPC : Word := 0x0000#16
/-- The value of all seven flags of `RESET_FLAGS` (R4, D15). Log entry 4. -/
def resetFlag : Bool := false

/-- `MIN` (30_encoding.md R108): the opcodes every admissible `IMPLEMENTED` holds. -/
def minImplemented : List Byte := [0x00#8, 0xA9#8, 0x8D#8, 0xA2#8, 0xF0#8]

end Sys2Proof.Config
end

