-- ==== Sys2Proof/Syntax.lean ====
section
/-! DEFINITION. The instructions: one constructor a mnemonic of spec/opcode_table.json, with the addressing mode as its
argument where the table has several rows of the mnemonic, so that a row of the table is a constructor with its mode.
Operand bytes are no part of an instruction: 30_encoding.md R110 decodes `(mnemonic, mode)` from byte 0 alone, and a step
reads each operand byte at `PC` when its tick comes (40_sequencer.md R132 to R156). Log entry 2. -/

namespace Sys2Proof

/-- The formats of 30_encoding.md R101, and `ill` for the rows with no sequence (R104). -/
inductive Format where
  | imp | acc | imm | zp | zpx | zpy | abs | abx | aby | izy | rel | ill
deriving DecidableEq, Repr

/-- Operand forms of class R (40_sequencer.md R138): the operand byte is read. -/
inductive RMode where
  | imm | zp | zpx | zpy | abs | abx | aby | izy
deriving DecidableEq, Repr

/-- Operand forms of class W (R138): a byte is stored. -/
inductive WMode where
  | zp | zpx | zpy | abs | abx | aby | izy
deriving DecidableEq, Repr

/-- Operand forms of class M (R138) and the accumulator form of the shifts (R141). -/
inductive MMode where
  | acc | zp | zpx | abs | abx
deriving DecidableEq, Repr

/-- The instructions of 30_encoding.md R103, and `ill b` for the byte `b` of the illegal rows (R104). -/
inductive Instr where
  -- 41_load_store_transfer.md
  | lda (m : RMode) | ldx (m : RMode) | ldy (m : RMode)
  | sta (m : WMode) | stx (m : WMode) | sty (m : WMode)
  | tax | tay | txa | tya | tsx | txs
  -- 42_arith_logic.md
  | adc (m : RMode) | sbc (m : RMode) | and (m : RMode) | ora (m : RMode) | eor (m : RMode)
  | cmp (m : RMode) | cpx (m : RMode) | cpy (m : RMode) | bit (m : RMode)
  -- 43_shift_incdec.md
  | asl (m : MMode) | lsr (m : MMode) | rol (m : MMode) | ror (m : MMode) | inc (m : MMode) | dec (m : MMode)
  | inx | iny | dex | dey
  -- 44_branch_jump.md
  | bpl | bmi | bvc | bvs | bcc | bcs | bne | beq
  | jmp | jsr | rts
  -- 45_stack_flag_system.md
  | pha | pla | php | plp
  | clc | sec | cli | sei | clv | cld | sed
  | nop | brk | rti
  -- 40_sequencer.md R134
  | ill (b : Byte)
deriving DecidableEq, Repr

/-- The format of a class R operand form. -/
def RMode.format : RMode → Format
  | .imm => .imm | .zp => .zp | .zpx => .zpx | .zpy => .zpy
  | .abs => .abs | .abx => .abx | .aby => .aby | .izy => .izy

/-- The format of a class W operand form. -/
def WMode.format : WMode → Format
  | .zp => .zp | .zpx => .zpx | .zpy => .zpy
  | .abs => .abs | .abx => .abx | .aby => .aby | .izy => .izy

/-- The format of a class M operand form. -/
def MMode.format : MMode → Format
  | .acc => .acc | .zp => .zp | .zpx => .zpx | .abs => .abs | .abx => .abx

/-- The format column of 30_encoding.md R103. -/
def Instr.format : Instr → Format
  | .lda m | .ldx m | .ldy m => m.format
  | .sta m | .stx m | .sty m => m.format
  | .tax | .tay | .txa | .tya | .tsx | .txs => .imp
  | .adc m | .sbc m | .and m | .ora m | .eor m | .cmp m | .cpx m | .cpy m | .bit m => m.format
  | .asl m | .lsr m | .rol m | .ror m | .inc m | .dec m => m.format
  | .inx | .iny | .dex | .dey => .imp
  | .bpl | .bmi | .bvc | .bvs | .bcc | .bcs | .bne | .beq => .rel
  | .jmp | .jsr => .abs
  | .rts => .imp
  | .pha | .pla | .php | .plp => .imp
  | .clc | .sec | .cli | .sei | .clv | .cld | .sed => .imp
  | .nop | .brk | .rti => .imp
  | .ill _ => .ill

/-- `operand_bytes(mode)` of 30_encoding.md R110; an illegal byte stands alone. -/
def Format.operandBytes : Format → Nat
  | .imp | .acc | .ill => 0
  | .imm | .zp | .zpx | .zpy | .izy | .rel => 1
  | .abs | .abx | .aby => 2

/-- The number of operand bytes after the opcode byte (R110). -/
def Instr.operandBytes (i : Instr) : Nat := i.format.operandBytes

/-- The instruction's length in bytes (30_encoding.md R100). `BRK` decodes as one byte (R110). -/
def Instr.length (i : Instr) : Nat := 1 + i.operandBytes

end Sys2Proof
end

