-- ==== Sys2Proof/WellFormed.lean ====
section
/-! DEFINITION. Which instructions the machine has: the operand forms each mnemonic's rule lists (the "Modes" line of
R200 to R245), and, for an illegal row, that its byte is one of the 114 of 30_encoding.md R104. -/

namespace Sys2Proof

/-- The 114 illegal bytes, in the listing of 30_encoding.md R104. -/
def illegalBytes : List Byte :=
  [0x01#8, 0x02#8, 0x03#8, 0x04#8, 0x07#8, 0x0B#8, 0x0C#8, 0x0F#8, 0x12#8, 0x13#8, 0x14#8, 0x17#8, 0x1A#8, 0x1B#8, 0x1C#8, 0x1F#8, 0x21#8, 0x22#8, 0x23#8] ++
  [0x27#8, 0x2B#8, 0x2F#8, 0x32#8, 0x33#8, 0x34#8, 0x37#8, 0x3A#8, 0x3B#8, 0x3C#8, 0x3F#8, 0x41#8, 0x42#8, 0x43#8, 0x44#8, 0x47#8, 0x4B#8, 0x4F#8, 0x52#8] ++
  [0x53#8, 0x54#8, 0x57#8, 0x5A#8, 0x5B#8, 0x5C#8, 0x5F#8, 0x61#8, 0x62#8, 0x63#8, 0x64#8, 0x67#8, 0x6B#8, 0x6C#8, 0x6F#8, 0x72#8, 0x73#8, 0x74#8, 0x77#8] ++
  [0x7A#8, 0x7B#8, 0x7C#8, 0x7F#8, 0x80#8, 0x81#8, 0x82#8, 0x83#8, 0x87#8, 0x89#8, 0x8B#8, 0x8F#8, 0x92#8, 0x93#8, 0x97#8, 0x9B#8, 0x9C#8, 0x9E#8, 0x9F#8] ++
  [0xA1#8, 0xA3#8, 0xA7#8, 0xAB#8, 0xAF#8, 0xB2#8, 0xB3#8, 0xB7#8, 0xBB#8, 0xBF#8, 0xC1#8, 0xC2#8, 0xC3#8, 0xC7#8, 0xCB#8, 0xCF#8, 0xD2#8, 0xD3#8, 0xD4#8] ++
  [0xD7#8, 0xDA#8, 0xDB#8, 0xDC#8, 0xDF#8, 0xE1#8, 0xE2#8, 0xE3#8, 0xE7#8, 0xEB#8, 0xEF#8, 0xF2#8, 0xF3#8, 0xF4#8, 0xF7#8, 0xFA#8, 0xFB#8, 0xFC#8, 0xFF#8]

/-- The seven forms of LDA (R200), ADC (R221), SBC (R222), AND (R223), ORA (R224), EOR (R225), CMP (R227). -/
def RMode.full (m : RMode) : Bool := [RMode.imm, .zp, .zpx, .abs, .abx, .aby, .izy].contains m

/-- The five forms of LDX (R201). -/
def RMode.ldx (m : RMode) : Bool := [RMode.imm, .zp, .zpy, .abs, .aby].contains m

/-- The five forms of LDY (R202). -/
def RMode.ldy (m : RMode) : Bool := [RMode.imm, .zp, .zpx, .abs, .abx].contains m

/-- The three forms of CPX (R228) and CPY (R229). -/
def RMode.cpr (m : RMode) : Bool := [RMode.imm, .zp, .abs].contains m

/-- The two forms of BIT (R230): no immediate form. -/
def RMode.bit (m : RMode) : Bool := [RMode.zp, .abs].contains m

/-- The six forms of STA (R203). -/
def WMode.sta (m : WMode) : Bool := [WMode.zp, .zpx, .abs, .abx, .aby, .izy].contains m

/-- The three forms of STX (R204). -/
def WMode.stx (m : WMode) : Bool := [WMode.zp, .zpy, .abs].contains m

/-- The three forms of STY (R205). -/
def WMode.sty (m : WMode) : Bool := [WMode.zp, .zpx, .abs].contains m

/-- The five forms of ASL, LSR, ROL, ROR (R240 to R243). -/
def MMode.shift (m : MMode) : Bool := [MMode.acc, .zp, .zpx, .abs, .abx].contains m

/-- The four forms of INC (R244) and DEC (R245): no accumulator form. -/
def MMode.incDec (m : MMode) : Bool := [MMode.zp, .zpx, .abs, .abx].contains m

/-- An instruction of the table of 30_encoding.md R103 and R104. -/
def wellFormed : Instr → Bool
  | .lda m | .adc m | .sbc m | .and m | .ora m | .eor m | .cmp m => m.full
  | .ldx m => m.ldx
  | .ldy m => m.ldy
  | .cpx m | .cpy m => m.cpr
  | .bit m => m.bit
  | .sta m => m.sta
  | .stx m => m.stx
  | .sty m => m.sty
  | .asl m | .lsr m | .rol m | .ror m => m.shift
  | .inc m | .dec m => m.incDec
  | .ill b => illegalBytes.contains b
  | .tax | .tay | .txa | .tya | .tsx | .txs | .inx | .iny | .dex | .dey => true
  | .bpl | .bmi | .bvc | .bvs | .bcc | .bcs | .bne | .beq | .jmp | .jsr | .rts => true
  | .pha | .pla | .php | .plp | .clc | .sec | .cli | .sei | .clv | .cld | .sed | .nop | .brk | .rti => true

end Sys2Proof
end

