-- ==== Sys2Proof/Decode.lean ====
section
/-! DEFINITION. The decoder (30_encoding.md R103, R110) and, after it, the encoder. The decoder's table follows the
listing of R103 in opcode order; the encoder follows the "Modes" line of each instruction's own rule (R200 to R293), so the
two are separate transcriptions of the spec. -/

namespace Sys2Proof

/-- Opcodes 0x00 to 0x0F of 30_encoding.md R103. -/
def opcodeRow0 : List (Byte × Instr) :=
  [(0x00#8, .brk), (0x05#8, .ora .zp), (0x06#8, .asl .zp), (0x08#8, .php),
   (0x09#8, .ora .imm), (0x0A#8, .asl .acc), (0x0D#8, .ora .abs), (0x0E#8, .asl .abs)]

/-- Opcodes 0x10 to 0x1F of 30_encoding.md R103. -/
def opcodeRow1 : List (Byte × Instr) :=
  [(0x10#8, .bpl), (0x11#8, .ora .izy), (0x15#8, .ora .zpx), (0x16#8, .asl .zpx),
   (0x18#8, .clc), (0x19#8, .ora .aby), (0x1D#8, .ora .abx), (0x1E#8, .asl .abx)]

/-- Opcodes 0x20 to 0x2F of 30_encoding.md R103. -/
def opcodeRow2 : List (Byte × Instr) :=
  [(0x20#8, .jsr), (0x24#8, .bit .zp), (0x25#8, .and .zp), (0x26#8, .rol .zp),
   (0x28#8, .plp), (0x29#8, .and .imm), (0x2A#8, .rol .acc), (0x2C#8, .bit .abs),
   (0x2D#8, .and .abs), (0x2E#8, .rol .abs)]

/-- Opcodes 0x30 to 0x3F of 30_encoding.md R103. -/
def opcodeRow3 : List (Byte × Instr) :=
  [(0x30#8, .bmi), (0x31#8, .and .izy), (0x35#8, .and .zpx), (0x36#8, .rol .zpx),
   (0x38#8, .sec), (0x39#8, .and .aby), (0x3D#8, .and .abx), (0x3E#8, .rol .abx)]

/-- Opcodes 0x40 to 0x4F of 30_encoding.md R103. -/
def opcodeRow4 : List (Byte × Instr) :=
  [(0x40#8, .rti), (0x45#8, .eor .zp), (0x46#8, .lsr .zp), (0x48#8, .pha),
   (0x49#8, .eor .imm), (0x4A#8, .lsr .acc), (0x4C#8, .jmp), (0x4D#8, .eor .abs),
   (0x4E#8, .lsr .abs)]

/-- Opcodes 0x50 to 0x5F of 30_encoding.md R103. -/
def opcodeRow5 : List (Byte × Instr) :=
  [(0x50#8, .bvc), (0x51#8, .eor .izy), (0x55#8, .eor .zpx), (0x56#8, .lsr .zpx),
   (0x58#8, .cli), (0x59#8, .eor .aby), (0x5D#8, .eor .abx), (0x5E#8, .lsr .abx)]

/-- Opcodes 0x60 to 0x6F of 30_encoding.md R103. -/
def opcodeRow6 : List (Byte × Instr) :=
  [(0x60#8, .rts), (0x65#8, .adc .zp), (0x66#8, .ror .zp), (0x68#8, .pla),
   (0x69#8, .adc .imm), (0x6A#8, .ror .acc), (0x6D#8, .adc .abs), (0x6E#8, .ror .abs)]

/-- Opcodes 0x70 to 0x7F of 30_encoding.md R103. -/
def opcodeRow7 : List (Byte × Instr) :=
  [(0x70#8, .bvs), (0x71#8, .adc .izy), (0x75#8, .adc .zpx), (0x76#8, .ror .zpx),
   (0x78#8, .sei), (0x79#8, .adc .aby), (0x7D#8, .adc .abx), (0x7E#8, .ror .abx)]

/-- Opcodes 0x80 to 0x8F of 30_encoding.md R103. -/
def opcodeRow8 : List (Byte × Instr) :=
  [(0x84#8, .sty .zp), (0x85#8, .sta .zp), (0x86#8, .stx .zp), (0x88#8, .dey),
   (0x8A#8, .txa), (0x8C#8, .sty .abs), (0x8D#8, .sta .abs), (0x8E#8, .stx .abs)]

/-- Opcodes 0x90 to 0x9F of 30_encoding.md R103. -/
def opcodeRow9 : List (Byte × Instr) :=
  [(0x90#8, .bcc), (0x91#8, .sta .izy), (0x94#8, .sty .zpx), (0x95#8, .sta .zpx),
   (0x96#8, .stx .zpy), (0x98#8, .tya), (0x99#8, .sta .aby), (0x9A#8, .txs),
   (0x9D#8, .sta .abx)]

/-- Opcodes 0xA0 to 0xAF of 30_encoding.md R103. -/
def opcodeRowA : List (Byte × Instr) :=
  [(0xA0#8, .ldy .imm), (0xA2#8, .ldx .imm), (0xA4#8, .ldy .zp), (0xA5#8, .lda .zp),
   (0xA6#8, .ldx .zp), (0xA8#8, .tay), (0xA9#8, .lda .imm), (0xAA#8, .tax),
   (0xAC#8, .ldy .abs), (0xAD#8, .lda .abs), (0xAE#8, .ldx .abs)]

/-- Opcodes 0xB0 to 0xBF of 30_encoding.md R103. -/
def opcodeRowB : List (Byte × Instr) :=
  [(0xB0#8, .bcs), (0xB1#8, .lda .izy), (0xB4#8, .ldy .zpx), (0xB5#8, .lda .zpx),
   (0xB6#8, .ldx .zpy), (0xB8#8, .clv), (0xB9#8, .lda .aby), (0xBA#8, .tsx),
   (0xBC#8, .ldy .abx), (0xBD#8, .lda .abx), (0xBE#8, .ldx .aby)]

/-- Opcodes 0xC0 to 0xCF of 30_encoding.md R103. -/
def opcodeRowC : List (Byte × Instr) :=
  [(0xC0#8, .cpy .imm), (0xC4#8, .cpy .zp), (0xC5#8, .cmp .zp), (0xC6#8, .dec .zp),
   (0xC8#8, .iny), (0xC9#8, .cmp .imm), (0xCA#8, .dex), (0xCC#8, .cpy .abs),
   (0xCD#8, .cmp .abs), (0xCE#8, .dec .abs)]

/-- Opcodes 0xD0 to 0xDF of 30_encoding.md R103. -/
def opcodeRowD : List (Byte × Instr) :=
  [(0xD0#8, .bne), (0xD1#8, .cmp .izy), (0xD5#8, .cmp .zpx), (0xD6#8, .dec .zpx),
   (0xD8#8, .cld), (0xD9#8, .cmp .aby), (0xDD#8, .cmp .abx), (0xDE#8, .dec .abx)]

/-- Opcodes 0xE0 to 0xEF of 30_encoding.md R103. -/
def opcodeRowE : List (Byte × Instr) :=
  [(0xE0#8, .cpx .imm), (0xE4#8, .cpx .zp), (0xE5#8, .sbc .zp), (0xE6#8, .inc .zp),
   (0xE8#8, .inx), (0xE9#8, .sbc .imm), (0xEA#8, .nop), (0xEC#8, .cpx .abs),
   (0xED#8, .sbc .abs), (0xEE#8, .inc .abs)]

/-- Opcodes 0xF0 to 0xFF of 30_encoding.md R103. -/
def opcodeRowF : List (Byte × Instr) :=
  [(0xF0#8, .beq), (0xF1#8, .sbc .izy), (0xF5#8, .sbc .zpx), (0xF6#8, .inc .zpx),
   (0xF8#8, .sed), (0xF9#8, .sbc .aby), (0xFD#8, .sbc .abx), (0xFE#8, .inc .abx)]

/-- The opcode table (30_encoding.md R103): the 142 bytes that have a sequence, in opcode order. -/
def opcodeTable : List (Byte × Instr) :=
  opcodeRow0 ++ opcodeRow1 ++ opcodeRow2 ++ opcodeRow3 ++ opcodeRow4 ++ opcodeRow5 ++ opcodeRow6 ++ opcodeRow7 ++
  opcodeRow8 ++ opcodeRow9 ++ opcodeRowA ++ opcodeRowB ++ opcodeRowC ++ opcodeRowD ++ opcodeRowE ++ opcodeRowF

/-- The default `IMPLEMENTED` (30_encoding.md R108): the 142 bytes of R103. -/
def defaultImplemented : List Byte := opcodeTable.map Prod.fst

/-- `decode(b0)` of 30_encoding.md R110: the row of the table, or the illegal row of the byte (R104). Total. -/
def decodeOpcode (b : Byte) : Instr :=
  match opcodeTable.lookup b with
  | some i => i
  | none => .ill b

/-- The row of the byte under a given `IMPLEMENTED` (R103, R108): "for every other byte `Seq(b)` is the illegal
sequence". -/
def decodeIn (implemented : List Byte) (b : Byte) : Instr :=
  if implemented.contains b then decodeOpcode b else .ill b

/-- Why a list of bytes is refused. -/
inductive DecodeError where
  /-- There is no opcode byte. -/
  | noByte
  /-- The instruction `i` needs more operand bytes (30_encoding.md R110) than the `got` that follow its opcode. -/
  | truncated (i : Instr) (got : Nat)
deriving DecidableEq, Repr

/-- An instruction in a list of bytes: what byte 0 decodes to, its operand bytes in memory order, and the bytes after. -/
structure Decoded where
  instr    : Instr
  operands : List Byte
  rest     : List Byte
deriving DecidableEq, Repr

/-- The decoder over bytes (30_encoding.md R100, R110): byte 0 gives the instruction and so the length, the operand bytes
follow it and are not checked (R106). Total; a list that ends too early is refused by name. -/
def decode (bytes : List Byte) : Except DecodeError Decoded :=
  match bytes with
  | [] => .error .noByte
  | b :: more =>
    let i := decodeOpcode b
    if more.length < i.operandBytes then .error (.truncated i more.length)
    else .ok { instr := i, operands := more.take i.operandBytes, rest := more.drop i.operandBytes }

/-- The opcode byte of an instruction, from its own rule; none for a form the rule does not list. -/
def opcodeOf : Instr → Option Byte
  | .lda m =>  -- R200
    match m with
    | .imm => some 0xA9#8 | .zp => some 0xA5#8 | .zpx => some 0xB5#8 | .abs => some 0xAD#8
    | .abx => some 0xBD#8 | .aby => some 0xB9#8 | .izy => some 0xB1#8 | _ => none
  | .ldx m =>  -- R201
    match m with
    | .imm => some 0xA2#8 | .zp => some 0xA6#8 | .zpy => some 0xB6#8 | .abs => some 0xAE#8
    | .aby => some 0xBE#8 | _ => none
  | .ldy m =>  -- R202
    match m with
    | .imm => some 0xA0#8 | .zp => some 0xA4#8 | .zpx => some 0xB4#8 | .abs => some 0xAC#8
    | .abx => some 0xBC#8 | _ => none
  | .sta m =>  -- R203
    match m with
    | .zp => some 0x85#8 | .zpx => some 0x95#8 | .abs => some 0x8D#8 | .abx => some 0x9D#8
    | .aby => some 0x99#8 | .izy => some 0x91#8 | _ => none
  | .stx m =>  -- R204
    match m with
    | .zp => some 0x86#8 | .zpy => some 0x96#8 | .abs => some 0x8E#8 | _ => none
  | .sty m =>  -- R205
    match m with
    | .zp => some 0x84#8 | .zpx => some 0x94#8 | .abs => some 0x8C#8 | _ => none
  | .tax => some 0xAA#8  -- R206
  | .tay => some 0xA8#8  -- R207
  | .txa => some 0x8A#8  -- R208
  | .tya => some 0x98#8  -- R209
  | .tsx => some 0xBA#8  -- R210
  | .txs => some 0x9A#8  -- R211
  | .adc m =>  -- R221
    match m with
    | .imm => some 0x69#8 | .zp => some 0x65#8 | .zpx => some 0x75#8 | .abs => some 0x6D#8
    | .abx => some 0x7D#8 | .aby => some 0x79#8 | .izy => some 0x71#8 | _ => none
  | .sbc m =>  -- R222
    match m with
    | .imm => some 0xE9#8 | .zp => some 0xE5#8 | .zpx => some 0xF5#8 | .abs => some 0xED#8
    | .abx => some 0xFD#8 | .aby => some 0xF9#8 | .izy => some 0xF1#8 | _ => none
  | .and m =>  -- R223
    match m with
    | .imm => some 0x29#8 | .zp => some 0x25#8 | .zpx => some 0x35#8 | .abs => some 0x2D#8
    | .abx => some 0x3D#8 | .aby => some 0x39#8 | .izy => some 0x31#8 | _ => none
  | .ora m =>  -- R224
    match m with
    | .imm => some 0x09#8 | .zp => some 0x05#8 | .zpx => some 0x15#8 | .abs => some 0x0D#8
    | .abx => some 0x1D#8 | .aby => some 0x19#8 | .izy => some 0x11#8 | _ => none
  | .eor m =>  -- R225
    match m with
    | .imm => some 0x49#8 | .zp => some 0x45#8 | .zpx => some 0x55#8 | .abs => some 0x4D#8
    | .abx => some 0x5D#8 | .aby => some 0x59#8 | .izy => some 0x51#8 | _ => none
  | .cmp m =>  -- R227
    match m with
    | .imm => some 0xC9#8 | .zp => some 0xC5#8 | .zpx => some 0xD5#8 | .abs => some 0xCD#8
    | .abx => some 0xDD#8 | .aby => some 0xD9#8 | .izy => some 0xD1#8 | _ => none
  | .cpx m =>  -- R228
    match m with
    | .imm => some 0xE0#8 | .zp => some 0xE4#8 | .abs => some 0xEC#8 | _ => none
  | .cpy m =>  -- R229
    match m with
    | .imm => some 0xC0#8 | .zp => some 0xC4#8 | .abs => some 0xCC#8 | _ => none
  | .bit m =>  -- R230
    match m with
    | .zp => some 0x24#8 | .abs => some 0x2C#8 | _ => none
  | .asl m =>  -- R240
    match m with
    | .acc => some 0x0A#8 | .zp => some 0x06#8 | .zpx => some 0x16#8 | .abs => some 0x0E#8
    | .abx => some 0x1E#8
  | .lsr m =>  -- R241
    match m with
    | .acc => some 0x4A#8 | .zp => some 0x46#8 | .zpx => some 0x56#8 | .abs => some 0x4E#8
    | .abx => some 0x5E#8
  | .rol m =>  -- R242
    match m with
    | .acc => some 0x2A#8 | .zp => some 0x26#8 | .zpx => some 0x36#8 | .abs => some 0x2E#8
    | .abx => some 0x3E#8
  | .ror m =>  -- R243
    match m with
    | .acc => some 0x6A#8 | .zp => some 0x66#8 | .zpx => some 0x76#8 | .abs => some 0x6E#8
    | .abx => some 0x7E#8
  | .inc m =>  -- R244
    match m with
    | .zp => some 0xE6#8 | .zpx => some 0xF6#8 | .abs => some 0xEE#8 | .abx => some 0xFE#8
    | _ => none
  | .dec m =>  -- R245
    match m with
    | .zp => some 0xC6#8 | .zpx => some 0xD6#8 | .abs => some 0xCE#8 | .abx => some 0xDE#8
    | _ => none
  | .inx => some 0xE8#8  -- R246
  | .iny => some 0xC8#8  -- R247
  | .dex => some 0xCA#8  -- R248
  | .dey => some 0x88#8  -- R249
  | .bpl => some 0x10#8  -- R261
  | .bmi => some 0x30#8  -- R262
  | .bvc => some 0x50#8  -- R263
  | .bvs => some 0x70#8  -- R264
  | .bcc => some 0x90#8  -- R265
  | .bcs => some 0xB0#8  -- R266
  | .bne => some 0xD0#8  -- R267
  | .beq => some 0xF0#8  -- R268
  | .jmp => some 0x4C#8  -- R269
  | .jsr => some 0x20#8  -- R270
  | .rts => some 0x60#8  -- R271
  | .pha => some 0x48#8  -- R280
  | .pla => some 0x68#8  -- R281
  | .php => some 0x08#8  -- R282
  | .plp => some 0x28#8  -- R283
  | .clc => some 0x18#8  -- R284
  | .sec => some 0x38#8  -- R285
  | .cli => some 0x58#8  -- R286
  | .sei => some 0x78#8  -- R287
  | .clv => some 0xB8#8  -- R288
  | .cld => some 0xD8#8  -- R289
  | .sed => some 0xF8#8  -- R290
  | .nop => some 0xEA#8  -- R291
  | .brk => some 0x00#8  -- R292
  | .rti => some 0x40#8  -- R293
  | .ill b => if illegalBytes.contains b then some b else none  -- 30_encoding.md R104

/-- The bytes of a well-formed instruction with its operand bytes in memory order (30_encoding.md R100, R101). -/
def encode (i : Instr) (operands : List Byte) : List Byte :=
  (opcodeOf i).toList ++ operands

/-- The three bytes of an instruction whose bits are `w`, in memory order: byte 0 is bits 7..0, byte 1 bits 15..8, byte 2
bits 23..16; the bits from `nbits` up are 0. -/
def tableBytes (nbits w : Nat) : List Byte :=
  let v := w % 2 ^ nbits
  [BitVec.ofNat 8 v, BitVec.ofNat 8 (v / 256), BitVec.ofNat 8 (v / 65536)]

/-- The instruction the decoder reads from an instruction whose bits are `w`, numbered as spec/opcode_table.json numbers
them. -/
def decodeTableWord (nbits w : Nat) : Option Instr :=
  match decode (tableBytes nbits w) with
  | .ok d => some d.instr
  | .error _ => none

end Sys2Proof
end

