-- ==== Sys2Proof/Machine/State.lean ====
section
/-! DEFINITION. The state of the machine, grouped by owner as 10_state.md R47 lists it: the CPU engine, the bus memories,
the PPU engine, and the shared interrupt vector state; the launch parameters of 00_scope.md R4, which no step writes; and
the state at launch (10_state.md R44). Plain data throughout. -/

namespace Sys2Proof.Machine

/-- Bytes of a memory by index, in ONE canonical form: indexes strictly rising and no byte listed that equals what an
unlisted index reads as (`unlisted`). `Memory.wf` of Machine/Memory.lean is that form. -/
abbrev Memory := List Host.Cell

/-- The frame buffer's cells by index `scanline * 256 + dot` (10_state.md R38), two bits each, in the same form. -/
abbrev FrameBuf := List (Nat × BitVec 2)

/-- The two fatal classes (60_exceptions.md R340). Also the value of `halted` (10_state.md R29). -/
inductive Fault where
  /-- `BusFault(addr)` (R341): raised by any step whose bus access resolves to no device (0x4018-0x7FFF, R67) or writes
  the PRG window (R62). The spec's own fatal, safe. -/
  | busFault (addr : Word)
  /-- `IllegalOpcode(byte)` (R342): raised by the one step of `SEQ_ILL` (R134). The spec's own fatal, safe. -/
  | illegalOpcode (byte : Byte)
deriving DecidableEq, Repr

/-- Refusals. -/
inductive Refusal where
  /-- Raised by an arm of `exec` whose instruction has no meaning yet. Safe. No arm of this model raises it. -/
  | notModelled (mnemonic : String)
deriving DecidableEq, Repr

/-- Interrupt vector state (10_state.md R27), the "single pending-vector flag". -/
inductive Pending where
  | none | nmi | reset | irq
deriving DecidableEq, Repr

/-- The PPUADDR two-write latch (10_state.md R37): which byte the next port-6 write is taken as. -/
inductive WLatch where
  | first | second
deriving DecidableEq, Repr

/-- The seven flags (10_state.md R23). -/
structure Flags where
  /-- negative -/
  n : Bool
  /-- signed overflow -/
  v : Bool
  /-- break marker: written by PLP and RTI, read by nothing (R25, R46) -/
  b : Bool
  /-- decimal-mode select: no effect on arithmetic (D12) -/
  d : Bool
  /-- interrupt-request disable: gates nothing inside this block (60_exceptions.md R346) -/
  i : Bool
  /-- zero -/
  z : Bool
  /-- carry / not-borrow -/
  c : Bool
deriving DecidableEq, Repr

/-- The transient latch (10_state.md R26). -/
structure Latch where
  lo   : Byte
  hi   : Byte
  data : Byte
deriving DecidableEq, Repr

/-- The CPU engine (10_state.md R20 to R28). -/
structure Cpu where
  /-- accumulator (R20) -/
  a      : Byte
  /-- index register X (R20) -/
  x      : Byte
  /-- index register Y (R20) -/
  y      : Byte
  /-- stack pointer, in page 0x01 (R21) -/
  s      : Byte
  /-- program counter (R22) -/
  pc     : Word
  /-- flags (R23) -/
  p      : Flags
  /-- transient latch (R26) -/
  latch  : Latch
  /-- current opcode (R28) -/
  ir     : Byte
  /-- index of the next step in the current sequence (R28) -/
  cursor : Nat
deriving DecidableEq, Repr

/-- The PPU engine (10_state.md R32 to R38), with the model's two output fields for the frame event. -/
structure Ppu where
  /-- 0..340 (R32) -/
  dot         : Nat
  /-- 0..261 (R32) -/
  scanline    : Nat
  /-- 2048 bytes (R33) -/
  vram        : Memory
  /-- PPUCTRL bit 7 (R35) -/
  nmiEnable   : Bool
  /-- PPUCTRL bit 4 (R35) -/
  patternHalf : Bool
  /-- PPUCTRL bit 2 (R35) -/
  vramInc32   : Bool
  /-- PPUSTATUS bit 7 (R36) -/
  vblank      : Bool
  /-- PPUADDR's 14-bit VRAM address (R37) -/
  vramAddr    : BitVec 14
  /-- PPUADDR's write order (R37) -/
  wlatch      : WLatch
  /-- 240 x 256 cells of 2 bits (R38) -/
  fb          : FrameBuf
  /-- MODEL's own: how many frame events (48_ppu.md R311) have been emitted. Log entry 13. -/
  frames      : Nat
  /-- MODEL's own: the buffer the latest frame event carried. Log entry 13. -/
  lastFrame   : Option FrameBuf
deriving DecidableEq, Repr

/-- The launch parameters that stay readable while the machine runs (00_scope.md R4, 10_state.md R31, R34): constants of
a launch, which no step writes. Log entries 9 and 10. -/
structure Rom where
  /-- `PRG` by index -/
  prg         : Memory
  /-- `PRG_SIZE` -/
  prgSize     : Nat
  /-- `CHR` by index -/
  chr         : Memory
  /-- `CHR_SIZE` -/
  chrSize     : Nat
  /-- `IMPLEMENTED` (30_encoding.md R108) -/
  implemented : List Byte
deriving DecidableEq, Repr

/-- The machine's state (10_state.md R47). -/
structure State where
  cpu     : Cpu
  /-- interrupt vector state, written by the PPU, consumed by the CPU (R27) -/
  pending : Pending
  /-- fatal state (R29) -/
  halted  : Option Fault
  /-- 2048 bytes of CPU RAM by index (R30) -/
  ram     : Memory
  ppu     : Ppu
  rom     : Rom
  /-- MODEL's own: how many free values (`STUB_READ`, `PPU_OPEN_READ`) have been drawn. Log entry 11. -/
  draws   : Nat
deriving DecidableEq, Repr

/-- `RESET_FLAGS` (00_scope.md R4): all seven at the default. -/
def resetFlags : Flags :=
  { n := Config.resetFlag, v := Config.resetFlag, b := Config.resetFlag, d := Config.resetFlag, i := Config.resetFlag,
    z := Config.resetFlag, c := Config.resetFlag }

/-- All the launch parameters of 00_scope.md R4 with this spec's defaults: `PRG` and `CHR` come from the loader, so the
default holds none (log entry 9); `RAM_INIT` and `VRAM_INIT` all 0x00 (D17, log entry 7). -/
structure Launch where
  prg         : Memory := []
  prgSize     : Nat := 0x8000
  chr         : Memory := []
  chrSize     : Nat := 0x2000
  implemented : List Byte := defaultImplemented
  ramInit     : Memory := []
  vramInit    : Memory := []
  resetA      : Byte := Config.resetA
  resetX      : Byte := Config.resetX
  resetY      : Byte := Config.resetY
  resetS      : Byte := Config.resetS
  resetPC     : Word := Config.resetPC
  resetFlags  : Flags := Machine.resetFlags
deriving DecidableEq, Repr

/-- The state at launch (10_state.md R44), "before the first tick": `pending = Reset`, the next step is FETCH (`ir = 0xEA`,
`cursor = 1`, R28), the PPU at (0, 0). The latch and the frame buffer are unspecified there: 0, log entries 5 and 7. -/
def State.launch (l : Launch) : State :=
  { cpu :=
      { a := l.resetA, x := l.resetX, y := l.resetY, s := l.resetS, pc := l.resetPC, p := l.resetFlags,
        latch := { lo := 0x00#8, hi := 0x00#8, data := 0x00#8 }, ir := 0xEA#8, cursor := 1 },
    pending := .reset,
    halted := none,
    ram := l.ramInit,
    ppu :=
      { dot := 0, scanline := 0, vram := l.vramInit, nmiEnable := false, patternHalf := false, vramInc32 := false,
        vblank := false, vramAddr := 0#14, wlatch := .first, fb := [], frames := 0, lastFrame := none },
    rom :=
      { prg := l.prg, prgSize := l.prgSize, chr := l.chr, chrSize := l.chrSize, implemented := l.implemented },
    draws := 0 }

/-- The machine right after reset: the launch state under the default parameters (10_state.md R44). -/
def State.reset : State := State.launch {}

end Sys2Proof.Machine
end

