-- ==== Sys2Proof/Machine/Flags.lean ====
section
/-! DEFINITION. Every flag computation of the spec, as functions of flags and bytes alone. -/

namespace Sys2Proof.Machine

/-- `setNZ(v)` (40_sequencer.md R136): `N <- v[7]; Z <- (v == 0)`. -/
def setNZ (v : Byte) (p : Flags) : Flags := { p with n := v.getLsbD 7, z := v == 0x00#8 }

/-- What `ADD8` returns (42_arith_logic.md R220). -/
structure AddResult where
  /-- the 8-bit result `R` -/
  r    : Byte
  /-- the carry-out, bit 8 of the sum -/
  cout : Bool
  /-- the signed overflow -/
  ovf  : Bool
deriving DecidableEq, Repr

/-- `ADD8(a, m, cin)` (42_arith_logic.md R220): a 9-bit sum taken in the integers, its bit 8 the carry-out, the overflow
`~(A XOR M) & (A XOR R) & 0x80`. -/
def add8 (a m : Byte) (cin : Bool) : AddResult :=
  let sum := a.toNat + m.toNat + cin.toNat
  let r := BitVec.ofNat 8 sum
  { r := r, cout := sum.testBit 8, ovf := (~~~(a ^^^ m)) &&& (a ^^^ r) &&& 0x80#8 != 0x00#8 }

/-- `C <- cout; V <- ovf; setNZ(r)` (42_arith_logic.md R221, R222). -/
def addFlags (t : AddResult) (p : Flags) : Flags := setNZ t.r { p with c := t.cout, v := t.ovf }

/-- `COMPARE(reg, v)` (42_arith_logic.md R226): `t <- (reg - v) mod 256; C <- (reg >= v); Z <- (reg == v); N <- t[7]`. -/
def compareFlags (reg v : Byte) (p : Flags) : Flags :=
  { p with c := decide (v.toNat ≤ reg.toNat), z := reg == v, n := (reg - v).getLsbD 7 }

/-- `BIT` (42_arith_logic.md R230): `Z <- ((A & v) == 0); N <- v[7]; V <- v[6]`. -/
def bitFlags (a v : Byte) (p : Flags) : Flags :=
  { p with z := (a &&& v) == 0x00#8, n := v.getLsbD 7, v := v.getLsbD 6 }

/-- The push contexts of 10_state.md R24. -/
inductive PushContext where
  /-- software break: BRK executed with `pending = None` -/
  | softBreak
  /-- the PHP instruction -/
  | php
  /-- NMI, IRQ, and Reset, whose push writes nothing -/
  | hardware
deriving DecidableEq, Repr

/-- `bit4(ctx)` (10_state.md R24). -/
def bit4 : PushContext → Bool
  | .softBreak => true
  | .php => true
  | .hardware => false

/-- `group(ctx)` (10_state.md R24): the status byte of the flags. The stored `B` is no input. -/
def group (ctx : PushContext) (p : Flags) : Byte :=
  (if p.n then 0x80#8 else 0#8) ||| (if p.v then 0x40#8 else 0#8) ||| 0x20#8
    ||| (if bit4 ctx then 0x10#8 else 0#8)
    ||| (if p.d then 0x08#8 else 0#8) ||| (if p.i then 0x04#8 else 0#8)
    ||| (if p.z then 0x02#8 else 0#8) ||| (if p.c then 0x01#8 else 0#8)

/-- `ungroup` (10_state.md R25): the seven flags of a status byte; bit 5 is ignored. -/
def ungroup (q : Byte) : Flags :=
  { n := q.getLsbD 7, v := q.getLsbD 6, b := q.getLsbD 4, d := q.getLsbD 3, i := q.getLsbD 2, z := q.getLsbD 1,
    c := q.getLsbD 0 }

end Sys2Proof.Machine
end

