-- ==== Sys2Proof/Machine/Bits.lean ====
section
/-! DEFINITION. Bit fields and byte order: 00_scope.md R5, 20_memory.md R69. -/

namespace Sys2Proof.Machine

/-- `lo8(w)` (R5). -/
def lo8 (w : Word) : Byte := w.extractLsb' 0 8

/-- `hi8(w)` (R5). -/
def hi8 (w : Word) : Byte := w.extractLsb' 8 8

/-- `hi:lo` (R5): concatenation of two bytes, `hi * 256 + lo`. -/
def cat (hi lo : Byte) : Word := hi ++ lo

/-- `sext_16(b)` (R5): two's-complement sign extension. -/
def sext16 (b : Byte) : Word := b.signExtend 16

/-- `PCL` assigned, `PCH` unchanged (00_scope.md R6). -/
def setPcl (pc : Word) (v : Byte) : Word := cat (hi8 pc) v

/-- `PCH` assigned, `PCL` unchanged (00_scope.md R6). -/
def setPch (pc : Word) (v : Byte) : Word := cat v (lo8 pc)

/-- The address `0x00:lo` of a zero-page byte (20_memory.md R73). -/
def zeroPage (lo : Byte) : Word := cat 0x00#8 lo

/-- The address `0x0100 + S`: "high byte 0x01 and low byte `S`" (20_memory.md R72, 40_sequencer.md R137). -/
def stackAddr (s : Byte) : Word := cat 0x01#8 s

end Sys2Proof.Machine
end

