-- ==== Sys2Proof/Machine/Memory.lean ====
section
/-! DEFINITION. The operations of the canonical cell lists that hold RAM, VRAM, PRG, CHR and the frame buffer. -/

namespace Sys2Proof.Machine

/-- What an index that is not listed reads as: 0. RAM, VRAM and frame buffer contents at launch are unspecified
(10_state.md R30, R33, R38); the spec's deterministic default is all 0x00 (D17). DESIGN CHOICE, unsafe, log entry 7. -/
def unlisted (w : Nat) : BitVec w := 0#w

/-- The canonical form: indexes strictly rising, no cell equal to what an unlisted index reads as. -/
abbrev cellsWf {w : Nat} (m : List (Nat × BitVec w)) : Prop :=
  m.Pairwise (fun p q => p.1 < q.1) ∧ ∀ p ∈ m, p.2 ≠ unlisted w

/-- The canonical form of a memory. -/
abbrev Memory.wf (m : Memory) : Prop := cellsWf m

/-- The canonical form of a frame buffer. -/
abbrev FrameBuf.wf (m : FrameBuf) : Prop := cellsWf m

/-- Every listed index lies below `n`. -/
abbrev cellsBelow {w : Nat} (n : Nat) (m : List (Nat × BitVec w)) : Prop := ∀ p ∈ m, p.1 < n

/-- The cell at an index. -/
def cellRead {w : Nat} (m : List (Nat × BitVec w)) (k : Nat) : BitVec w :=
  match m with
  | [] => unlisted w
  | (j, v) :: rest => if j = k then v else cellRead rest k

/-- The list without index `k`. -/
def cellErase {w : Nat} (m : List (Nat × BitVec w)) (k : Nat) : List (Nat × BitVec w) :=
  match m with
  | [] => []
  | (j, v) :: rest => if j = k then rest else (j, v) :: cellErase rest k

/-- The list with `v` at index `k`, in its place. -/
def cellInsert {w : Nat} (m : List (Nat × BitVec w)) (k : Nat) (v : BitVec w) : List (Nat × BitVec w) :=
  match m with
  | [] => [(k, v)]
  | (j, u) :: rest =>
    if k < j then (k, v) :: (j, u) :: rest
    else if j = k then (k, v) :: rest
    else (j, u) :: cellInsert rest k v

/-- A write keeps the canonical form: writing what an unlisted index reads as removes the entry. -/
def cellWrite {w : Nat} (m : List (Nat × BitVec w)) (k : Nat) (v : BitVec w) : List (Nat × BitVec w) :=
  if v = unlisted w then cellErase m k else cellInsert m k v

end Sys2Proof.Machine
end

