-- ==== Sys2Proof/Machine/Ppu.lean ====
section
/-! DEFINITION. The PPU scanline/dot state machine and its register ports (48_ppu.md). -/

namespace Sys2Proof.Machine

/-- The PPU's state by scanline value (48_ppu.md R300). -/
inductive ScanlineState where
  | visible | postRender | verticalBlank | preRender
deriving DecidableEq, Repr

/-- "States by scanline value: VisibleScanline (0-239), PostRenderScanline (240), VerticalBlank (241-260),
PreRenderScanline (261)" (R300). Not stored. -/
def scanlineState (s : Nat) : ScanlineState :=
  if s ≤ 239 then .visible else if s = 240 then .postRender else if s ≤ 260 then .verticalBlank else .preRender

/-- `tile_index` of `render(s, d)` (R308). -/
def tileIndex (s d : Nat) : Nat := (s >>> 3) * 32 + (d >>> 3)

/-- `base` of `render(s, d)` (R308): half select as address bit 12, the tile id's nibbles, fine-Y. -/
def patternBase (half : Bool) (tileId : Byte) (s : Nat) : Nat :=
  (if half then 0x1000 else 0x0000)
    ||| (((tileId.toNat >>> 4) <<< 8) ||| ((tileId.toNat &&& 0x0F) <<< 4))
    ||| (s &&& 7)

/-- A CHR byte, the index reduced with `& (CHR_SIZE - 1)` (R310). -/
def chrRead (r : Rom) (k : Nat) : Byte := cellRead r.chr (k &&& (r.chrSize - 1))

/-- The 2-bit colour index `render(s, d)` computes (R308): plane byte bit `7 - (d & 7)`, the high plane's the more
significant. -/
def pixel (r : Rom) (p : Ppu) (s d : Nat) : BitVec 2 :=
  let base := patternBase p.patternHalf (cellRead p.vram (tileIndex s d)) s
  let loPlane := chrRead r (base ||| 0x0000)
  let hiPlane := chrRead r (base ||| 0x0008)
  let b := 7 - (d &&& 7)
  BitVec.ofBool (hiPlane.getLsbD b) ++ BitVec.ofBool (loPlane.getLsbD b)

/-- The index of cell `fb[s][d]` (10_state.md R38). -/
def fbIndex (s d : Nat) : Nat := s * Config.frameWidth + d

/-- `render(s, d)` (R308): the one cell it stores. -/
def render (r : Rom) (p : Ppu) : Ppu :=
  { p with fb := cellWrite p.fb (fbIndex p.scanline p.dot) (pixel r p p.scanline p.dot) }

/-- The action of the current `(s, d)` (R305): pixel, frame event, vblank entry, vblank exit (R308, R311, R312, R313). -/
def ppuAct (r : Rom) (p : Ppu) : Ppu :=
  if p.scanline ≤ 239 then
    if p.dot ≤ 255 then render r p else p
  else if p.scanline = 240 ∧ p.dot = 0 then { p with frames := p.frames + 1, lastFrame := some p.fb }
  else if p.scanline = 241 ∧ p.dot = 1 then { p with vblank := true }
  else if p.scanline = 261 ∧ p.dot = 1 then { p with vblank := false }
  else p

/-- `advance` (R306). -/
def ppuAdvance (p : Ppu) : Ppu :=
  if p.dot < Config.lastDot then { p with dot := p.dot + 1 }
  else if p.scanline = Config.lastScanline then { p with dot := 0, scanline := 0 }
  else { p with dot := 0, scanline := p.scanline + 1 }

/-- Whether this tick raises the NMI (R312): at (241, 1), if `nmi_enable`. -/
def nmiRaised (p : Ppu) : Bool := p.scanline == 241 && p.dot == 1 && p.nmiEnable

/-- `pending <- NMI` where the tick raises it; it overwrites whatever `pending` held (R312, D29). -/
def pendingAfter (p : Ppu) (q : Pending) : Pending := if nmiRaised p then .nmi else q

/-- `PpuTick` (R305): the action, then the advance; nothing if the machine has halted (60_exceptions.md R343). -/
def ppuTick (s : State) : State :=
  match s.halted with
  | some _ => s
  | none => { s with ppu := ppuAdvance (ppuAct s.rom s.ppu), pending := pendingAfter s.ppu s.pending }

/-- `n` PPU ticks. -/
def ppuTicks : Nat → State → State
  | 0, s => s
  | n + 1, s => ppuTicks n (ppuTick s)

/-- Port 0 write, PPUCTRL (R316). -/
def ppuCtrlWrite (v : Byte) (p : Ppu) : Ppu :=
  { p with nmiEnable := v.getLsbD 7, patternHalf := v.getLsbD 4, vramInc32 := v.getLsbD 2 }

/-- The byte a port 2 read, PPUSTATUS, returns (R317): bit 7 `vblank`, bits 6 to 0 zero (D26, log entry 17). -/
def ppuStatus (p : Ppu) : Byte := if p.vblank then 0x80#8 else 0x00#8

/-- What a port 2 read does to the PPU (R317). -/
def ppuStatusRead (p : Ppu) : Ppu := { p with vblank := false, wlatch := .first }

/-- Port 6 write, PPUADDR (R318): the high six bits first, then the low byte. -/
def ppuAddrWrite (v : Byte) (p : Ppu) : Ppu :=
  match p.wlatch with
  | .first => { p with vramAddr := v.extractLsb' 0 6 ++ p.vramAddr.extractLsb' 0 8, wlatch := .second }
  | .second => { p with vramAddr := p.vramAddr.extractLsb' 8 6 ++ v, wlatch := .first }

/-- The VRAM address increment (10_state.md R35). -/
def vramStep (p : Ppu) : BitVec 14 := if p.vramInc32 then 32#14 else 1#14

/-- The VRAM offset of a VRAM address: masked into 2 KiB (R319). -/
def vramOffset (a : BitVec 14) : Nat := (a &&& 0x07FF#14).toNat

/-- Port 7 write, PPUDATA (R319). -/
def ppuDataWrite (v : Byte) (p : Ppu) : Ppu :=
  { p with vram := cellWrite p.vram (vramOffset p.vramAddr) v, vramAddr := p.vramAddr + vramStep p }

/-- `PpuPortWrite(p, v)` (R315): ports 0, 6 and 7; a write to another port changes no state (R320). -/
def ppuPortWrite (port : Nat) (v : Byte) (s : State) : State :=
  if port = 0 then { s with ppu := ppuCtrlWrite v s.ppu }
  else if port = 6 then { s with ppu := ppuAddrWrite v s.ppu }
  else if port = 7 then { s with ppu := ppuDataWrite v s.ppu }
  else s

/-- `PpuPortRead(p)` (R315): port 2; a read of another port changes no state of the machine and returns a draw of
`PPU_OPEN_READ` (R320), the next free value. -/
def ppuPortRead (port : Nat) (s : State) : Byte × State :=
  if port = 2 then (ppuStatus s.ppu, { s with ppu := ppuStatusRead s.ppu })
  else (Config.ppuOpenRead s.draws, { s with draws := s.draws + 1 })

end Sys2Proof.Machine
end

