-- ==== Sys2Proof/Machine/Ops.lean ====
section
/-! DEFINITION. The bus (20_memory.md), one step of a sequence and the access it makes (40_sequencer.md R131), the stack
steps, TAKING AN EXCEPTION (`SEQ_INT`, 60_exceptions.md R350) and the return from one (`SEQ_RTI`, 45_stack_flag_system.md
R293). -/

namespace Sys2Proof.Machine

/-- The RAM index of a bus address below 0x2000 (20_memory.md R63). -/
def ramIndex (a : Word) : Nat := (a &&& 0x07FF#16).toNat

/-- The port number of a bus address in 0x2000-0x3FFF (20_memory.md R64). -/
def portOf (a : Word) : Nat := (a &&& 0x0007#16).toNat

/-- The PRG index of a bus address from 0x8000 up (20_memory.md R66): `addr & (PRG_SIZE - 1)`. -/
def prgIndex (r : Rom) (a : Word) : Nat := a.toNat &&& (r.prgSize - 1)

/-- `BusRead(addr)` (20_memory.md R61): the first matching line wins. -/
def busRead (a : Word) (s : State) : Except Fault (Byte × State) :=
  if a.toNat < 0x2000 then .ok (cellRead s.ram (ramIndex a), s)
  else if a.toNat < 0x4000 then .ok (ppuPortRead (portOf a) s)
  else if a.toNat ≤ 0x4017 then .ok (Config.stubRead s.draws, { s with draws := s.draws + 1 })
  else if a.toNat < 0x8000 then .error (.busFault a)
  else .ok (cellRead s.rom.prg (prgIndex s.rom a), s)

/-- `BusWrite(addr, v)` (20_memory.md R62). A write to the PRG window is `BusFault` (D23, log entry 18). -/
def busWrite (a : Word) (v : Byte) (s : State) : Except Fault State :=
  if a.toNat < 0x2000 then .ok { s with ram := cellWrite s.ram (ramIndex a) v }
  else if a.toNat < 0x4000 then .ok (ppuPortWrite (portOf a) v s)
  else if a.toNat ≤ 0x4017 then .ok s
  else if a.toNat < 0x8000 then .error (.busFault a)
  else .error (.busFault a)

/-- What one step does (40_sequencer.md R131): it "performs at most one read or one write, may mutate registers/flags, and
may conditionally skip the next step". `effect` gets the state after the access and answers the state after the step and
the `k` of a `skip k` (0 where the step skips nothing). -/
inductive Access where
  /-- a read; `effect` gets the byte read -/
  | read (addr : Word) (effect : Byte → State → State × Nat)
  /-- a write -/
  | write (addr : Word) (value : Byte) (effect : State → State × Nat)
  /-- no access: the step raises -/
  | raise (f : Fault)

/-- A step of a sequence: what it does from a state. -/
abbrev MicroStep := State → Access

/-- Carry a step's access out. A fault leaves no state: the step "makes no other state change" (60_exceptions.md R341). -/
def perform (x : Access) (s : State) : Except Fault (State × Nat) :=
  match x with
  | .read a effect =>
    match busRead a s with
    | .ok (v, t) => .ok (effect v t)
    | .error f => .error f
  | .write a v effect =>
    match busWrite a v s with
    | .ok t => .ok (effect t)
    | .error f => .error f
  | .raise f => .error f

/-- The state with its CPU registers changed. -/
def State.onCpu (f : Cpu → Cpu) (s : State) : State := { s with cpu := f s.cpu }

/-- A reading step whose effect is on the CPU registers, with a skip. -/
def readSkip (addr : Cpu → Word) (effect : Byte → Cpu → Cpu) (skip : Byte → Cpu → Nat) : MicroStep :=
  fun s => .read (addr s.cpu) fun v t => (t.onCpu (effect v), skip v t.cpu)

/-- A reading step whose effect is on the CPU registers. -/
def readStep (addr : Cpu → Word) (effect : Byte → Cpu → Cpu) : MicroStep :=
  fun s => .read (addr s.cpu) fun v t => (t.onCpu (effect v), 0)

/-- A dummy read, `discard BusRead(addr)` (00_scope.md R6), and an effect on the CPU registers. -/
def dummyStep (addr : Cpu → Word) (effect : Cpu → Cpu) : MicroStep :=
  readStep addr fun _ => effect

/-- A writing step whose effect is on the CPU registers. -/
def writeStep (addr : Cpu → Word) (value : Cpu → Byte) (effect : Cpu → Cpu) : MicroStep :=
  fun s => .write (addr s.cpu) (value s.cpu) fun t => (t.onCpu effect, 0)

/-- The address `PC`. -/
def atPc (c : Cpu) : Word := c.pc

/-- `PC <- (PC + 1) mod 65536` (10_state.md R22, 40_sequencer.md R158). -/
def incPc (c : Cpu) : Cpu := { c with pc := c.pc + 1#16 }

/-- The address `0x0100 + S` (20_memory.md R72). -/
def atStack (c : Cpu) : Word := stackAddr c.s

/-- `S <- (S + 1) mod 256` (40_sequencer.md R137). -/
def incS (c : Cpu) : Cpu := { c with s := c.s + 1#8 }

/-- `S <- (S - 1) mod 256` (40_sequencer.md R137). -/
def decS (c : Cpu) : Cpu := { c with s := c.s - 1#8 }

/-- `push(v)` (40_sequencer.md R137): `BusWrite(0x0100 + S, v); S <- (S - 1) mod 256`. -/
def pushStep (value : Cpu → Byte) : MicroStep := writeStep atStack value decS

/-- The increment of a pull with its dummy read (R137: "in the sequences the increment and the read of a pull are in
different steps"): `discard BusRead(0x0100 + S); S <- (S + 1) mod 256`. -/
def prePullStep : MicroStep := dummyStep atStack incS

/-- `SEQ_PUSH` (45_stack_flag_system.md R280, R282), own steps: T1 `discard BusRead(PC)`, T2 the push. -/
def seqPush (value : Cpu → Byte) : List MicroStep := [dummyStep atPc id, pushStep value]

/-- `SEQ_PULL` (45_stack_flag_system.md R281, R283), own steps: T1 `discard BusRead(PC)`, T2 the increment, T3 the read. -/
def seqPull (effect : Byte → Cpu → Cpu) : List MicroStep :=
  [dummyStep atPc id, prePullStep, readStep atStack effect]

/-- `vector(pending)` (10_state.md R27): NMI 0xFFFA, Reset 0xFFFC, IRQ 0xFFFE, and 0xFFFE for the software break (D8). -/
def vector : Pending → Word
  | .nmi => 0xFFFA#16
  | .reset => 0xFFFC#16
  | .irq => 0xFFFE#16
  | .none => 0xFFFE#16

/-- The push context of an entry (60_exceptions.md R350 T4): `pending == None ? Break : Hardware`. -/
def entryContext : Pending → PushContext
  | .none => .softBreak
  | .nmi | .reset | .irq => .hardware

/-- A push of the interrupt sequence (60_exceptions.md R350): "During Reset, the pushes are modeled as reads (no stack
write); IRQ/NMI/BRK perform real writes". `S` is decremented in both cases. -/
def entryPush (value : Pending → Cpu → Byte) (effect : Cpu → Cpu) : MicroStep := fun s =>
  match s.pending with
  | .reset => .read (atStack s.cpu) fun _ t => (t.onCpu fun c => effect (decS c), 0)
  | .none | .nmi | .irq => .write (atStack s.cpu) (value s.pending s.cpu) fun t => (t.onCpu fun c => effect (decS c), 0)

/-- T1 of the interrupt sequence (R350): `discard BusRead(PC)`; only a software break increments `PC`. -/
def entryT1 : MicroStep := fun s =>
  .read s.cpu.pc fun _ t =>
    (match s.pending with
      | .none => t.onCpu incPc
      | .nmi | .reset | .irq => t, 0)

/-- T5 of the interrupt sequence (R350): `PCL <- BusRead(vector(pending))`. -/
def entryT5 : MicroStep := fun s =>
  .read (vector s.pending) fun v t => (t.onCpu fun c => { c with pc := setPcl c.pc v }, 0)

/-- T6 of the interrupt sequence (R350): `PCH <- BusRead((vector(pending) + 1) mod 65536)`, then `pending <- None`. -/
def entryT6 : MicroStep := fun s =>
  .read (vector s.pending + 1#16) fun v t =>
    ({ t.onCpu fun c => { c with pc := setPch c.pc v } with pending := .none }, 0)

/-- TAKING AN EXCEPTION: `SEQ_INT` (60_exceptions.md R350), own steps T1 to T6, shared by the software break, NMI, IRQ and
Reset. Each step reads `pending` as it is at its own tick (R352, log entry 15). -/
def seqInt : List MicroStep :=
  [entryT1,
   entryPush (fun _ c => hi8 c.pc) id,
   entryPush (fun _ c => lo8 c.pc) id,
   entryPush (fun q c => group (entryContext q) c.p) (fun c => { c with p := { c.p with i := true } }),
   entryT5,
   entryT6]

/-- THE RETURN FROM ONE: `SEQ_RTI` (45_stack_flag_system.md R293), own steps T1 to T5. -/
def seqRti : List MicroStep :=
  [dummyStep atPc id,
   prePullStep,
   readStep atStack (fun v c => incS { c with p := ungroup v }),
   readStep atStack (fun v c => incS { c with pc := setPcl c.pc v }),
   readStep atStack (fun v c => { c with pc := setPch c.pc v })]

/-- `SEQ_ILL` (40_sequencer.md R134): the one step, `raise IllegalOpcode(byte)`; no bus access. -/
def seqIll (b : Byte) : List MicroStep := [fun _ => .raise (.illegalOpcode b)]

/-- The bytes of an instruction placed from bus address `a` on, in RAM. -/
def pokeRam (a : Word) (bytes : List Byte) (s : State) : State :=
  match bytes with
  | [] => s
  | v :: more => pokeRam (a + 1#16) more { s with ram := cellWrite s.ram (ramIndex a) v }

/-- The bytes of an instruction placed from bus address `a` on, in the PRG image (the loader's, not a bus write). -/
def pokePrg (a : Word) (bytes : List Byte) (s : State) : State :=
  match bytes with
  | [] => s
  | v :: more =>
    pokePrg (a + 1#16) more
      { s with rom := { s.rom with prg := cellWrite s.rom.prg (prgIndex s.rom a) v } }

/-- The bytes placed where `PC` fetches: in RAM if `PC` and the two addresses after it are RAM, in the PRG image if they
are in its window and the image is large enough to hold them apart; otherwise `PC` is set to 0x0000, which is RAM. Log
entry 20. -/
def placeAtPc (bytes : List Byte) (s : State) : State :=
  if s.cpu.pc.toNat ≤ 0x1FFD then pokeRam s.cpu.pc bytes s
  else if 0x8000 ≤ s.cpu.pc.toNat ∧ s.cpu.pc.toNat ≤ 0xFFFD ∧ 4 ≤ s.rom.prgSize then pokePrg s.cpu.pc bytes s
  else pokeRam 0x0000#16 bytes (s.onCpu fun c => { c with pc := 0x0000#16 })

/-- The state with FETCH as its next step and nothing in its way: at an instruction boundary (`ir = 0xEA`, `cursor = 1`,
10_state.md R28), not halted, no interrupt pending, and none raised by the PPU ticks before the fetch (`nmi_enable` is
cleared only where those ticks would raise the NMI). Log entry 20. -/
def readyToFetch (s : State) : State :=
  let t := { s.onCpu fun c => { c with ir := 0xEA#8, cursor := 1 } with pending := .none, halted := none }
  match (ppuTicks Config.ppuTicksPerCpuTick t).pending with
  | .none => t
  | .nmi | .reset | .irq => { t with ppu := { t.ppu with nmiEnable := false } }

end Sys2Proof.Machine
end

