-- ==== Sys2Proof/Machine/Operands.lean ====
section
/-! DEFINITION. The addressing-mode sequences of 40_sequencer.md (R140 to R156), own steps only: the terminal FETCH is
`fetchStep` of Machine/Sequencer.lean. `exec`, `value` and `modify` are the hooks of R138. -/

namespace Sys2Proof.Machine

/-- A class M hook (R138): the new byte, and the flags it sets. -/
abbrev Modify := Byte → Flags → Byte × Flags

/-- `hi:lo`, the effective address in the latch (10_state.md R26). -/
def atLatch (c : Cpu) : Word := cat c.latch.hi c.latch.lo

/-- `0x00:lo`. -/
def atZeroPageLo (c : Cpu) : Word := zeroPage c.latch.lo

/-- `lo <- v`. -/
def setLo (v : Byte) (c : Cpu) : Cpu := { c with latch := { c.latch with lo := v } }

/-- `hi <- v`. -/
def setHi (v : Byte) (c : Cpu) : Cpu := { c with latch := { c.latch with hi := v } }

/-- `data <- v`. -/
def setData (v : Byte) (c : Cpu) : Cpu := { c with latch := { c.latch with data := v } }

/-- `hi <- (hi + 1) mod 256`. -/
def carryHi (c : Cpu) : Cpu := setHi (c.latch.hi + 1#8) c

/-- `lo <- (lo + idx) mod 256`. -/
def addLo (idx : Byte) (c : Cpu) : Cpu := setLo (c.latch.lo + idx) c

/-- The `skip 1` of an indexed read where `t = lo + idx` is below 256 (R152, R155). -/
def skipUnlessCarry (lo idx : Byte) : Nat := if lo.toNat + idx.toNat < 256 then 1 else 0

/-- T3 of an indexed write (R153): "if `lo < idx` (a carry occurred) `hi <- (hi + 1) mod 256`". -/
def carryIfBelow (idx : Byte) (c : Cpu) : Cpu := if c.latch.lo.toNat < idx.toNat then carryHi c else c

/-- `exec(v)` after `data <- v`. -/
def loadExec (exec : Byte → Cpu → Cpu) (v : Byte) (c : Cpu) : Cpu := exec v (setData v c)

/-- `data <- modify(data)`. -/
def applyModify (modify : Modify) (c : Cpu) : Cpu :=
  let r := modify c.latch.data c.p
  { setData r.1 c with p := r.2 }

/-- `A <- modify(A)` (R141). -/
def modifyA (modify : Modify) (c : Cpu) : Cpu :=
  let r := modify c.a c.p
  { c with a := r.1, p := r.2 }

/-- T1 of the zero-page sequences (R143): `lo <- BusRead(PC)`, `PC <- PC+1`, `hi <- 0x00`. -/
def zpT1 : MicroStep := readStep atPc fun v c => setHi 0x00#8 (setLo v (incPc c))

/-- T2 of the zero-page indexed sequences (R146): dummy read of the unindexed address, `lo <- (lo + idx) mod 256`. -/
def zpiT2 (idx : Cpu → Byte) : MicroStep := dummyStep atZeroPageLo fun c => addLo (idx c) c

/-- T1 of the absolute sequences (R149): `lo <- BusRead(PC)`, `PC <- PC+1`. -/
def absT1 : MicroStep := readStep atPc fun v c => setLo v (incPc c)

/-- T2 of the absolute sequences (R149): `hi <- BusRead(PC)`, `PC <- PC+1`. -/
def absT2 : MicroStep := readStep atPc fun v c => setHi v (incPc c)

/-- T2 of the absolute indexed reads (R152): as `absT2`, then `lo <- t mod 256`, `skip 1` if `t < 256`. -/
def abiReadT2 (idx : Cpu → Byte) : MicroStep :=
  readSkip atPc (fun v c => addLo (idx c) (setHi v (incPc c))) (fun _ c => skipUnlessCarry c.latch.lo (idx c))

/-- T2 of the absolute indexed writes (R153): as `absT2`, then `lo <- (lo + idx) mod 256`, no skip. -/
def abiWriteT2 (idx : Cpu → Byte) : MicroStep :=
  readStep atPc fun v c => addLo (idx c) (setHi v (incPc c))

/-- The dummy read of an indexed read that crosses a page (R152 T3, R155 T4): at the uncorrected high byte, then
`hi <- (hi + 1) mod 256`. -/
def crossDummy : MicroStep := dummyStep atLatch carryHi

/-- The dummy read every indexed write makes (R153 T3, R156 T4). -/
def writeDummy (idx : Cpu → Byte) : MicroStep := dummyStep atLatch fun c => carryIfBelow (idx c) c

/-- T1 of the indirect-indexed sequences (R155): `data <- BusRead(PC)`, `PC <- PC+1`. -/
def izyT1 : MicroStep := readStep atPc fun v c => setData v (incPc c)

/-- T2 of the indirect-indexed sequences (R155): `lo <- BusRead(0x00:data)`. -/
def izyT2 : MicroStep := readStep (fun c => zeroPage c.latch.data) fun v c => setLo v c

/-- The address of the pointer's second byte (R155): `0x00:((data + 1) mod 256)`. -/
def izyHiAddr (c : Cpu) : Word := zeroPage (c.latch.data + 1#8)

/-- T3 of the indirect-indexed read (R155). -/
def izyReadT3 : MicroStep :=
  readSkip izyHiAddr (fun v c => addLo c.y (setHi v c)) (fun _ c => skipUnlessCarry c.latch.lo c.y)

/-- T3 of the indirect-indexed write (R156): no skip. -/
def izyWriteT3 : MicroStep := readStep izyHiAddr fun v c => addLo c.y (setHi v c)

/-- The operand read of class R: `data <- BusRead(addr)`, `exec(data)`. -/
def execRead (addr : Cpu → Word) (exec : Byte → Cpu → Cpu) : MicroStep := readStep addr (loadExec exec)

/-- The three last own steps of class M at `addr` (R145 T2 to T4): read, write the unmodified value back and then
`data <- modify(data)`, write the new value. -/
def modifySteps (addr : Cpu → Word) (modify : Modify) : List MicroStep :=
  [readStep addr (fun v c => setData v c),
   writeStep addr (fun c => c.latch.data) (applyModify modify),
   writeStep addr (fun c => c.latch.data) id]

/-- `SEQ_IMP` (R140). -/
def seqImp (exec : Cpu → Cpu) : List MicroStep := [dummyStep atPc exec]

/-- `SEQ_ACC` (R141). -/
def seqAcc (modify : Modify) : List MicroStep := [dummyStep atPc (modifyA modify)]

/-- `SEQ_IMM` (R142). -/
def seqImm (exec : Byte → Cpu → Cpu) : List MicroStep := [readStep atPc fun v c => loadExec exec v (incPc c)]

/-- `SEQ_ZP_R` (R143). -/
def seqZpR (exec : Byte → Cpu → Cpu) : List MicroStep := [zpT1, execRead atZeroPageLo exec]

/-- `SEQ_ZP_W` (R144). -/
def seqZpW (value : Cpu → Byte) : List MicroStep := [zpT1, writeStep atZeroPageLo value id]

/-- `SEQ_ZP_M` (R145). -/
def seqZpM (modify : Modify) : List MicroStep := zpT1 :: modifySteps atZeroPageLo modify

/-- `SEQ_ZPI_R` (R146). -/
def seqZpiR (idx : Cpu → Byte) (exec : Byte → Cpu → Cpu) : List MicroStep :=
  [zpT1, zpiT2 idx, execRead atZeroPageLo exec]

/-- `SEQ_ZPI_W` (R147). -/
def seqZpiW (idx : Cpu → Byte) (value : Cpu → Byte) : List MicroStep :=
  [zpT1, zpiT2 idx, writeStep atZeroPageLo value id]

/-- `SEQ_ZPI_M` (R148). -/
def seqZpiM (idx : Cpu → Byte) (modify : Modify) : List MicroStep :=
  zpT1 :: zpiT2 idx :: modifySteps atZeroPageLo modify

/-- `SEQ_ABS_R` (R149). -/
def seqAbsR (exec : Byte → Cpu → Cpu) : List MicroStep := [absT1, absT2, execRead atLatch exec]

/-- `SEQ_ABS_W` (R150). -/
def seqAbsW (value : Cpu → Byte) : List MicroStep := [absT1, absT2, writeStep atLatch value id]

/-- `SEQ_ABS_M` (R151). -/
def seqAbsM (modify : Modify) : List MicroStep := absT1 :: absT2 :: modifySteps atLatch modify

/-- `SEQ_ABI_R` (R152). -/
def seqAbiR (idx : Cpu → Byte) (exec : Byte → Cpu → Cpu) : List MicroStep :=
  [absT1, abiReadT2 idx, crossDummy, execRead atLatch exec]

/-- `SEQ_ABI_W` (R153). -/
def seqAbiW (idx : Cpu → Byte) (value : Cpu → Byte) : List MicroStep :=
  [absT1, abiWriteT2 idx, writeDummy idx, writeStep atLatch value id]

/-- `SEQ_ABI_M` (R154). -/
def seqAbiM (idx : Cpu → Byte) (modify : Modify) : List MicroStep :=
  absT1 :: abiWriteT2 idx :: writeDummy idx :: modifySteps atLatch modify

/-- `SEQ_IZY_R` (R155). -/
def seqIzyR (exec : Byte → Cpu → Cpu) : List MicroStep :=
  [izyT1, izyT2, izyReadT3, crossDummy, execRead atLatch exec]

/-- `SEQ_IZY_W` (R156). -/
def seqIzyW (value : Cpu → Byte) : List MicroStep :=
  [izyT1, izyT2, izyWriteT3, writeDummy Cpu.y, writeStep atLatch value id]

/-- The own steps of a class R instruction by operand form (the sequence column of 30_encoding.md R103). -/
def seqRead (m : RMode) (exec : Byte → Cpu → Cpu) : List MicroStep :=
  match m with
  | .imm => seqImm exec
  | .zp => seqZpR exec
  | .zpx => seqZpiR Cpu.x exec
  | .zpy => seqZpiR Cpu.y exec
  | .abs => seqAbsR exec
  | .abx => seqAbiR Cpu.x exec
  | .aby => seqAbiR Cpu.y exec
  | .izy => seqIzyR exec

/-- The own steps of a class W instruction by operand form (R103). -/
def seqWrite (m : WMode) (value : Cpu → Byte) : List MicroStep :=
  match m with
  | .zp => seqZpW value
  | .zpx => seqZpiW Cpu.x value
  | .zpy => seqZpiW Cpu.y value
  | .abs => seqAbsW value
  | .abx => seqAbiW Cpu.x value
  | .aby => seqAbiW Cpu.y value
  | .izy => seqIzyW value

/-- The own steps of a class M instruction, or of the accumulator form, by operand form (R103). -/
def seqModify (m : MMode) (modify : Modify) : List MicroStep :=
  match m with
  | .acc => seqAcc modify
  | .zp => seqZpM modify
  | .zpx => seqZpiM Cpu.x modify
  | .abs => seqAbsM modify
  | .abx => seqAbiM Cpu.x modify

end Sys2Proof.Machine
end

