-- ==== Sys2Proof/Machine/Sequencer.lean ====
section
/-! DEFINITION. The sequencer: the FETCH step, one system step around a step of a sequence, and the run of an
instruction's own steps (40_sequencer.md R130 to R133, 00_scope.md R9). -/

namespace Sys2Proof.Machine

/-- An outcome of the machine. -/
abbrev Result := Host.Outcome State Fault Refusal

/-- FETCH (40_sequencer.md R132): the read at `PC` is made in both cases; a pending interrupt forces the byte to 0x00 and
keeps `PC`. Installs the opcode with the cursor at 0. -/
def fetchStep : MicroStep := fun s =>
  .read s.cpu.pc fun b t =>
    (match s.pending with
      | .none => t.onCpu fun c => { c with pc := c.pc + 1#16, ir := b, cursor := 0 }
      | .nmi | .reset | .irq => t.onCpu fun c => { c with ir := 0x00#8, cursor := 0 }, 0)

/-- The cursor after an own step (R130): `cursor <- cursor + 1 + k`. -/
def advanceCursor (k : Nat) (s : State) : State := s.onCpu fun c => { c with cursor := c.cursor + 1 + k }

/-- The PPU's share of a system step (00_scope.md R9): three PPU ticks. -/
def ppuShare (s : State) : State := ppuTicks Config.ppuTicksPerCpuTick s

/-- One system step whose CPU tick executes the own step `m` (R9, R130): three PPU ticks, then the step, then the cursor.
A halted machine answers its fault (60_exceptions.md R343, log entry 3). -/
def cycle (m : MicroStep) (s : State) : Result :=
  match s.halted with
  | some f => .fault f
  | none =>
    match perform (m (ppuShare s)) (ppuShare s) with
    | .ok (t, k) => .next (advanceCursor k t)
    | .error f => .fault f

/-- One system step whose CPU tick is FETCH (R9, R132). -/
def fetchCycle (s : State) : Result :=
  match s.halted with
  | some f => .fault f
  | none =>
    match perform (fetchStep (ppuShare s)) (ppuShare s) with
    | .ok (t, _) => .next t
    | .error f => .fault f

/-- System steps through the own steps `own`, from the cursor on, until the next step is FETCH (an instruction boundary,
00_scope.md R12) or the machine stops; at most `fuel` of them. -/
def runFrom (own : List MicroStep) (fuel : Nat) (s : State) : Result :=
  match fuel with
  | 0 => .next s
  | n + 1 =>
    match own[s.cpu.cursor]? with
    | none => .next s
    | some m =>
      match cycle m s with
      | .next t => runFrom own n t
      | .fault f => .fault f
      | .refused r => .refused r

/-- An instruction's own steps run to the boundary: each step moves the cursor on, so `own.length` system steps are
enough. A halted machine answers its fault. -/
def runSteps (own : List MicroStep) (s : State) : Result :=
  match s.halted with
  | some f => .fault f
  | none => runFrom own own.length s

end Sys2Proof.Machine
end

