-- ==== Sys2Proof/Machine/Arith.lean ====
section
/-! DEFINITION. Arithmetic, logic, compare and bit test (42_arith_logic.md). -/

namespace Sys2Proof.Machine

/-- ADC (R221): `(r, cout, ovf) <- ADD8(A, v, C)`; `C <- cout; V <- ovf; A <- r; setNZ(r)`. -/
def adcExec (v : Byte) (c : Cpu) : Cpu := 
  let t := add8 c.a v c.p.c
  { c with a := t.r, p := addFlags t c.p }

/-- The own steps of ADC (R221), class R. -/
def stepsAdc (m : RMode) : List MicroStep := seqRead m adcExec

/-- ADC (R221), every operand form. -/
def execAdc (m : RMode) (s : State) : Result := runSteps (stepsAdc m) s

/-- SBC (R222): `ADD8(A, v ^ 0xFF, C)`, the same adder on the one's complement. -/
def sbcExec (v : Byte) (c : Cpu) : Cpu := 
  let t := add8 c.a (v ^^^ 0xFF#8) c.p.c
  { c with a := t.r, p := addFlags t c.p }

/-- The own steps of SBC (R222), class R. -/
def stepsSbc (m : RMode) : List MicroStep := seqRead m sbcExec

/-- SBC (R222), every operand form. -/
def execSbc (m : RMode) (s : State) : Result := runSteps (stepsSbc m) s

/-- AND (R223): `A <- A & v; setNZ(A)`. -/
def andExec (v : Byte) (c : Cpu) : Cpu := { c with a := c.a &&& v, p := setNZ (c.a &&& v) c.p }

/-- The own steps of AND (R223), class R. -/
def stepsAnd (m : RMode) : List MicroStep := seqRead m andExec

/-- AND (R223), every operand form. -/
def execAnd (m : RMode) (s : State) : Result := runSteps (stepsAnd m) s

/-- ORA (R224): `A <- A | v; setNZ(A)`. -/
def oraExec (v : Byte) (c : Cpu) : Cpu := { c with a := c.a ||| v, p := setNZ (c.a ||| v) c.p }

/-- The own steps of ORA (R224), class R. -/
def stepsOra (m : RMode) : List MicroStep := seqRead m oraExec

/-- ORA (R224), every operand form. -/
def execOra (m : RMode) (s : State) : Result := runSteps (stepsOra m) s

/-- EOR (R225): `A <- A ^ v; setNZ(A)`. -/
def eorExec (v : Byte) (c : Cpu) : Cpu := { c with a := c.a ^^^ v, p := setNZ (c.a ^^^ v) c.p }

/-- The own steps of EOR (R225), class R. -/
def stepsEor (m : RMode) : List MicroStep := seqRead m eorExec

/-- EOR (R225), every operand form. -/
def execEor (m : RMode) (s : State) : Result := runSteps (stepsEor m) s

/-- CMP (R227): `COMPARE(A, v)`. -/
def cmpExec (v : Byte) (c : Cpu) : Cpu := { c with p := compareFlags c.a v c.p }

/-- The own steps of CMP (R227), class R. -/
def stepsCmp (m : RMode) : List MicroStep := seqRead m cmpExec

/-- CMP (R227), every operand form. -/
def execCmp (m : RMode) (s : State) : Result := runSteps (stepsCmp m) s

/-- CPX (R228): `COMPARE(X, v)`. -/
def cpxExec (v : Byte) (c : Cpu) : Cpu := { c with p := compareFlags c.x v c.p }

/-- The own steps of CPX (R228), class R. -/
def stepsCpx (m : RMode) : List MicroStep := seqRead m cpxExec

/-- CPX (R228), every operand form. -/
def execCpx (m : RMode) (s : State) : Result := runSteps (stepsCpx m) s

/-- CPY (R229): `COMPARE(Y, v)`. -/
def cpyExec (v : Byte) (c : Cpu) : Cpu := { c with p := compareFlags c.y v c.p }

/-- The own steps of CPY (R229), class R. -/
def stepsCpy (m : RMode) : List MicroStep := seqRead m cpyExec

/-- CPY (R229), every operand form. -/
def execCpy (m : RMode) (s : State) : Result := runSteps (stepsCpy m) s

/-- BIT (R230): `Z <- ((A & v) == 0); N <- v[7]; V <- v[6]`. -/
def bitExec (v : Byte) (c : Cpu) : Cpu := { c with p := bitFlags c.a v c.p }

/-- The own steps of BIT (R230), class R. -/
def stepsBit (m : RMode) : List MicroStep := seqRead m bitExec

/-- BIT (R230), every operand form. -/
def execBit (m : RMode) (s : State) : Result := runSteps (stepsBit m) s

end Sys2Proof.Machine
end

