-- ==== Sys2Proof/Machine/Branch.lean ====
section
/-! DEFINITION. Branches, jump, call and return (44_branch_jump.md). -/

namespace Sys2Proof.Machine

/-- `target` of a branch (44_branch_jump.md R260): `(PC + sext_16(data)) mod 65536`, `PC` the next instruction's. -/
def branchTarget (pc : Word) (data : Byte) : Word := pc + sext16 data

/-- T1 of `SEQ_REL` (R260): `data <- BusRead(PC)`, `PC <- PC+1`, `skip 2` if the branch is not taken. -/
def relT1 (cond : Flags → Bool) : MicroStep :=
  readSkip atPc (fun v c => setData v (incPc c)) (fun _ c => if cond c.p then 0 else 2)

/-- T2 of `SEQ_REL` (R260), taken: `discard BusRead(PC)`, `PCL <- lo8(target)`, `skip 1` if the target is in the page of
the next instruction. -/
def relT2 : MicroStep :=
  readSkip atPc (fun _ c => { c with pc := setPcl c.pc (lo8 (branchTarget c.pc c.latch.data)) })
    (fun _ c => if hi8 (branchTarget c.pc c.latch.data) = hi8 c.pc then 1 else 0)

/-- T3 of `SEQ_REL` (R260), page crossing: the dummy read at the new `PCL` with the old `PCH`, then
`PCH <- (PCH + (data[7] ? 0xFF : 0x01)) mod 256`. -/
def relT3 : MicroStep :=
  dummyStep atPc fun c =>
    { c with pc := setPch c.pc (hi8 c.pc + if c.latch.data.getLsbD 7 then 0xFF#8 else 0x01#8) }

/-- `SEQ_REL` (R260), own steps. -/
def seqRel (cond : Flags → Bool) : List MicroStep := [relT1 cond, relT2, relT3]

/-- T2 of `SEQ_JMP` (R269) and T5 of `SEQ_JSR` (R270): `hi <- BusRead(PC)`, `PC <- hi:lo`. -/
def jumpStep : MicroStep :=
  readStep atPc fun v c => { setHi v c with pc := cat v c.latch.lo }

/-- `SEQ_JMP` (R269), own steps. -/
def seqJmp : List MicroStep := [absT1, jumpStep]

/-- `SEQ_JSR` (R270), own steps: the operand's low byte, a dummy stack read, `PCH` and `PCL` pushed, then the high byte. -/
def seqJsr : List MicroStep :=
  [absT1, dummyStep atStack id, pushStep (fun c => hi8 c.pc), pushStep (fun c => lo8 c.pc), jumpStep]

/-- `SEQ_RTS` (R271), own steps. -/
def seqRts : List MicroStep :=
  [dummyStep atPc id,
   prePullStep,
   readStep atStack (fun v c => incS { c with pc := setPcl c.pc v }),
   readStep atStack (fun v c => { c with pc := setPch c.pc v }),
   dummyStep atPc incPc]

/-- The own steps of BPL (R261): `SEQ_REL`, `cond = (N == false)`. -/
def stepsBpl : List MicroStep := seqRel fun p => !p.n

/-- BPL (R261). -/
def execBpl (s : State) : Result := runSteps stepsBpl s

/-- The own steps of BMI (R262): `SEQ_REL`, `cond = (N == true)`. -/
def stepsBmi : List MicroStep := seqRel fun p => p.n

/-- BMI (R262). -/
def execBmi (s : State) : Result := runSteps stepsBmi s

/-- The own steps of BVC (R263): `SEQ_REL`, `cond = (V == false)`. -/
def stepsBvc : List MicroStep := seqRel fun p => !p.v

/-- BVC (R263). -/
def execBvc (s : State) : Result := runSteps stepsBvc s

/-- The own steps of BVS (R264): `SEQ_REL`, `cond = (V == true)`. -/
def stepsBvs : List MicroStep := seqRel fun p => p.v

/-- BVS (R264). -/
def execBvs (s : State) : Result := runSteps stepsBvs s

/-- The own steps of BCC (R265): `SEQ_REL`, `cond = (C == false)`. -/
def stepsBcc : List MicroStep := seqRel fun p => !p.c

/-- BCC (R265). -/
def execBcc (s : State) : Result := runSteps stepsBcc s

/-- The own steps of BCS (R266): `SEQ_REL`, `cond = (C == true)`. -/
def stepsBcs : List MicroStep := seqRel fun p => p.c

/-- BCS (R266). -/
def execBcs (s : State) : Result := runSteps stepsBcs s

/-- The own steps of BNE (R267): `SEQ_REL`, `cond = (Z == false)`. -/
def stepsBne : List MicroStep := seqRel fun p => !p.z

/-- BNE (R267). -/
def execBne (s : State) : Result := runSteps stepsBne s

/-- The own steps of BEQ (R268): `SEQ_REL`, `cond = (Z == true)`. -/
def stepsBeq : List MicroStep := seqRel fun p => p.z

/-- BEQ (R268). -/
def execBeq (s : State) : Result := runSteps stepsBeq s

/-- The own steps of JMP (R269): `SEQ_JMP`. -/
def stepsJmp : List MicroStep := seqJmp

/-- JMP (R269). -/
def execJmp (s : State) : Result := runSteps stepsJmp s

/-- The own steps of JSR (R270): `SEQ_JSR`. -/
def stepsJsr : List MicroStep := seqJsr

/-- JSR (R270). -/
def execJsr (s : State) : Result := runSteps stepsJsr s

/-- The own steps of RTS (R271): `SEQ_RTS`. -/
def stepsRts : List MicroStep := seqRts

/-- RTS (R271). -/
def execRts (s : State) : Result := runSteps stepsRts s

end Sys2Proof.Machine
end

