-- ==== Sys2Proof/Machine/LoadStore.lean ====
section
/-! DEFINITION. Loads, stores and register transfers (41_load_store_transfer.md). -/

namespace Sys2Proof.Machine

/-- LDA (R200): `A <- v; setNZ(v)`. -/
def ldaExec (v : Byte) (c : Cpu) : Cpu := { c with a := v, p := setNZ v c.p }

/-- The own steps of LDA (R200), class R. -/
def stepsLda (m : RMode) : List MicroStep := seqRead m ldaExec

/-- LDA (R200), every operand form. -/
def execLda (m : RMode) (s : State) : Result := runSteps (stepsLda m) s

/-- LDX (R201): `X <- v; setNZ(v)`. -/
def ldxExec (v : Byte) (c : Cpu) : Cpu := { c with x := v, p := setNZ v c.p }

/-- The own steps of LDX (R201), class R. -/
def stepsLdx (m : RMode) : List MicroStep := seqRead m ldxExec

/-- LDX (R201), every operand form. -/
def execLdx (m : RMode) (s : State) : Result := runSteps (stepsLdx m) s

/-- LDY (R202): `Y <- v; setNZ(v)`. -/
def ldyExec (v : Byte) (c : Cpu) : Cpu := { c with y := v, p := setNZ v c.p }

/-- The own steps of LDY (R202), class R. -/
def stepsLdy (m : RMode) : List MicroStep := seqRead m ldyExec

/-- LDY (R202), every operand form. -/
def execLdy (m : RMode) (s : State) : Result := runSteps (stepsLdy m) s

/-- STA (R203): `value(): return A`. -/
def staValue (c : Cpu) : Byte := c.a

/-- The own steps of STA (R203), class W. -/
def stepsSta (m : WMode) : List MicroStep := seqWrite m staValue

/-- STA (R203), every operand form. -/
def execSta (m : WMode) (s : State) : Result := runSteps (stepsSta m) s

/-- STX (R204): `value(): return X`. -/
def stxValue (c : Cpu) : Byte := c.x

/-- The own steps of STX (R204), class W. -/
def stepsStx (m : WMode) : List MicroStep := seqWrite m stxValue

/-- STX (R204), every operand form. -/
def execStx (m : WMode) (s : State) : Result := runSteps (stepsStx m) s

/-- STY (R205): `value(): return Y`. -/
def styValue (c : Cpu) : Byte := c.y

/-- The own steps of STY (R205), class W. -/
def stepsSty (m : WMode) : List MicroStep := seqWrite m styValue

/-- STY (R205), every operand form. -/
def execSty (m : WMode) (s : State) : Result := runSteps (stepsSty m) s

/-- TAX (R206): `X <- A; setNZ(X)`. -/
def taxExec (c : Cpu) : Cpu := { c with x := c.a, p := setNZ c.a c.p }

/-- The own steps of TAX (R206), `SEQ_IMP`. -/
def stepsTax : List MicroStep := seqImp taxExec

/-- TAX (R206). -/
def execTax (s : State) : Result := runSteps stepsTax s

/-- TAY (R207): `Y <- A; setNZ(Y)`. -/
def tayExec (c : Cpu) : Cpu := { c with y := c.a, p := setNZ c.a c.p }

/-- The own steps of TAY (R207), `SEQ_IMP`. -/
def stepsTay : List MicroStep := seqImp tayExec

/-- TAY (R207). -/
def execTay (s : State) : Result := runSteps stepsTay s

/-- TXA (R208): `A <- X; setNZ(A)`. -/
def txaExec (c : Cpu) : Cpu := { c with a := c.x, p := setNZ c.x c.p }

/-- The own steps of TXA (R208), `SEQ_IMP`. -/
def stepsTxa : List MicroStep := seqImp txaExec

/-- TXA (R208). -/
def execTxa (s : State) : Result := runSteps stepsTxa s

/-- TYA (R209): `A <- Y; setNZ(A)`. -/
def tyaExec (c : Cpu) : Cpu := { c with a := c.y, p := setNZ c.y c.p }

/-- The own steps of TYA (R209), `SEQ_IMP`. -/
def stepsTya : List MicroStep := seqImp tyaExec

/-- TYA (R209). -/
def execTya (s : State) : Result := runSteps stepsTya s

/-- TSX (R210): `X <- S; setNZ(X)`. -/
def tsxExec (c : Cpu) : Cpu := { c with x := c.s, p := setNZ c.s c.p }

/-- The own steps of TSX (R210), `SEQ_IMP`. -/
def stepsTsx : List MicroStep := seqImp tsxExec

/-- TSX (R210). -/
def execTsx (s : State) : Result := runSteps stepsTsx s

/-- TXS (R211): `S <- X`, no flag. -/
def txsExec (c : Cpu) : Cpu := { c with s := c.x }

/-- The own steps of TXS (R211), `SEQ_IMP`. -/
def stepsTxs : List MicroStep := seqImp txsExec

/-- TXS (R211). -/
def execTxs (s : State) : Result := runSteps stepsTxs s

end Sys2Proof.Machine
end

