-- ==== Sys2Proof/Machine/ShiftInc.lean ====
section
/-! DEFINITION. Shifts, rotates, increments and decrements (43_shift_incdec.md). -/

namespace Sys2Proof.Machine

/-- ASL (R240): `C <- v[7]; r <- (v * 2) mod 256; setNZ(r)`. -/
def aslModify : Modify := fun v p => 
  let r := v <<< 1
  (r, setNZ r { p with c := v.getLsbD 7 })

/-- The own steps of ASL (R240), class M or accumulator. -/
def stepsAsl (m : MMode) : List MicroStep := seqModify m aslModify

/-- ASL (R240), every operand form. -/
def execAsl (m : MMode) (s : State) : Result := runSteps (stepsAsl m) s

/-- LSR (R241): `C <- v[0]; r <- v >> 1; setNZ(r)`. -/
def lsrModify : Modify := fun v p => 
  let r := v >>> 1
  (r, setNZ r { p with c := v.getLsbD 0 })

/-- The own steps of LSR (R241), class M or accumulator. -/
def stepsLsr (m : MMode) : List MicroStep := seqModify m lsrModify

/-- LSR (R241), every operand form. -/
def execLsr (m : MMode) (s : State) : Result := runSteps (stepsLsr m) s

/-- ROL (R242): `r <- ((v * 2) mod 256) | C; C <- v[7]; setNZ(r)`. -/
def rolModify : Modify := fun v p => 
  let r := (v <<< 1) ||| (if p.c then 0x01#8 else 0x00#8)
  (r, setNZ r { p with c := v.getLsbD 7 })

/-- The own steps of ROL (R242), class M or accumulator. -/
def stepsRol (m : MMode) : List MicroStep := seqModify m rolModify

/-- ROL (R242), every operand form. -/
def execRol (m : MMode) (s : State) : Result := runSteps (stepsRol m) s

/-- ROR (R243): `r <- (v >> 1) | (C ? 0x80 : 0); C <- v[0]; setNZ(r)`. -/
def rorModify : Modify := fun v p => 
  let r := (v >>> 1) ||| (if p.c then 0x80#8 else 0x00#8)
  (r, setNZ r { p with c := v.getLsbD 0 })

/-- The own steps of ROR (R243), class M or accumulator. -/
def stepsRor (m : MMode) : List MicroStep := seqModify m rorModify

/-- ROR (R243), every operand form. -/
def execRor (m : MMode) (s : State) : Result := runSteps (stepsRor m) s

/-- INC (R244): `r <- (v + 1) mod 256; setNZ(r)`. -/
def incModify : Modify := fun v p => (v + 1#8, setNZ (v + 1#8) p)

/-- The own steps of INC (R244), class M or accumulator. -/
def stepsInc (m : MMode) : List MicroStep := seqModify m incModify

/-- INC (R244), every operand form. -/
def execInc (m : MMode) (s : State) : Result := runSteps (stepsInc m) s

/-- DEC (R245): `r <- (v - 1) mod 256; setNZ(r)`. -/
def decModify : Modify := fun v p => (v - 1#8, setNZ (v - 1#8) p)

/-- The own steps of DEC (R245), class M or accumulator. -/
def stepsDec (m : MMode) : List MicroStep := seqModify m decModify

/-- DEC (R245), every operand form. -/
def execDec (m : MMode) (s : State) : Result := runSteps (stepsDec m) s

/-- INX (R246): `X <- (X + 1) mod 256; setNZ(X)`. -/
def inxExec (c : Cpu) : Cpu := { c with x := c.x + 1#8, p := setNZ (c.x + 1#8) c.p }

/-- The own steps of INX (R246), `SEQ_IMP`. -/
def stepsInx : List MicroStep := seqImp inxExec

/-- INX (R246). -/
def execInx (s : State) : Result := runSteps stepsInx s

/-- INY (R247): `Y <- (Y + 1) mod 256; setNZ(Y)`. -/
def inyExec (c : Cpu) : Cpu := { c with y := c.y + 1#8, p := setNZ (c.y + 1#8) c.p }

/-- The own steps of INY (R247), `SEQ_IMP`. -/
def stepsIny : List MicroStep := seqImp inyExec

/-- INY (R247). -/
def execIny (s : State) : Result := runSteps stepsIny s

/-- DEX (R248): `X <- (X - 1) mod 256; setNZ(X)`. -/
def dexExec (c : Cpu) : Cpu := { c with x := c.x - 1#8, p := setNZ (c.x - 1#8) c.p }

/-- The own steps of DEX (R248), `SEQ_IMP`. -/
def stepsDex : List MicroStep := seqImp dexExec

/-- DEX (R248). -/
def execDex (s : State) : Result := runSteps stepsDex s

/-- DEY (R249): `Y <- (Y - 1) mod 256; setNZ(Y)`. -/
def deyExec (c : Cpu) : Cpu := { c with y := c.y - 1#8, p := setNZ (c.y - 1#8) c.p }

/-- The own steps of DEY (R249), `SEQ_IMP`. -/
def stepsDey : List MicroStep := seqImp deyExec

/-- DEY (R249). -/
def execDey (s : State) : Result := runSteps stepsDey s

end Sys2Proof.Machine
end

