-- ==== Sys2Proof/Machine/StackSystem.lean ====
section
/-! DEFINITION. Stack, flag and system instructions (45_stack_flag_system.md), and the illegal row (40_sequencer.md R134). -/

namespace Sys2Proof.Machine

/-- The own steps of PHA (R280): `SEQ_PUSH` of `A`. -/
def stepsPha : List MicroStep := seqPush Cpu.a

/-- PHA (R280). -/
def execPha (s : State) : Result := runSteps stepsPha s

/-- The own steps of PLA (R281): `SEQ_PULL`, `A <- v; setNZ(A)`. -/
def stepsPla : List MicroStep := seqPull fun v c => { c with a := v, p := setNZ v c.p }

/-- PLA (R281). -/
def execPla (s : State) : Result := runSteps stepsPla s

/-- The own steps of PHP (R282): `SEQ_PUSH` of `group(Php)`. -/
def stepsPhp : List MicroStep := seqPush fun c => group .php c.p

/-- PHP (R282). -/
def execPhp (s : State) : Result := runSteps stepsPhp s

/-- The own steps of PLP (R283): `SEQ_PULL`, `ungroup`. -/
def stepsPlp : List MicroStep := seqPull fun v c => { c with p := ungroup v }

/-- PLP (R283). -/
def execPlp (s : State) : Result := runSteps stepsPlp s

/-- CLC (R284): `C <- false`. -/
def clcExec (c : Cpu) : Cpu := { c with p := { c.p with c := false } }

/-- The own steps of CLC (R284), `SEQ_IMP`. -/
def stepsClc : List MicroStep := seqImp clcExec

/-- CLC (R284). -/
def execClc (s : State) : Result := runSteps stepsClc s

/-- SEC (R285): `C <- true`. -/
def secExec (c : Cpu) : Cpu := { c with p := { c.p with c := true } }

/-- The own steps of SEC (R285), `SEQ_IMP`. -/
def stepsSec : List MicroStep := seqImp secExec

/-- SEC (R285). -/
def execSec (s : State) : Result := runSteps stepsSec s

/-- CLI (R286): `I <- false`. -/
def cliExec (c : Cpu) : Cpu := { c with p := { c.p with i := false } }

/-- The own steps of CLI (R286), `SEQ_IMP`. -/
def stepsCli : List MicroStep := seqImp cliExec

/-- CLI (R286). -/
def execCli (s : State) : Result := runSteps stepsCli s

/-- SEI (R287): `I <- true`. -/
def seiExec (c : Cpu) : Cpu := { c with p := { c.p with i := true } }

/-- The own steps of SEI (R287), `SEQ_IMP`. -/
def stepsSei : List MicroStep := seqImp seiExec

/-- SEI (R287). -/
def execSei (s : State) : Result := runSteps stepsSei s

/-- CLV (R288): `V <- false`. -/
def clvExec (c : Cpu) : Cpu := { c with p := { c.p with v := false } }

/-- The own steps of CLV (R288), `SEQ_IMP`. -/
def stepsClv : List MicroStep := seqImp clvExec

/-- CLV (R288). -/
def execClv (s : State) : Result := runSteps stepsClv s

/-- CLD (R289): `D <- false`. -/
def cldExec (c : Cpu) : Cpu := { c with p := { c.p with d := false } }

/-- The own steps of CLD (R289), `SEQ_IMP`. -/
def stepsCld : List MicroStep := seqImp cldExec

/-- CLD (R289). -/
def execCld (s : State) : Result := runSteps stepsCld s

/-- SED (R290): `D <- true`. -/
def sedExec (c : Cpu) : Cpu := { c with p := { c.p with d := true } }

/-- The own steps of SED (R290), `SEQ_IMP`. -/
def stepsSed : List MicroStep := seqImp sedExec

/-- SED (R290). -/
def execSed (s : State) : Result := runSteps stepsSed s

/-- NOP (R291): nothing. -/
def nopExec (c : Cpu) : Cpu := c

/-- The own steps of NOP (R291), `SEQ_IMP`. -/
def stepsNop : List MicroStep := seqImp nopExec

/-- NOP (R291). -/
def execNop (s : State) : Result := runSteps stepsNop s

/-- The own steps of BRK (R292): the shared interrupt sequence `SEQ_INT` (60_exceptions.md R350). -/
def stepsBrk : List MicroStep := seqInt

/-- BRK (R292). -/
def execBrk (s : State) : Result := runSteps stepsBrk s

/-- The own steps of RTI (R293): `SEQ_RTI`. -/
def stepsRti : List MicroStep := seqRti

/-- RTI (R293). -/
def execRti (s : State) : Result := runSteps stepsRti s

/-- The own steps of an illegal byte (40_sequencer.md R134): `SEQ_ILL`. -/
def stepsIll (b : Byte) : List MicroStep := seqIll b

/-- An illegal byte (30_encoding.md R104, 40_sequencer.md R134): `raise IllegalOpcode(byte)` on every path. -/
def execIll (b : Byte) (s : State) : Result := runSteps (stepsIll b) s

end Sys2Proof.Machine
end

