-- ==== Sys2Proof/Machine/Table.lean ====
section
/-! DEFINITION. The table `Seq` (30_encoding.md R103) and the tick-level machine: `CpuTick` (40_sequencer.md R130) and one
system step of the driver (00_scope.md R9). These are the spec's own steps; `step` of Machine/Step.lean runs them up to an
instruction boundary. -/

namespace Sys2Proof.Machine

/-- `Seq` by instruction, own steps; the terminal FETCH follows them (40_sequencer.md R133, R135). -/
def ownSteps (i : Instr) : List MicroStep :=
  match i with
  | .lda m => stepsLda m
  | .ldx m => stepsLdx m
  | .ldy m => stepsLdy m
  | .sta m => stepsSta m
  | .stx m => stepsStx m
  | .sty m => stepsSty m
  | .tax => stepsTax
  | .tay => stepsTay
  | .txa => stepsTxa
  | .tya => stepsTya
  | .tsx => stepsTsx
  | .txs => stepsTxs
  | .adc m => stepsAdc m
  | .sbc m => stepsSbc m
  | .and m => stepsAnd m
  | .ora m => stepsOra m
  | .eor m => stepsEor m
  | .cmp m => stepsCmp m
  | .cpx m => stepsCpx m
  | .cpy m => stepsCpy m
  | .bit m => stepsBit m
  | .asl m => stepsAsl m
  | .lsr m => stepsLsr m
  | .rol m => stepsRol m
  | .ror m => stepsRor m
  | .inc m => stepsInc m
  | .dec m => stepsDec m
  | .inx => stepsInx
  | .iny => stepsIny
  | .dex => stepsDex
  | .dey => stepsDey
  | .bpl => stepsBpl
  | .bmi => stepsBmi
  | .bvc => stepsBvc
  | .bvs => stepsBvs
  | .bcc => stepsBcc
  | .bcs => stepsBcs
  | .bne => stepsBne
  | .beq => stepsBeq
  | .jmp => stepsJmp
  | .jsr => stepsJsr
  | .rts => stepsRts
  | .pha => stepsPha
  | .pla => stepsPla
  | .php => stepsPhp
  | .plp => stepsPlp
  | .clc => stepsClc
  | .sec => stepsSec
  | .cli => stepsCli
  | .sei => stepsSei
  | .clv => stepsClv
  | .cld => stepsCld
  | .sed => stepsSed
  | .nop => stepsNop
  | .brk => stepsBrk
  | .rti => stepsRti
  | .ill b => stepsIll b

/-- The instruction the opcode in `ir` selects under this launch's `IMPLEMENTED` (30_encoding.md R103, R108). -/
def installed (s : State) : Instr := decodeIn s.rom.implemented s.cpu.ir

/-- The own step the cursor points at (10_state.md R28), or none where the next step is FETCH. -/
def currentStep (s : State) : Option MicroStep := (ownSteps (installed s))[s.cpu.cursor]?

/-- An instruction boundary: "a state in which the step at the cursor is FETCH" (00_scope.md R12). A cursor past the
sequence's end, which no run reaches, counts as one (log entry 21). -/
def atBoundary (s : State) : Bool := decide ((ownSteps (installed s)).length ≤ s.cpu.cursor)

/-- `CpuTick` (40_sequencer.md R130): nothing when halted; else the current step, whose fault sets `halted` and changes
nothing else (60_exceptions.md R341, R342); else the cursor moves on, or FETCH has set it. -/
def cpuTick (s : State) : State :=
  match s.halted with
  | some _ => s
  | none =>
    match currentStep s with
    | some m =>
      match perform (m s) s with
      | .ok (t, k) => advanceCursor k t
      | .error f => { s with halted := some f }
    | none =>
      match perform (fetchStep s) s with
      | .ok (t, _) => t
      | .error f => { s with halted := some f }

/-- One system step of the driver (00_scope.md R9): `PpuTick; PpuTick; PpuTick; CpuTick`. -/
def tick (s : State) : State := cpuTick (ppuShare s)

/-- `n` system steps. -/
def ticks : Nat → State → State
  | 0, s => s
  | n + 1, s => ticks n (tick s)

end Sys2Proof.Machine
end

