-- ==== Sys2Proof/Machine/Step.lean ====
section
/-! DEFINITION. One step of the machine: from an instruction boundary, the FETCH system step and then the whole instruction
it installed; from inside an instruction, the rest of that instruction. Log entry 1. -/

namespace Sys2Proof.Machine

/-- The machine up to its next instruction boundary (00_scope.md R12). At a boundary FETCH runs (40_sequencer.md R132) and
then the installed instruction's own steps (R133); a hardware interrupt entry is the forced opcode 0x00 (30_encoding.md
R105). A halted machine answers its fault (00_scope.md R10, 60_exceptions.md R343). -/
def step (s : State) : Host.Outcome State Fault Refusal :=
  match s.halted with
  | some f => .fault f
  | none =>
    if atBoundary s then
      match fetchCycle s with
      | .next t => exec (installed t) t
      | .fault f => .fault f
      | .refused r => .refused r
    else exec (installed s) s

/-- The state with the instruction whose bits are `w` where `step` fetches its next instruction, so that the very next
step fetches and runs exactly it: it stands for the loader's work (log entries 9 and 20). -/
def State.withFetchWord (s : State) (nbits w : Nat) : State :=
  placeAtPc (tableBytes nbits w) (readyToFetch s)

end Sys2Proof.Machine
end

