-- ==== Sys2Proof/Safety.lean ====
section
/-! DEFINITION. The terms the statements use: the machine's invariant, safe steps, reading a byte without a side effect,
the effective addresses and tick counts of the operand forms (30_encoding.md R101, 70_reset_and_hazards.md R390), and the
shapes of a completed instruction. -/

namespace Sys2Proof.Machine

/-! ## Words of the opcode table -/

/-- The word `w` of `nbits` bits, numbered as spec/opcode_table.json numbers it, decodes to `i` with these operand bytes
(30_encoding.md R101, R110). -/
abbrev WordDecodes (nbits w : Nat) (i : Instr) (operands : List Byte) : Prop :=
  decodeTableWord nbits w = some i ∧ (decode (tableBytes nbits w)).toOption.map Decoded.operands = some operands

/-! ## Invariant and safe steps -/

/-- A power of two, from 1 up (00_scope.md R4: `PRG_SIZE`, `CHR_SIZE`). -/
abbrev isPow2 (n : Nat) : Prop := n ≠ 0 ∧ n &&& (n - 1) = 0

/-- The launch parameters are admissible (00_scope.md R4, 30_encoding.md R108). -/
abbrev Rom.Inv (r : Rom) : Prop :=
  r.prg.wf ∧ r.chr.wf ∧ isPow2 r.prgSize ∧ r.prgSize ≤ Config.prgSizeMax ∧ isPow2 r.chrSize
    ∧ (∀ b ∈ Config.minImplemented, b ∈ r.implemented) ∧ ∀ b ∈ r.implemented, b ∈ defaultImplemented

/-- The PPU's ranges and canonical memories (10_state.md R32, R33, R38). -/
abbrev Ppu.Inv (p : Ppu) : Prop :=
  p.dot ≤ Config.lastDot ∧ p.scanline ≤ Config.lastScanline
    ∧ p.vram.wf ∧ cellsBelow Config.vramSize p.vram
    ∧ p.fb.wf ∧ cellsBelow (Config.frameHeight * Config.frameWidth) p.fb

/-- The invariant of the machine's state (10_state.md R28, R30, R32, R33, R38; 40_sequencer.md R135). -/
abbrev State.Inv (s : State) : Prop :=
  s.halted = none ∧ s.cpu.cursor ≤ (ownSteps (installed s)).length
    ∧ s.ram.wf ∧ cellsBelow Config.ramSize s.ram ∧ s.ppu.Inv ∧ s.rom.Inv

/-- A step that neither faults nor is refused. -/
def SafeStep (s : State) : Prop := ∃ t, step s = .next t

/-- `n` safe steps in a row: a run of `n` instructions with no fatal result (60_exceptions.md R340). -/
def SafeFor : Nat → State → Prop
  | 0, _ => True
  | n + 1, s => ∃ t, step s = .next t ∧ SafeFor n t

/-! ## Reading a byte without a side effect -/

/-- A bus address whose read has no side effect and cannot fault: RAM or PRG (20_memory.md R61, R71). -/
def plain (a : Word) : Bool := decide (a.toNat < 0x2000) || decide (0x8000 ≤ a.toNat)

/-- The byte a plain address reads as (20_memory.md R61). -/
def peek (s : State) (a : Word) : Byte :=
  if a.toNat < 0x2000 then cellRead s.ram (ramIndex a) else cellRead s.rom.prg (prgIndex s.rom a)

/-- A byte of the stack page: `RAM[0x100 + S]` (20_memory.md R72). -/
def stackByte (s : State) (sp : Byte) : Byte := cellRead s.ram (0x100 + sp.toNat)

/-- RAM with a byte of the stack page written. -/
def stackWrite (m : Memory) (sp v : Byte) : Memory := cellWrite m (0x100 + sp.toNat) v

/-! ## Operand bytes and effective addresses, from the state after FETCH -/

/-- The first operand byte, at `PC` (R100). -/
def operand1 (s : State) : Byte := peek s s.cpu.pc

/-- The second operand byte, at `PC + 1` (R100). -/
def operand2 (s : State) : Byte := peek s (s.cpu.pc + 1#16)

/-- `hh:ll` of an absolute form (R101). -/
def absOperand (s : State) : Word := cat (operand2 s) (operand1 s)

/-- `ptr = M[(nn+1) mod 256] : M[nn]` of the indirect-indexed form (R101). -/
def pointer (s : State) : Word :=
  cat (peek s (zeroPage (operand1 s + 1#8))) (peek s (zeroPage (operand1 s)))

/-- `(base + idx) mod 65536` (R101). -/
def indexed (base : Word) (idx : Byte) : Word := base + idx.setWidth 16

/-- A page crossing: a carry out of the low byte when an index is added (00_scope.md R12). -/
def crosses (base : Word) (idx : Byte) : Bool := decide (256 ≤ (lo8 base).toNat + idx.toNat)

/-- The address whose high byte is not yet corrected (40_sequencer.md R152, D36). -/
def uncorrected (base : Word) (idx : Byte) : Word := cat (hi8 base) (lo8 base + idx)

/-- The address of the operand byte of a class R form (R101). -/
def readEa (m : RMode) (s : State) : Word :=
  match m with
  | .imm => s.cpu.pc
  | .zp => zeroPage (operand1 s)
  | .zpx => zeroPage (operand1 s + s.cpu.x)
  | .zpy => zeroPage (operand1 s + s.cpu.y)
  | .abs => absOperand s
  | .abx => indexed (absOperand s) s.cpu.x
  | .aby => indexed (absOperand s) s.cpu.y
  | .izy => indexed (pointer s) s.cpu.y

/-- The addresses outside the zero page a class R form reads before its operand byte: operand bytes at `PC`, and the dummy
read of a page crossing (R142 to R155). -/
def readAddrs (m : RMode) (s : State) : List Word :=
  match m with
  | .imm => []
  | .zp | .zpx | .zpy => [s.cpu.pc]
  | .abs => [s.cpu.pc, s.cpu.pc + 1#16]
  | .abx => [s.cpu.pc, s.cpu.pc + 1#16] ++ if crosses (absOperand s) s.cpu.x then [uncorrected (absOperand s) s.cpu.x] else []
  | .aby => [s.cpu.pc, s.cpu.pc + 1#16] ++ if crosses (absOperand s) s.cpu.y then [uncorrected (absOperand s) s.cpu.y] else []
  | .izy => [s.cpu.pc] ++ if crosses (pointer s) s.cpu.y then [uncorrected (pointer s) s.cpu.y] else []

/-- CPU ticks of a class R form after its FETCH (R390 less one): one more on a page crossing of an indexed read. -/
def readTicks (m : RMode) (s : State) : Nat :=
  match m with
  | .imm => 1
  | .zp => 2
  | .zpx | .zpy | .abs => 3
  | .abx => if crosses (absOperand s) s.cpu.x then 4 else 3
  | .aby => if crosses (absOperand s) s.cpu.y then 4 else 3
  | .izy => if crosses (pointer s) s.cpu.y then 5 else 4

/-- The address a class W form stores to (R101). -/
def writeEa (m : WMode) (s : State) : Word :=
  match m with
  | .zp => zeroPage (operand1 s)
  | .zpx => zeroPage (operand1 s + s.cpu.x)
  | .zpy => zeroPage (operand1 s + s.cpu.y)
  | .abs => absOperand s
  | .abx => indexed (absOperand s) s.cpu.x
  | .aby => indexed (absOperand s) s.cpu.y
  | .izy => indexed (pointer s) s.cpu.y

/-- The addresses outside the zero page a class W form reads: operand bytes at `PC`, and the dummy read every indexed store
makes (R153, R156). -/
def writeAddrs (m : WMode) (s : State) : List Word :=
  match m with
  | .zp | .zpx | .zpy => [s.cpu.pc]
  | .abs => [s.cpu.pc, s.cpu.pc + 1#16]
  | .abx => [s.cpu.pc, s.cpu.pc + 1#16, uncorrected (absOperand s) s.cpu.x]
  | .aby => [s.cpu.pc, s.cpu.pc + 1#16, uncorrected (absOperand s) s.cpu.y]
  | .izy => [s.cpu.pc, uncorrected (pointer s) s.cpu.y]

/-- The address of the dummy read that an indexed store makes one tick before its write (R153, R156); no other class W form
makes one outside the zero page. -/
def storeDummy (m : WMode) (s : State) : Option Word :=
  match m with
  | .abx => some (uncorrected (absOperand s) s.cpu.x)
  | .aby => some (uncorrected (absOperand s) s.cpu.y)
  | .izy => some (uncorrected (pointer s) s.cpu.y)
  | .zp | .zpx | .zpy | .abs => none

/-- CPU ticks of a class W form after its FETCH (R390 less one). -/
def writeTicks : WMode → Nat
  | .zp => 2
  | .zpx | .zpy | .abs => 3
  | .abx | .aby => 4
  | .izy => 5

/-- The address a class M memory form reads and writes (R101); the accumulator form has none. -/
def modifyEa (m : MMode) (s : State) : Word :=
  match m with
  | .acc => s.cpu.pc
  | .zp => zeroPage (operand1 s)
  | .zpx => zeroPage (operand1 s + s.cpu.x)
  | .abs => absOperand s
  | .abx => indexed (absOperand s) s.cpu.x

/-- The addresses outside the zero page a class M memory form reads before its operand byte (R145, R148, R151, R154). -/
def modifyAddrs (m : MMode) (s : State) : List Word :=
  match m with
  | .acc => []
  | .zp | .zpx => [s.cpu.pc]
  | .abs => [s.cpu.pc, s.cpu.pc + 1#16]
  | .abx => [s.cpu.pc, s.cpu.pc + 1#16, uncorrected (absOperand s) s.cpu.x]

/-- CPU ticks of a class M memory form after its FETCH up to and with the read of the operand byte (R145 to R154): the two
writes follow, one tick each. -/
def modifyTicks : MMode → Nat
  | .acc => 0
  | .zp => 2
  | .zpx | .abs => 3
  | .abx => 4

/-! ## The state after FETCH, and the shapes of a completed instruction -/

/-- The state in which a FETCH leaves the machine for the instruction it installed: not halted, `cursor = 0` (R132). -/
def Fetched (s : State) : Prop := s.halted = none ∧ s.cpu.cursor = 0

/-- The CPU after an instruction has moved past `n` operand bytes and its own steps, `l` being what it left in the latch. -/
def Cpu.done (c : Cpu) (i : Instr) (n : Nat) (l : Latch) : Cpu :=
  { c with pc := c.pc + BitVec.ofNat 16 n, latch := l, cursor := (ownSteps i).length }

/-- The machine's state after `n` system steps of PPU work with nothing else done: `3 n` PPU ticks (R9). -/
def afterPpu (n : Nat) (s : State) : State := ppuTicks (3 * n) s

/-- `i` is a class R instruction whose operand byte `v` changes the CPU by `effect`, in every form the spec gives it: where
the reads before the operand byte are plain and the operand byte is readable, `exec` answers the state with `effect` done,
`PC` past the operand bytes and the PPU `3` ticks on for each CPU tick; nothing else differs from what the operand read
left. -/
def ReadCompletes (i : RMode → Instr) (effect : Byte → Cpu → Cpu) : Prop :=
  ∀ (m : RMode) (s t : State) (v : Byte), wellFormed (i m) = true → Fetched s → (∀ a ∈ readAddrs m s, plain a = true) →
    busRead (readEa m s) (afterPpu (readTicks m s) s) = .ok (v, t) →
    ∃ l : Latch, exec (i m) s = .next { t with cpu := (effect v s.cpu).done (i m) (i m).operandBytes l }

/-- `i` is a class W instruction that stores `value`, in every form: where its reads are plain and the bus takes the write,
`exec` answers what the write left, with no register or flag changed. -/
def WriteCompletes (i : WMode → Instr) (value : Cpu → Byte) : Prop :=
  ∀ (m : WMode) (s t : State), wellFormed (i m) = true → Fetched s → (∀ a ∈ writeAddrs m s, plain a = true) →
    busWrite (writeEa m s) (value s.cpu) (afterPpu (writeTicks m) s) = .ok t →
    ∃ l : Latch, exec (i m) s = .next { t with cpu := s.cpu.done (i m) (i m).operandBytes l }

/-- `i` is a class M instruction in its memory forms: the byte `v` is read, written back unmodified one tick later, and the
new byte one tick after that (R145); the flags are those of `modify`. -/
def ModifyCompletes (i : MMode → Instr) (modify : Byte → Flags → Byte × Flags) : Prop :=
  ∀ (m : MMode) (s t₁ t₂ t₃ : State) (v : Byte), wellFormed (i m) = true → m ≠ .acc → Fetched s →
    (∀ a ∈ modifyAddrs m s, plain a = true) →
    busRead (modifyEa m s) (afterPpu (modifyTicks m) s) = .ok (v, t₁) →
    busWrite (modifyEa m s) v (afterPpu 1 t₁) = .ok t₂ →
    busWrite (modifyEa m s) (modify v s.cpu.p).1 (afterPpu 1 t₂) = .ok t₃ →
    ∃ l : Latch, exec (i m) s = .next
      { t₃ with cpu := { s.cpu with p := (modify v s.cpu.p).2 }.done (i m) (i m).operandBytes l }

/-- `i` is a one-byte instruction of `SEQ_IMP` or `SEQ_ACC` (R140, R141): its dummy read at `PC`, then `effect`; `PC` and
the latch unchanged. -/
def ImpliedCompletes (i : Instr) (effect : Cpu → Cpu) : Prop :=
  ∀ (s t : State) (v : Byte), Fetched s → busRead s.cpu.pc (afterPpu 1 s) = .ok (v, t) →
    exec i s = .next { t with cpu := (effect s.cpu).done i 0 s.cpu.latch }

/-- The address an interrupt entry saves (60_exceptions.md R350 T1): past the break's second byte for a software break,
`PC` for NMI, IRQ and Reset. -/
def entryReturn (q : Pending) (pc : Word) : Word :=
  match q with
  | .none => pc + 1#16
  | .nmi | .reset | .irq => pc

/-- RAM after one push of an interrupt entry whose pending value is `q` (R350): "During Reset, the pushes are modeled as
reads (no stack write)". -/
def entryStore (q : Pending) (m : Memory) (sp v : Byte) : Memory :=
  match q with
  | .reset => m
  | .none | .nmi | .irq => stackWrite m sp v

/-- RAM after the three pushes of an interrupt entry, `q2`, `q3`, `q4` the pending values at T2, T3, T4 (R350, R352). -/
def entryRam (m : Memory) (sp : Byte) (ret : Word) (p : Flags) (q2 q3 q4 : Pending) : Memory :=
  entryStore q4 (entryStore q3 (entryStore q2 m sp (hi8 ret)) (sp - 1#8) (lo8 ret)) (sp - 2#8) (group (entryContext q4) p)

/-- The state an interrupt entry leaves, `q n` being the pending value at its step T`n` (R350, R352). -/
def entered (s : State) (q : Nat → Pending) : State :=
  { afterPpu 6 s with
    pending := .none,
    ram := entryRam s.ram s.cpu.s (entryReturn (q 1) s.cpu.pc) s.cpu.p (q 2) (q 3) (q 4),
    cpu := { s.cpu with
      s := s.cpu.s - 3#8, pc := cat (peek s (vector (q 6) + 1#16)) (peek s (vector (q 5))),
      p := { s.cpu.p with i := true }, cursor := 6 } }

/-- RAM after `JSR`'s two pushes (44_branch_jump.md R270): the address of its third byte, high byte first. -/
def callRam (s : State) : Memory :=
  stackWrite (stackWrite s.ram s.cpu.s (hi8 (s.cpu.pc + 1#16))) (s.cpu.s - 1#8) (lo8 (s.cpu.pc + 1#16))

/-- The address `RTS` pulls (R271). -/
def returnAddr (s : State) : Word := cat (stackByte s (s.cpu.s + 2#8)) (stackByte s (s.cpu.s + 1#8))

/-- The address of the instruction after a branch whose FETCH has run. -/
def branchNext (s : State) : Word := s.cpu.pc + 1#16

/-- The target of a branch (30_encoding.md R101): `(PC_next + sext_16(dd)) mod 65536`. -/
def branchGoal (s : State) : Word := branchNext s + sext16 (operand1 s)

/-- The addresses a branch reads (44_branch_jump.md R260): its offset byte, and when taken the byte after it, and on a page
crossing the byte at the old `PCH` with the new `PCL`. -/
def branchReads (s : State) (taken : Bool) : List Word :=
  s.cpu.pc ::
    if taken then
      branchNext s :: if hi8 (branchGoal s) = hi8 (branchNext s) then [] else [cat (hi8 (branchNext s)) (lo8 (branchGoal s))]
    else []

/-- CPU ticks of a branch after its FETCH (44_branch_jump.md R272 less one). -/
def branchTicks (s : State) (taken : Bool) : Nat :=
  if taken then if hi8 (branchGoal s) = hi8 (branchNext s) then 2 else 3 else 1

/-- `i` is the branch taken under `cond`: `PC` the target or the next instruction, the base cycles, one more when taken, two
more on a page crossing; no register, flag or memory byte changed. -/
def BranchCompletes (i : Instr) (cond : Flags → Bool) : Prop :=
  ∀ s : State, Fetched s → (∀ a ∈ branchReads s (cond s.cpu.p), plain a = true) →
    ∃ l : Latch, exec i s = .next { afterPpu (branchTicks s (cond s.cpu.p)) s with
      cpu := { s.cpu with pc := if cond s.cpu.p then branchGoal s else branchNext s, latch := l, cursor := 3 } }

/-! ## The hooks of the instruction rules, in integers -/

/-- `N <- v[7]; Z <- (v == 0)` (40_sequencer.md R136). -/
def nzFlags (v : Byte) (p : Flags) : Flags := { p with n := decide (128 ≤ v.toNat), z := decide (v.toNat = 0) }

/-- A signed sum or difference that a byte cannot hold. -/
def outOfByte (z : Int) : Bool := decide (z < -128 ∨ 127 < z)

/-- ADC (42_arith_logic.md R221): the 9-bit sum, its carry, the signed overflow, `N` and `Z` of the result. -/
def adcSpec (v : Byte) (c : Cpu) : Cpu :=
  let sum := c.a.toNat + v.toNat + c.p.c.toNat
  { c with
    a := BitVec.ofNat 8 sum,
    p := nzFlags (BitVec.ofNat 8 sum)
      { c.p with c := decide (256 ≤ sum), v := outOfByte (c.a.toInt + v.toInt + c.p.c.toNat) } }

/-- SBC (R222): `A - v - (1 - C)`, `C` the absence of a borrow, `V` the signed overflow of the subtraction. -/
def sbcSpec (v : Byte) (c : Cpu) : Cpu :=
  let borrow : Int := if c.p.c then 0 else 1
  let diff : Int := c.a.toNat - v.toNat - borrow
  { c with
    a := BitVec.ofInt 8 diff,
    p := nzFlags (BitVec.ofInt 8 diff)
      { c.p with c := decide (0 ≤ diff), v := outOfByte (c.a.toInt - v.toInt - borrow) } }

/-- `COMPARE(reg, v)` (R226): `C` the unsigned comparison, `Z` equality, `N` bit 7 of the wrapped difference. -/
def compareSpec (reg v : Byte) (p : Flags) : Flags :=
  { p with
    c := decide (v.toNat ≤ reg.toNat), z := decide (reg = v),
    n := decide (128 ≤ (reg.toNat + 256 - v.toNat) % 256) }

/-- ASL (43_shift_incdec.md R240). -/
def aslSpec (v : Byte) (p : Flags) : Byte × Flags :=
  let r := BitVec.ofNat 8 (2 * v.toNat)
  (r, nzFlags r { p with c := decide (128 ≤ v.toNat) })

/-- LSR (R241). -/
def lsrSpec (v : Byte) (p : Flags) : Byte × Flags :=
  let r := BitVec.ofNat 8 (v.toNat / 2)
  (r, nzFlags r { p with c := decide (v.toNat % 2 = 1) })

/-- ROL (R242). -/
def rolSpec (v : Byte) (p : Flags) : Byte × Flags :=
  let r := BitVec.ofNat 8 (2 * v.toNat + p.c.toNat)
  (r, nzFlags r { p with c := decide (128 ≤ v.toNat) })

/-- ROR (R243). -/
def rorSpec (v : Byte) (p : Flags) : Byte × Flags :=
  let r := BitVec.ofNat 8 (v.toNat / 2 + 128 * p.c.toNat)
  (r, nzFlags r { p with c := decide (v.toNat % 2 = 1) })

/-- INC (R244). -/
def incSpec (v : Byte) (p : Flags) : Byte × Flags :=
  let r := BitVec.ofNat 8 (v.toNat + 1)
  (r, nzFlags r p)

/-- DEC (R245). -/
def decSpec (v : Byte) (p : Flags) : Byte × Flags :=
  let r := BitVec.ofNat 8 (v.toNat + 255)
  (r, nzFlags r p)

/-- The accumulator form of a shift (40_sequencer.md R141): `A <- modify(A)`. -/
def onA (modify : Byte → Flags → Byte × Flags) (c : Cpu) : Cpu :=
  { c with a := (modify c.a c.p).1, p := (modify c.a c.p).2 }

/-! ## Who writes what (10_state.md R46, and the instruction rules) -/

/-- The instructions whose row of R46 writes `N`; the same row writes `Z`. -/
def writesNZ : Instr → Bool
  | .lda _ | .ldx _ | .ldy _ | .tax | .tay | .txa | .tya | .tsx | .pla | .and _ | .ora _ | .eor _ | .adc _ | .sbc _
  | .asl _ | .lsr _ | .rol _ | .ror _ | .inc _ | .dec _ | .inx | .iny | .dex | .dey
  | .cmp _ | .cpx _ | .cpy _ | .bit _ | .plp | .rti => true
  | _ => false

/-- The `V` row of R46. -/
def writesV : Instr → Bool
  | .adc _ | .sbc _ | .bit _ | .clv | .plp | .rti => true
  | _ => false

/-- The `B` row of R46. -/
def writesB : Instr → Bool
  | .plp | .rti => true
  | _ => false

/-- The `D` row of R46. -/
def writesD : Instr → Bool
  | .sed | .cld | .plp | .rti => true
  | _ => false

/-- The `I` row of R46; the interrupt sequence is BRK's. -/
def writesI : Instr → Bool
  | .sei | .cli | .plp | .rti | .brk => true
  | _ => false

/-- The `C` row of R46. -/
def writesC : Instr → Bool
  | .adc _ | .sbc _ | .cmp _ | .cpx _ | .cpy _ | .asl _ | .lsr _ | .rol _ | .ror _ | .sec | .clc | .plp | .rti => true
  | _ => false

/-- The instructions whose rule writes `A`. -/
def writesA : Instr → Bool
  | .lda _ | .txa | .tya | .adc _ | .sbc _ | .and _ | .ora _ | .eor _ | .pla
  | .asl .acc | .lsr .acc | .rol .acc | .ror .acc => true
  | _ => false

/-- The instructions whose rule writes `X`. -/
def writesX : Instr → Bool
  | .ldx _ | .tax | .tsx | .inx | .dex => true
  | _ => false

/-- The instructions whose rule writes `Y`. -/
def writesY : Instr → Bool
  | .ldy _ | .tay | .iny | .dey => true
  | _ => false

/-- The instructions whose rule writes `S` (10_state.md R21). -/
def writesS : Instr → Bool
  | .txs | .pha | .php | .pla | .plp | .jsr | .rts | .brk | .rti => true
  | _ => false

/-- The instructions with a writing step (40_sequencer.md R157): stores, the memory forms of class M, pushes, JSR, BRK. -/
def stores : Instr → Bool
  | .sta _ | .stx _ | .sty _ => true
  | .asl m | .lsr m | .rol m | .ror m => m != .acc
  | .inc _ | .dec _ | .pha | .php | .jsr | .brk => true
  | _ => false

/-! ## Bus patterns (40_sequencer.md R157) -/

/-- What a step does on the bus. -/
inductive BusKind where
  | read | write | nothing
deriving DecidableEq, Repr

/-- What an access does on the bus. -/
def Access.kind : Access → BusKind
  | .read _ _ => .read
  | .write _ _ _ => .write
  | .raise _ => .nothing

/-- The bus pattern column of R157, the terminal FETCH left out, operand fetches and dummy reads being reads: by format for
the classes, by mnemonic for the rest. "writes become reads during Reset". -/
def busPattern (i : Instr) (q : Pending) : List BusKind :=
  let r := BusKind.read
  let w := BusKind.write
  let entry := if q = .reset then r else w
  match i with
  | .ill _ => [.nothing]
  | .lda m | .ldx m | .ldy m | .adc m | .sbc m | .and m | .ora m | .eor m | .cmp m | .cpx m | .cpy m | .bit m =>
    match m with
    | .imm => [r]
    | .zp => [r, r]
    | .zpx | .zpy | .abs => [r, r, r]
    | .abx | .aby => [r, r, r, r]
    | .izy => [r, r, r, r, r]
  | .sta m | .stx m | .sty m =>
    match m with
    | .zp => [r, w]
    | .zpx | .zpy | .abs => [r, r, w]
    | .abx | .aby => [r, r, r, w]
    | .izy => [r, r, r, r, w]
  | .asl m | .lsr m | .rol m | .ror m | .inc m | .dec m =>
    match m with
    | .acc => [r]
    | .zp => [r, r, w, w]
    | .zpx | .abs => [r, r, r, w, w]
    | .abx => [r, r, r, r, w, w]
  | .bpl | .bmi | .bvc | .bvs | .bcc | .bcs | .bne | .beq => [r, r, r]
  | .jmp => [r, r]
  | .jsr => [r, r, w, w, r]
  | .rts | .rti => [r, r, r, r, r]
  | .pha | .php => [r, w]
  | .pla | .plp => [r, r, r]
  | .brk => [r, entry, entry, entry, r, r]
  | _ => [r]

/-! ## Runs and comparisons the statements use -/

/-- `n` PHA instructions in a row, each from its state after FETCH. -/
def pushRun : Nat → State → Result
  | 0, s => .next s
  | n + 1, s =>
    match exec .pha (s.onCpu fun c => { c with cursor := 0 }) with
    | .next t => pushRun n t
    | .fault f => .fault f
    | .refused r => .refused r

/-- The state with the stored `B` replaced (10_state.md R25). -/
def State.withB (b : Bool) (s : State) : State := { s with cpu := { s.cpu with p := { s.cpu.p with b := b } } }

/-- The position of the PPU in its frame: the number of ticks since (0, 0) (48_ppu.md R306). -/
def Ppu.position (p : Ppu) : Nat := p.scanline * 341 + p.dot

/-- The ticks of a frame (R306): 341 dots by 262 scanlines. -/
def frameTicks : Nat := 341 * 262

/-- The address resolves to no device for a read (20_memory.md R67). -/
def unmappedRead (a : Word) : Prop := 0x4018 ≤ a.toNat ∧ a.toNat < 0x8000

/-- The address resolves to no device for a write, or is in the PRG window (R62, R67). -/
def unmappedWrite (a : Word) : Prop := 0x4018 ≤ a.toNat

/-- The state with the opcode byte `b` fetched and installed: what an uninterrupted FETCH leaves (40_sequencer.md R132). -/
def fetched (b : Byte) (s : State) : State :=
  { s with cpu := { s.cpu with pc := s.cpu.pc + 1#16, ir := b, cursor := 0 } }

/-- The state with the forced byte 0x00 installed and `PC` kept: what a FETCH that finds `pending` leaves (R132). -/
def fetchedInterrupt (s : State) : State := { s with cpu := { s.cpu with ir := 0x00#8, cursor := 0 } }

end Sys2Proof.Machine
end

