-- ==== Sys2Proof/Certificates/Slice0/Obligations.lean ====
section
/-! DEFINITION. The statements for the provers. Each says which rules of spec/ it formalises; OBLIGATIONS.json lists them.
Most rules of spec/ rest on decisions the spec marks as its own (D1 to D40 of 92_eei_decisions.md; log entry 14): a statement
about such a rule has basis 'derived', and so has one that rests on an entry of the model's own log, which it names. -/

open Sys2Proof Sys2Proof.Machine

/-! ## Encoding -/

/-- Decoding an encoded well-formed instruction gives it back, with every operand byte and whatever bytes follow
(30_encoding.md R100, R101, R103, R110). -/
def Obligations.DecodeOfEncodeIsTheInstruction : Prop :=
  ∀ (i : Instr) (operands rest : List Byte), wellFormed i = true → operands.length = i.operandBytes →
    decode (encode i operands ++ rest) = .ok { instr := i, operands := operands, rest := rest }

/-- Every byte decodes to a well-formed instruction, the one whose own rule gives it that byte: 142 with a sequence and 114
illegal, no byte with two meanings (R103, R104). -/
def Obligations.EveryByteIsTheOpcodeOfWhatItDecodesTo : Prop :=
  ∀ b : Byte, wellFormed (decodeOpcode b) = true ∧ opcodeOf (decodeOpcode b) = some b ∧
    (decodeOpcode b = .ill b ↔ b ∈ illegalBytes)

/-- Words written out from the table of R103, one of each operand form of each class and one of each other sequence, decode
to their instructions and to their operand bytes, which are the bits above the opcode, eight bits a byte, in memory order
(R101, R103, R104, R110). -/
def Obligations.TableWordsDecode : Prop :=
  WordDecodes 16 0x5AA9 (.lda .imm) [0x5A#8] ∧ WordDecodes 16 0x1005 (.ora .zp) [0x10#8] ∧
  WordDecodes 16 0x8075 (.adc .zpx) [0x80#8] ∧ WordDecodes 16 0x10B6 (.ldx .zpy) [0x10#8] ∧
  WordDecodes 24 0x1234CD (.cmp .abs) [0x34#8, 0x12#8] ∧ WordDecodes 24 0x02FF5D (.eor .abx) [0xFF#8, 0x02#8] ∧
  WordDecodes 24 0x9000F9 (.sbc .aby) [0x00#8, 0x90#8] ∧ WordDecodes 16 0x40B1 (.lda .izy) [0x40#8] ∧
  WordDecodes 16 0x1086 (.stx .zp) [0x10#8] ∧ WordDecodes 16 0xFF94 (.sty .zpx) [0xFF#8] ∧
  WordDecodes 16 0x2096 (.stx .zpy) [0x20#8] ∧ WordDecodes 24 0x02008D (.sta .abs) [0x00#8, 0x02#8] ∧
  WordDecodes 24 0x20009D (.sta .abx) [0x00#8, 0x20#8] ∧ WordDecodes 24 0x03FF99 (.sta .aby) [0xFF#8, 0x03#8] ∧
  WordDecodes 16 0x4091 (.sta .izy) [0x40#8] ∧ WordDecodes 8 0x0A (.asl .acc) [] ∧
  WordDecodes 16 0x10E6 (.inc .zp) [0x10#8] ∧ WordDecodes 16 0x80D6 (.dec .zpx) [0x80#8] ∧
  WordDecodes 24 0x03002E (.rol .abs) [0x00#8, 0x03#8] ∧ WordDecodes 24 0x01FF7E (.ror .abx) [0xFF#8, 0x01#8] ∧
  WordDecodes 8 0xEA .nop [] ∧ WordDecodes 8 0x48 .pha [] ∧
  WordDecodes 8 0x68 .pla [] ∧ WordDecodes 8 0x60 .rts [] ∧
  WordDecodes 8 0x40 .rti [] ∧ WordDecodes 8 0x00 .brk [] ∧
  WordDecodes 16 0x02F0 .beq [0x02#8] ∧ WordDecodes 24 0x80004C .jmp [0x00#8, 0x80#8] ∧
  WordDecodes 24 0x900020 .jsr [0x00#8, 0x90#8] ∧ WordDecodes 8 0x02 (.ill 0x02#8) []

/-! ## Loads, stores, arithmetic and logic: what a completed instruction does -/

/-- LDA, LDX and LDY complete in every form: the register is the operand byte, `N` and `Z` follow it, nothing else of the
CPU changes but `PC` and the latch (41_load_store_transfer.md R200, R201, R202). -/
def Obligations.LoadsComplete : Prop :=
  ReadCompletes .lda (fun v c => { c with a := v, p := nzFlags v c.p }) ∧
  ReadCompletes .ldx (fun v c => { c with x := v, p := nzFlags v c.p }) ∧
  ReadCompletes .ldy (fun v c => { c with y := v, p := nzFlags v c.p })

/-- AND, ORA and EOR complete in every form: `A` is the bitwise result, `N` and `Z` follow it, `C` and `V` are unchanged
(42_arith_logic.md R223, R224, R225). -/
def Obligations.LogicCompletes : Prop :=
  ReadCompletes .and (fun v c => { c with a := c.a &&& v, p := nzFlags (c.a &&& v) c.p }) ∧
  ReadCompletes .ora (fun v c => { c with a := c.a ||| v, p := nzFlags (c.a ||| v) c.p }) ∧
  ReadCompletes .eor (fun v c => { c with a := c.a ^^^ v, p := nzFlags (c.a ^^^ v) c.p })

/-- ADC and SBC complete in every form, `A` and the flags being those of integer arithmetic: the 9-bit sum, its carry, the
signed overflow, and for SBC the difference less the borrow. `D` plays no part (R221, R222). -/
def Obligations.AddAndSubtractComplete : Prop := ReadCompletes .adc adcSpec ∧ ReadCompletes .sbc sbcSpec

/-- CMP, CPX, CPY and BIT complete in every form and change no register (R226 to R230). -/
def Obligations.ComparesAndBitTestComplete : Prop :=
  ReadCompletes .cmp (fun v c => { c with p := compareSpec c.a v c.p }) ∧
  ReadCompletes .cpx (fun v c => { c with p := compareSpec c.x v c.p }) ∧
  ReadCompletes .cpy (fun v c => { c with p := compareSpec c.y v c.p }) ∧
  ReadCompletes .bit (fun v c => { c with p := { c.p with
    z := decide (c.a &&& v = 0x00#8), n := decide (128 ≤ v.toNat), v := decide (64 ≤ v.toNat % 128) } })

/-- STA, STX and STY complete in every form: the bus takes the register's byte at the effective address, and no register or
flag changes (41_load_store_transfer.md R203, R204, R205). -/
def Obligations.StoresComplete : Prop :=
  WriteCompletes .sta (fun c => c.a) ∧ WriteCompletes .stx (fun c => c.x) ∧ WriteCompletes .sty (fun c => c.y)

/-- The shifts, INC and DEC complete in every memory form: the operand is read, written back unmodified, then written with
the new byte, on three consecutive ticks, and the flags are those of the rule (43_shift_incdec.md R240 to R245, 40_sequencer.md
R145). -/
def Obligations.MemoryModifiesComplete : Prop :=
  ModifyCompletes .asl aslSpec ∧ ModifyCompletes .lsr lsrSpec ∧ ModifyCompletes .rol rolSpec ∧
  ModifyCompletes .ror rorSpec ∧ ModifyCompletes .inc incSpec ∧ ModifyCompletes .dec decSpec

/-- The accumulator forms of the shifts complete (R141, R240 to R243). -/
def Obligations.AccumulatorShiftsComplete : Prop :=
  ImpliedCompletes (.asl .acc) (onA aslSpec) ∧ ImpliedCompletes (.lsr .acc) (onA lsrSpec) ∧
  ImpliedCompletes (.rol .acc) (onA rolSpec) ∧ ImpliedCompletes (.ror .acc) (onA rorSpec)

/-- The transfers and the register increments and decrements complete: `N` and `Z` follow the new value, but for TXS, which
sets no flag (41_load_store_transfer.md R206 to R211, 43_shift_incdec.md R246 to R249). -/
def Obligations.TransfersAndCountsComplete : Prop :=
  ImpliedCompletes .tax (fun c => { c with x := c.a, p := nzFlags c.a c.p }) ∧
  ImpliedCompletes .tay (fun c => { c with y := c.a, p := nzFlags c.a c.p }) ∧
  ImpliedCompletes .txa (fun c => { c with a := c.x, p := nzFlags c.x c.p }) ∧
  ImpliedCompletes .tya (fun c => { c with a := c.y, p := nzFlags c.y c.p }) ∧
  ImpliedCompletes .tsx (fun c => { c with x := c.s, p := nzFlags c.s c.p }) ∧
  ImpliedCompletes .txs (fun c => { c with s := c.x }) ∧
  ImpliedCompletes .inx (fun c =>
    { c with x := BitVec.ofNat 8 (c.x.toNat + 1), p := nzFlags (BitVec.ofNat 8 (c.x.toNat + 1)) c.p }) ∧
  ImpliedCompletes .iny (fun c =>
    { c with y := BitVec.ofNat 8 (c.y.toNat + 1), p := nzFlags (BitVec.ofNat 8 (c.y.toNat + 1)) c.p }) ∧
  ImpliedCompletes .dex (fun c =>
    { c with x := BitVec.ofNat 8 (c.x.toNat + 255), p := nzFlags (BitVec.ofNat 8 (c.x.toNat + 255)) c.p }) ∧
  ImpliedCompletes .dey (fun c =>
    { c with y := BitVec.ofNat 8 (c.y.toNat + 255), p := nzFlags (BitVec.ofNat 8 (c.y.toNat + 255)) c.p })

/-- The seven flag instructions complete and write exactly one flag, and NOP completes and writes nothing
(45_stack_flag_system.md R284 to R291). -/
def Obligations.FlagInstructionsAndNopComplete : Prop :=
  ImpliedCompletes .clc (fun c => { c with p := { c.p with c := false } }) ∧
  ImpliedCompletes .sec (fun c => { c with p := { c.p with c := true } }) ∧
  ImpliedCompletes .cli (fun c => { c with p := { c.p with i := false } }) ∧
  ImpliedCompletes .sei (fun c => { c with p := { c.p with i := true } }) ∧
  ImpliedCompletes .clv (fun c => { c with p := { c.p with v := false } }) ∧
  ImpliedCompletes .cld (fun c => { c with p := { c.p with d := false } }) ∧
  ImpliedCompletes .sed (fun c => { c with p := { c.p with d := true } }) ∧
  ImpliedCompletes .nop (fun c => c)

/-- The eight branches complete, each on its own condition: to the target or past the offset, with the base cycles, one more
when taken, two more when the page changes; nothing but `PC` and the latch changes (44_branch_jump.md R260 to R268, R272). -/
def Obligations.BranchesComplete : Prop :=
  BranchCompletes .bpl (fun p => !p.n) ∧ BranchCompletes .bmi (fun p => p.n) ∧
  BranchCompletes .bvc (fun p => !p.v) ∧ BranchCompletes .bvs (fun p => p.v) ∧
  BranchCompletes .bcc (fun p => !p.c) ∧ BranchCompletes .bcs (fun p => p.c) ∧
  BranchCompletes .bne (fun p => !p.z) ∧ BranchCompletes .beq (fun p => p.z)

/-- JMP completes: `PC` is the operand address, low byte first, two ticks after FETCH (R269). -/
def Obligations.JumpCompletes : Prop :=
  ∀ s : State, Fetched s → plain s.cpu.pc = true → plain (s.cpu.pc + 1#16) = true →
    ∃ l : Latch, exec .jmp s = .next { afterPpu 2 s with
      cpu := { s.cpu with pc := absOperand s, latch := l, cursor := 2 } }

/-- JSR completes: the address of its third byte is pushed, high byte first, `S` is two less, and `PC` is the operand
address, whose high byte is read after the pushes (R270). -/
def Obligations.CallCompletes : Prop :=
  ∀ s : State, Fetched s → plain s.cpu.pc = true → plain (s.cpu.pc + 1#16) = true →
    ∃ l : Latch, exec .jsr s = .next { afterPpu 5 s with
      ram := callRam s,
      cpu := { s.cpu with
        s := s.cpu.s - 2#8, pc := cat (peek { s with ram := callRam s } (s.cpu.pc + 1#16)) (operand1 s),
        latch := l, cursor := 5 } }

/-- RTS completes: `PC` is the address pulled, low byte first, plus one; `S` is two more (R271). -/
def Obligations.ReturnCompletes : Prop :=
  ∀ (s t : State) (v : Byte), Fetched s → plain s.cpu.pc = true → busRead (returnAddr s) (afterPpu 5 s) = .ok (v, t) →
    exec .rts s = .next { t with
      cpu := { s.cpu with s := s.cpu.s + 2#8, pc := returnAddr s + 1#16, cursor := 5 } }

/-- PHA, PHP, PLA and PLP complete. A push leaves `A`, or the status byte with bits 5 and 4 set, at the old top of the stack
and `S` one less, no flag changed; a pull leaves `S` one more and the byte there in `A` with `N` and `Z`, or in the seven flags
(45_stack_flag_system.md R280 to R283; 10_state.md R24). -/
def Obligations.StackInstructionsComplete : Prop :=
  ∀ s : State, Fetched s → plain s.cpu.pc = true →
    exec .pha s = .next { afterPpu 2 s with
      ram := stackWrite s.ram s.cpu.s s.cpu.a, cpu := { s.cpu with s := s.cpu.s - 1#8, cursor := 2 } } ∧
    exec .php s = .next { afterPpu 2 s with
      ram := stackWrite s.ram s.cpu.s (group .hardware s.cpu.p ||| 0x10#8),
      cpu := { s.cpu with s := s.cpu.s - 1#8, cursor := 2 } } ∧
    exec .pla s = .next { afterPpu 3 s with
      cpu := { s.cpu with
        s := s.cpu.s + 1#8, a := stackByte s (s.cpu.s + 1#8), p := nzFlags (stackByte s (s.cpu.s + 1#8)) s.cpu.p,
        cursor := 3 } } ∧
    exec .plp s = .next { afterPpu 3 s with
      cpu := { s.cpu with s := s.cpu.s + 1#8, p := ungroup (stackByte s (s.cpu.s + 1#8)), cursor := 3 } }

/-- RTI completes: the seven flags, then `PCL`, then `PCH` are pulled, with no plus one; `S` is three more (R293). -/
def Obligations.ReturnFromInterruptCompletes : Prop :=
  ∀ s : State, Fetched s → plain s.cpu.pc = true →
    exec .rti s = .next { afterPpu 5 s with
      cpu := { s.cpu with
        s := s.cpu.s + 3#8, p := ungroup (stackByte s (s.cpu.s + 1#8)),
        pc := cat (stackByte s (s.cpu.s + 3#8)) (stackByte s (s.cpu.s + 2#8)), cursor := 5 } }

/-- BRK completes as a software break where no interrupt arrives while it runs: the address of the byte after the padding
byte and the status byte with bit 4 set are pushed, `I` is set, `PC` is the vector at 0xFFFE (R292, 60_exceptions.md R350,
R351). -/
def Obligations.BreakCompletes : Prop :=
  ∀ s : State, Fetched s → plain s.cpu.pc = true → (afterPpu 6 s).pending = .none →
    exec .brk s = .next { afterPpu 6 s with
      ram := stackWrite (stackWrite (stackWrite s.ram s.cpu.s (hi8 (s.cpu.pc + 1#16))) (s.cpu.s - 1#8)
        (lo8 (s.cpu.pc + 1#16))) (s.cpu.s - 2#8) (group .hardware s.cpu.p ||| 0x10#8),
      cpu := { s.cpu with
        s := s.cpu.s - 3#8, p := { s.cpu.p with i := true }, pc := cat (peek s 0xFFFF#16) (peek s 0xFFFE#16),
        cursor := 6 } }

/-- An illegal byte stops the machine with its own value, from every running state (40_sequencer.md R134, 60_exceptions.md
R342). -/
def Obligations.IllegalInstructionStops : Prop :=
  ∀ (b : Byte) (s : State), Fetched s → exec (.ill b) s = .fault (.illegalOpcode b)

/-! ## Interrupts -/

/-- Each step of the interrupt sequence reads `pending` as it is at its own tick, so a request that arrives during the
sequence changes the steps after it (60_exceptions.md R352, the spec's decision D8; log entry 15). -/
def Obligations.EntryConsultsPendingAtEachStep : Prop :=
  ∀ s : State, Fetched s → plain s.cpu.pc = true →
    exec .brk s = .next (entered s fun n => (afterPpu n s).pending)

/-- An NMI or IRQ pending at an instruction boundary is taken at once, whatever byte stands at `PC` and whatever `I` is: in 7
ticks `PC` and the status byte with bit 4 clear are pushed, `S` is three less, `I` is set, `PC` comes from the vector and
`pending` is none (R345, R346, R350, R351). That an IRQ is taken whatever `I` is, with vector 0xFFFE and bit 4 clear, is the
spec's decision D14 in R346 (log entry 16); no step sets `pending` to IRQ. -/
def Obligations.HardwareInterruptEntry : Prop :=
  ∀ (s : State) (q : Pending), s.halted = none → atBoundary s = true → (q = .nmi ∨ q = .irq) →
    (∀ n, 1 ≤ n → n ≤ 7 → (afterPpu n s).pending = q) → 0x00#8 ∈ s.rom.implemented → plain s.cpu.pc = true →
    step s = .next { afterPpu 7 s with
      pending := .none,
      ram := stackWrite (stackWrite (stackWrite s.ram s.cpu.s (hi8 s.cpu.pc)) (s.cpu.s - 1#8) (lo8 s.cpu.pc))
        (s.cpu.s - 2#8) (group .hardware s.cpu.p),
      cpu := { s.cpu with
        s := s.cpu.s - 3#8, p := { s.cpu.p with i := true },
        pc := cat (peek s (vector q + 1#16)) (peek s (vector q)), ir := 0x00#8, cursor := 6 } }

/-- The reset sequence from any launch, 7 ticks: no RAM is written, `S` is three less than at launch, `I` is set, `PC` comes
from 0xFFFC low byte first, every other register and flag is as at launch, `pending` is none, and the PPU is 21 dots into
its first scanline (70_reset_and_hazards.md R381, 60_exceptions.md R350). It holds for every admissible value of the launch
parameters (0x00 implemented, RESET_PC a RAM or PRG address: R108, R381). It rests on what `Launch` does not vary: the PPU's
launch position (0, 0), from which dot 21 of scanline 0 follows (the spec's decision D18, log entry 8), and the sequencer's
launch values, by which the first step is FETCH (D16, log entry 6). -/
def Obligations.ResetSequenceFromLaunch : Prop :=
  ∀ l : Launch, 0x00#8 ∈ l.implemented → plain l.resetPC = true →
    step (State.launch l) = .next { afterPpu 7 (State.launch l) with
      pending := .none,
      cpu := { (State.launch l).cpu with
        s := l.resetS - 3#8, p := { l.resetFlags with i := true },
        pc := cat (peek (State.launch l) 0xFFFD#16) (peek (State.launch l) 0xFFFC#16), ir := 0x00#8, cursor := 6 } } ∧
    (afterPpu 7 (State.launch l)).ram = l.ramInit ∧ (afterPpu 7 (State.launch l)).ppu.scanline = 0 ∧
    (afterPpu 7 (State.launch l)).ppu.dot = 21

/-- RTI undoes a software break: where an RTI runs with RAM and the registers as BRK left them, `PC` is the address two past
the BRK opcode, `S` is restored, and every flag but the stored `B` is as before the break (45_stack_flag_system.md R293,
60_exceptions.md R353). -/
def Obligations.ReturnFromInterruptUndoesBreak : Prop :=
  ∀ s t u : State, Fetched s → s.ram.wf → plain s.cpu.pc = true → (afterPpu 6 s).pending = .none →
    exec .brk s = .next t → plain t.cpu.pc = true →
    u.halted = none → u.ram = t.ram → u.cpu = { t.cpu with cursor := 0 } →
    exec .rti u = .next { afterPpu 5 u with
      cpu := { s.cpu with pc := s.cpu.pc + 1#16, p := { s.cpu.p with b := true }, cursor := 5 } }

/-- RTS undoes JSR: where an RTS runs with RAM and `S` as JSR left them, `PC` is the address of the instruction after the JSR
and `S` is restored (44_branch_jump.md R271). -/
def Obligations.ReturnUndoesCall : Prop :=
  ∀ s t u : State, Fetched s → s.ram.wf → plain s.cpu.pc = true → plain (s.cpu.pc + 1#16) = true →
    exec .jsr s = .next t →
    Fetched u → u.ram = t.ram → u.cpu.s = t.cpu.s → plain u.cpu.pc = true →
    exec .rts u = .next { afterPpu 5 u with cpu := { u.cpu with s := s.cpu.s, pc := s.cpu.pc + 2#16, cursor := 5 } }

/-! ## The step -/

/-- A step runs the decoded instruction: at a boundary with nothing pending, where the bus gives the byte `b` at `PC` and `b`
is implemented, `step` is `exec` of the instruction any list of bytes beginning with `b` decodes to, from the state with `PC`
past the opcode and the cursor at the instruction's first own step (40_sequencer.md R130, R132, R133). -/
def Obligations.StepRunsTheDecodedInstruction : Prop :=
  ∀ (s t : State) (b : Byte) (more : List Byte) (d : Decoded), s.halted = none → atBoundary s = true →
    (afterPpu 1 s).pending = .none → busRead s.cpu.pc (afterPpu 1 s) = .ok (b, t) → b ∈ s.rom.implemented →
    decode (b :: more) = .ok d → step s = exec d.instr (fetched b t)

/-- At a boundary with an interrupt pending, `step` is the interrupt sequence from the state with `PC` unchanged and the byte
0x00 installed, whatever the byte at `PC` is (R132, 60_exceptions.md R347). -/
def Obligations.StepTakesThePendingInterrupt : Prop :=
  ∀ (s t : State) (b : Byte), s.halted = none → atBoundary s = true → (afterPpu 1 s).pending ≠ .none →
    busRead s.cpu.pc (afterPpu 1 s) = .ok (b, t) → 0x00#8 ∈ s.rom.implemented →
    step s = exec .brk (fetchedInterrupt t)

/-- The two fatals of a FETCH: a byte that is not implemented, fetched with nothing pending, is the illegal-opcode fatal with
that byte; a FETCH from an address with no device is the bus fatal, whether or not an interrupt is pending (60_exceptions.md
R341, R342, R347; 30_encoding.md R104, R108). -/
def Obligations.FetchFatals : Prop :=
  (∀ (s t : State) (b : Byte), s.halted = none → atBoundary s = true → (afterPpu 1 s).pending = .none →
    busRead s.cpu.pc (afterPpu 1 s) = .ok (b, t) → b ∉ s.rom.implemented → step s = .fault (.illegalOpcode b)) ∧
  ∀ s : State, s.halted = none → atBoundary s = true → unmappedRead s.cpu.pc → step s = .fault (.busFault s.cpu.pc)

/-- `step` refines the spec's own tick: a step that answers `t` is 1 to 7 system steps of PpuTick, PpuTick, PpuTick, CpuTick,
the first instruction boundary after its start (00_scope.md R9, R12; 40_sequencer.md R130, R133). -/
def Obligations.StepIsTicksToTheNextBoundary : Prop :=
  ∀ s t : State, step s = .next t →
    ∃ n, 1 ≤ n ∧ n ≤ 7 ∧ ticks n s = t ∧ atBoundary t = true ∧
      ∀ k, 1 ≤ k → k < n → atBoundary (ticks k s) = false

/-- A step that faults is 1 to 7 system steps of which the last is the fatal one: the machine is halted with that fault then,
and running before (60_exceptions.md R340, R341, R342). -/
def Obligations.FaultingStepIsTicksToTheFatalTick : Prop :=
  ∀ (s : State) (f : Fault), s.halted = none → step s = .fault f →
    ∃ n, 1 ≤ n ∧ n ≤ 7 ∧ (ticks n s).halted = some f ∧ ∀ k, k < n → (ticks k s).halted = none

/-- A halted machine stays as it is for ever: every CPU tick, PPU tick and system step leaves the whole state unchanged, and
`step` answers its fault (60_exceptions.md R343 with the spec's decision D30; log entry 3). -/
def Obligations.FatalIsTerminal : Prop :=
  ∀ (s : State) (f : Fault), s.halted = some f →
    cpuTick s = s ∧ (∀ n, ppuTicks n s = s) ∧ (∀ n, ticks n s = s) ∧ step s = .fault f

/-- The CPU step that raises a fatal changes nothing but `halted`: the state is what the three PPU ticks before it left
(60_exceptions.md R341, R342). -/
def Obligations.FatalTickChangesOnlyHalted : Prop :=
  ∀ (s : State) (f : Fault), s.halted = none → (tick s).halted = some f →
    tick s = { ppuShare s with halted := some f }

/-- What can stop a running instruction: a bus access to an address with no device or a write to the PRG window, or the
illegal byte itself; and no step is ever refused (60_exceptions.md R340, R341, R342; 00_scope.md R10). -/
def Obligations.OnlyTheTwoFatalClassesStopAnInstruction : Prop :=
  (∀ (i : Instr) (s : State), s.halted = none →
    (∃ t, exec i s = .next t) ∨ (∃ a, exec i s = .fault (.busFault a) ∧ unmappedWrite a) ∨
      (∃ b, i = .ill b ∧ exec i s = .fault (.illegalOpcode b))) ∧
  (∀ (i : Instr) (s : State) (a : Word), s.halted = none → stores i = false →
    exec i s = .fault (.busFault a) → unmappedRead a) ∧
  ∀ (s : State) (r : Refusal), step s ≠ .refused r

/-! ## Invariants and frames -/

/-- Every step keeps the invariant: the machine runs, the cursor is inside its sequence, RAM, VRAM and the frame buffer are in
canonical form and in range, the dot and scanline counters are in range, the launch parameters are admissible. -/
def Obligations.InvariantIsKept : Prop := ∀ s t : State, s.Inv → step s = .next t → t.Inv

/-- The invariant holds after reset. (The reset values are those of the log entries 4 to 10 where the spec gives none.) -/
def Obligations.InvariantHoldsAtReset : Prop := State.reset.Inv

/-- No step changes PRG, CHR, their sizes or the implemented set (10_state.md R31, R34, R39; 48_ppu.md R310). -/
def Obligations.LaunchConstantsNeverChange : Prop := ∀ s t : State, step s = .next t → t.rom = s.rom

/-- A flag that the instruction's row of the flag table does not name is unchanged (10_state.md R46). -/
def Obligations.FlagsOutsideTheTableAreUnchanged : Prop :=
  ∀ (i : Instr) (s t : State), exec i s = .next t →
    (writesNZ i = false → t.cpu.p.n = s.cpu.p.n ∧ t.cpu.p.z = s.cpu.p.z) ∧
    (writesV i = false → t.cpu.p.v = s.cpu.p.v) ∧ (writesB i = false → t.cpu.p.b = s.cpu.p.b) ∧
    (writesD i = false → t.cpu.p.d = s.cpu.p.d) ∧ (writesI i = false → t.cpu.p.i = s.cpu.p.i) ∧
    (writesC i = false → t.cpu.p.c = s.cpu.p.c)

/-- `A`, `X`, `Y` and `S` are unchanged by every instruction of the table whose rule does not write them (10_state.md R20,
R21). -/
def Obligations.RegistersNotWrittenAreUnchanged : Prop :=
  ∀ (i : Instr) (s t : State), wellFormed i = true → exec i s = .next t →
    (writesA i = false → t.cpu.a = s.cpu.a) ∧ (writesX i = false → t.cpu.x = s.cpu.x) ∧
    (writesY i = false → t.cpu.y = s.cpu.y) ∧ (writesS i = false → t.cpu.s = s.cpu.s)

/-- An instruction with no writing step leaves every byte of RAM, VRAM and PRG, the three control bits and the VRAM address
as they were, and the PPUADDR write order as it was or at First, where a port-2 read leaves it (40_sequencer.md R157, 20_memory.md
R61, R71; 10_state.md R35, R37; 48_ppu.md R317). That a port-7 read leaves the address alone is R320 with the spec's decision
D25 (log entry 12). -/
def Obligations.NonStoringInstructionsLeaveMemory : Prop :=
  ∀ (i : Instr) (s t : State), stores i = false → exec i s = .next t →
    (∀ a, plain a = true → peek t a = peek s a) ∧ t.ram = s.ram ∧ t.ppu.vram = s.ppu.vram ∧
    t.ppu.nmiEnable = s.ppu.nmiEnable ∧ t.ppu.patternHalf = s.ppu.patternHalf ∧
    t.ppu.vramInc32 = s.ppu.vramInc32 ∧ t.ppu.vramAddr = s.ppu.vramAddr ∧
    (t.ppu.wlatch = s.ppu.wlatch ∨ t.ppu.wlatch = .first)

/-- STA, STX and STY to RAM: the byte at the effective address, and at its mirrors, is the register; every other byte of RAM,
all of PRG and all of VRAM are unchanged (41_load_store_transfer.md R203 to R205, 20_memory.md R62, R63). -/
def Obligations.StoresToRamChangeOneByte : Prop :=
  ∀ (i : WMode → Instr) (value : Cpu → Byte) (m : WMode) (s t : State),
    ((i = .sta ∧ value = Cpu.a) ∨ (i = .stx ∧ value = Cpu.x) ∨ (i = .sty ∧ value = Cpu.y)) →
    Fetched s → s.ram.wf → (∀ a ∈ writeAddrs m s, plain a = true) → (writeEa m s).toNat < 0x2000 →
    exec (i m) s = .next t →
    (∀ a : Word, a.toNat < 0x2000 → a.toNat % 2048 = (writeEa m s).toNat % 2048 → peek t a = value s.cpu) ∧
    (∀ a : Word, plain a = true → (a.toNat < 0x2000 → a.toNat % 2048 ≠ (writeEa m s).toNat % 2048) →
      peek t a = peek s a) ∧ t.ppu.vram = s.ppu.vram

/-- The shifts, INC and DEC on a RAM byte: the byte at the effective address, and at its mirrors, is the new value; every
other byte of RAM, all of PRG and all of VRAM are unchanged (43_shift_incdec.md R240 to R245). -/
def Obligations.ModifiesOfRamChangeOneByte : Prop :=
  ∀ (i : MMode → Instr) (f : Byte → Flags → Byte × Flags) (m : MMode) (s t : State),
    ((i = .asl ∧ f = aslSpec) ∨ (i = .lsr ∧ f = lsrSpec) ∨ (i = .rol ∧ f = rolSpec) ∨ (i = .ror ∧ f = rorSpec) ∨
      (i = .inc ∧ f = incSpec) ∨ (i = .dec ∧ f = decSpec)) →
    m ≠ .acc → Fetched s → s.ram.wf → (∀ a ∈ modifyAddrs m s, plain a = true) → (modifyEa m s).toNat < 0x2000 →
    exec (i m) s = .next t →
    (∀ a : Word, a.toNat < 0x2000 → a.toNat % 2048 = (modifyEa m s).toNat % 2048 →
      peek t a = (f (peek s (modifyEa m s)) s.cpu.p).1) ∧
    (∀ a : Word, plain a = true → (a.toNat < 0x2000 → a.toNat % 2048 ≠ (modifyEa m s).toNat % 2048) →
      peek t a = peek s a) ∧ t.ppu.vram = s.ppu.vram

/-- PHA, PHP, JSR and BRK store to the stack page only, below and at the old top: 1, 1, 2 and 3 bytes; every other byte of
RAM, all of PRG and all of VRAM are unchanged (20_memory.md R72, 40_sequencer.md R137). -/
def Obligations.PushesStoreOnlyOnTheStack : Prop :=
  ∀ (i : Instr) (n : Nat) (s t : State), Fetched s →
    ((i = .pha ∧ n = 1) ∨ (i = .php ∧ n = 1) ∨ (i = .jsr ∧ n = 2) ∨ (i = .brk ∧ n = 3)) →
    exec i s = .next t →
    (∀ a : Word, plain a = true →
      (a.toNat < 0x2000 → ∀ k, k < n → a.toNat % 2048 ≠ (stackAddr (s.cpu.s - BitVec.ofNat 8 k)).toNat) →
      peek t a = peek s a) ∧ t.ppu.vram = s.ppu.vram

/-- 257 consecutive pushes from `S = 0xFF` leave `S = 0xFE` with no fault (10_state.md R21, 40_sequencer.md R137,
45_stack_flag_system.md R280). -/
def Obligations.StackWrapsAfter257Pushes : Prop :=
  ∀ s : State, s.halted = none → plain s.cpu.pc = true → s.cpu.s = 0xFF#8 →
    ∃ t, pushRun 257 s = .next t ∧ t.cpu.s = 0xFE#8

/-- The stored `B` flag is read by nothing: two states that differ in it alone take the same step, to states that differ in it
alone or to the same fault (10_state.md R24, R25, R46). -/
def Obligations.StoredBreakFlagIsUnobservable : Prop :=
  ∀ (s : State) (b : Bool),
    (∀ t, step s = .next t → ∃ b', step (s.withB b) = .next (t.withB b')) ∧
    (∀ f, step s = .fault f → step (s.withB b) = .fault f)

/-- Every sequence has the bus pattern of the table, in every state: its length, which steps read and which write, the writes
of the interrupt sequence being reads during Reset (40_sequencer.md R131, R135, R157). -/
def Obligations.SequencesHaveTheirBusPatterns : Prop :=
  ∀ (i : Instr) (s : State),
    ((ownSteps i).map fun m => (m s).kind) = busPattern i s.pending ∧ (ownSteps i).length ≤ 6

/-! ## Flags and the adder -/

/-- Decimal, unsigned and signed meaning of the adder: the result and the carry are those of the 9-bit sum, the overflow is
that the signed sum does not fit a byte; and the spec's two vectors (42_arith_logic.md R220). -/
def Obligations.AdderIsTheNineBitSum : Prop :=
  (∀ (a m : Byte) (cin : Bool),
    (add8 a m cin).r.toNat = (a.toNat + m.toNat + cin.toNat) % 256 ∧
    ((add8 a m cin).cout = true ↔ 256 ≤ a.toNat + m.toNat + cin.toNat) ∧
    ((add8 a m cin).ovf = true ↔ (~~~(a ^^^ m)) &&& (a ^^^ (add8 a m cin).r) &&& 0x80#8 ≠ 0x00#8) ∧
    ((add8 a m cin).ovf = true ↔ a.toInt + m.toInt + cin.toNat < -128 ∨ 127 < a.toInt + m.toInt + cin.toNat)) ∧
  add8 0x50#8 0x50#8 false = { r := 0xA0#8, cout := false, ovf := true } ∧
  add8 0xD0#8 0x90#8 false = { r := 0x60#8, cout := true, ovf := true }

/-- The status byte: its layout, bit 5 always one, bit 4 that of the push context, the stored `B` no input (10_state.md R24;
that last and bit 4 of PHP are the spec's decision D11); and the round trip for all 256 bytes and all flags (R25). -/
def Obligations.StatusByteLayoutAndRoundTrip : Prop :=
  (∀ (p : Flags) (ctx : PushContext),
    (group ctx p).toNat = 0x80 * p.n.toNat + 0x40 * p.v.toNat + 0x20 + 0x10 * (bit4 ctx).toNat + 0x08 * p.d.toNat +
      0x04 * p.i.toNat + 0x02 * p.z.toNat + 0x01 * p.c.toNat) ∧
  bit4 .softBreak = true ∧ bit4 .php = true ∧ bit4 .hardware = false ∧
  (∀ (q : Byte) (ctx : PushContext),
    group ctx (ungroup q) = (q &&& 0xCF#8) ||| 0x20#8 ||| (if bit4 ctx then 0x10#8 else 0x00#8)) ∧
  ∀ (p : Flags) (ctx : PushContext), ungroup (group ctx p) = { p with b := bit4 ctx }

/-! ## The bus -/

/-- The read map: RAM by the address modulo 0x0800, PPU ports by the address modulo 8, a value that nothing fixes in the
stub range, a fault at every address of the hole, PRG by the address modulo the image size (20_memory.md R61, R63, R64, R65,
R66, R67, R68). The stub range's free value is log entry 11 with the spec's decision D21, its draw counter log entry 19; the
hole is D22, the window's base and mask D24 (log entry 14). -/
def Obligations.BusReadMap : Prop :=
  ∀ (a : Word) (s : State), isPow2 s.rom.prgSize →
    (a.toNat < 0x2000 → busRead a s = .ok (cellRead s.ram (a.toNat % 0x0800), s)) ∧
    (0x2000 ≤ a.toNat → a.toNat < 0x4000 → busRead a s = .ok (ppuPortRead (a.toNat % 8) s)) ∧
    (0x4000 ≤ a.toNat → a.toNat ≤ 0x4017 → ∃ v n, busRead a s = .ok (v, { s with draws := n })) ∧
    (unmappedRead a → busRead a s = .error (.busFault a)) ∧
    (0x8000 ≤ a.toNat → busRead a s = .ok (cellRead s.rom.prg (a.toNat % s.rom.prgSize), s))

/-- The write map: RAM by the address modulo 0x0800, PPU ports by the address modulo 8, nothing in the stub range, a fault
everywhere else, PRG included (20_memory.md R62, R63, R64, R65, R66; the PRG fault is the spec's decision D23, log entry
18). -/
def Obligations.BusWriteMap : Prop :=
  ∀ (a : Word) (v : Byte) (s : State),
    (a.toNat < 0x2000 → busWrite a v s = .ok { s with ram := cellWrite s.ram (a.toNat % 0x0800) v }) ∧
    (0x2000 ≤ a.toNat → a.toNat < 0x4000 → busWrite a v s = .ok (ppuPortWrite (a.toNat % 8) v s)) ∧
    (0x4000 ≤ a.toNat → a.toNat ≤ 0x4017 → busWrite a v s = .ok s) ∧
    (unmappedWrite a → busWrite a v s = .error (.busFault a))

/-! ## The PPU -/

/-- The advance: the dot counts 0 to 340 and then wraps to 0, incrementing the scanline, which wraps to 0 only from 261; so the
position moves by one tick modulo the 341 by 262 ticks of a frame, every frame alike (48_ppu.md R306). -/
def Obligations.PositionAdvancesModuloTheFrame : Prop :=
  ∀ s : State, s.halted = none → s.ppu.dot ≤ 340 → s.ppu.scanline ≤ 261 →
    (s.ppu.dot < 340 → (ppuTick s).ppu.dot = s.ppu.dot + 1 ∧ (ppuTick s).ppu.scanline = s.ppu.scanline) ∧
    (s.ppu.dot = 340 → (ppuTick s).ppu.dot = 0 ∧
      (ppuTick s).ppu.scanline = if s.ppu.scanline = 261 then 0 else s.ppu.scanline + 1) ∧
    ∀ n, (ppuTicks n s).ppu.dot ≤ 340 ∧ (ppuTicks n s).ppu.scanline ≤ 261 ∧
      (ppuTicks n s).ppu.position = (s.ppu.position + n) % frameTicks

/-- Vertical blank: at (241, 1) `vblank` is set and `pending` becomes NMI exactly if `nmi_enable` is set, whatever it held;
at (261, 1) `vblank` is cleared; at every other tick neither changes (48_ppu.md R312, R313). -/
def Obligations.VerticalBlankAndNmi : Prop :=
  ∀ s : State, s.halted = none →
    (s.ppu.scanline = 241 → s.ppu.dot = 1 →
      (ppuTick s).ppu.vblank = true ∧ (ppuTick s).pending = if s.ppu.nmiEnable then .nmi else s.pending) ∧
    (s.ppu.scanline = 261 → s.ppu.dot = 1 → (ppuTick s).ppu.vblank = false ∧ (ppuTick s).pending = s.pending) ∧
    (¬ (s.ppu.scanline = 241 ∧ s.ppu.dot = 1) → ¬ (s.ppu.scanline = 261 ∧ s.ppu.dot = 1) →
      (ppuTick s).ppu.vblank = s.ppu.vblank ∧ (ppuTick s).pending = s.pending)

/-- The frame event: at (240, 0) the whole buffer is handed over as it stands, exactly once, and at no other tick
(48_ppu.md R311). `frames` and `lastFrame` are the model's fields for the event (log entry 13). -/
def Obligations.FrameEventOncePerFrame : Prop :=
  ∀ s : State, s.halted = none →
    (s.ppu.scanline = 240 → s.ppu.dot = 0 →
      (ppuTick s).ppu.frames = s.ppu.frames + 1 ∧ (ppuTick s).ppu.lastFrame = some s.ppu.fb ∧
      (ppuTick s).ppu.fb = s.ppu.fb) ∧
    (¬ (s.ppu.scanline = 240 ∧ s.ppu.dot = 0) →
      (ppuTick s).ppu.frames = s.ppu.frames ∧ (ppuTick s).ppu.lastFrame = s.ppu.lastFrame)

/-- A visible tick stores the background pixel's two-bit colour at its own cell and leaves every other cell: twice the high
plane's bit plus the low plane's, planes 8 bytes apart, 16 bytes a tile, the tile id from a 32 by 30 name table, bit 7
leftmost; any other tick stores no pixel (48_ppu.md R308, R310; the formulas are the spec's decision D28). -/
def Obligations.VisibleTickRendersOnePixel : Prop :=
  ∀ s : State, s.halted = none → s.ppu.fb.wf → isPow2 s.rom.chrSize →
    (s.ppu.scanline ≤ 239 → s.ppu.dot ≤ 255 →
      ∃ base : Nat,
        base = (if s.ppu.patternHalf then 4096 else 0) +
          16 * (cellRead s.ppu.vram (s.ppu.scanline / 8 * 32 + s.ppu.dot / 8)).toNat + s.ppu.scanline % 8 ∧
        (cellRead (ppuTick s).ppu.fb (s.ppu.scanline * 256 + s.ppu.dot)).toNat =
          2 * ((cellRead s.rom.chr ((base + 8) % s.rom.chrSize)).toNat / 2 ^ (7 - s.ppu.dot % 8) % 2) +
            (cellRead s.rom.chr (base % s.rom.chrSize)).toNat / 2 ^ (7 - s.ppu.dot % 8) % 2 ∧
        ∀ k, k ≠ s.ppu.scanline * 256 + s.ppu.dot → cellRead (ppuTick s).ppu.fb k = cellRead s.ppu.fb k) ∧
    (¬ (s.ppu.scanline ≤ 239 ∧ s.ppu.dot ≤ 255) → (ppuTick s).ppu.fb = s.ppu.fb)

/-- A write of `v` to any mirror of port 0 sets `nmi_enable`, `pattern_half` and `vram_inc32` from bits 7, 4 and 2 and
changes nothing else, so it raises no NMI (48_ppu.md R316). All three are false at reset, which is the spec's decision D18
in R35 (log entry 8). -/
def Obligations.ControlPortWrite : Prop :=
  (∀ (a : Word) (v : Byte) (s : State), 0x2000 ≤ a.toNat → a.toNat < 0x4000 → a.toNat % 8 = 0 →
    busWrite a v s = .ok { s with ppu := { s.ppu with
      nmiEnable := decide (128 ≤ v.toNat), patternHalf := decide (16 ≤ v.toNat % 32),
      vramInc32 := decide (4 ≤ v.toNat % 8) } }) ∧
  State.reset.ppu.nmiEnable = false ∧ State.reset.ppu.patternHalf = false ∧ State.reset.ppu.vramInc32 = false

/-- A read of any mirror of port 2 returns `vblank` in bit 7 and zero below it, clears `vblank`, makes the next port-6 write
the high byte, and changes nothing else: it does not touch `pending` (48_ppu.md R317; the zero bits are the spec's decision
D26, log entry 17). -/
def Obligations.StatusPortRead : Prop :=
  ∀ (a : Word) (s : State), 0x2000 ≤ a.toNat → a.toNat < 0x4000 → a.toNat % 8 = 2 →
    busRead a s = .ok (if s.ppu.vblank then 0x80#8 else 0x00#8,
      { s with ppu := { s.ppu with vblank := false, wlatch := .first } })

/-- Port 6: with `wlatch = First` a write replaces the high six bits of the 14-bit VRAM address, with `Second` the low byte,
the latch toggles, and nothing else changes; so a pair from `First` sets the address to (V1<<8 | V2) in all 14 bits
(48_ppu.md R318; the width is the spec's decision D27). -/
def Obligations.AddressPortWrites : Prop :=
  ∀ a : Word, 0x2000 ≤ a.toNat → a.toNat < 0x4000 → a.toNat % 8 = 6 →
    (∀ (v : Byte) (s : State), ∃ t, busWrite a v s = .ok t ∧
      t = { s with ppu := { s.ppu with vramAddr := t.ppu.vramAddr, wlatch := t.ppu.wlatch } } ∧
      (s.ppu.wlatch = .first →
        t.ppu.wlatch = .second ∧ t.ppu.vramAddr.toNat = v.toNat % 64 * 256 + s.ppu.vramAddr.toNat % 256) ∧
      (s.ppu.wlatch = .second →
        t.ppu.wlatch = .first ∧ t.ppu.vramAddr.toNat = s.ppu.vramAddr.toNat / 256 * 256 + v.toNat)) ∧
    ∀ (v1 v2 : Byte) (s t u : State), s.ppu.wlatch = .first → busWrite a v1 s = .ok t → busWrite a v2 t = .ok u →
      u.ppu.wlatch = .first ∧ u.ppu.vramAddr.toNat = (v1.toNat * 256 + v2.toNat) % 0x4000

/-- A write to port 7 stores the byte at the VRAM address modulo 0x0800 and moves the address on by 1 or 32 modulo 0x4000; no
other VRAM byte and nothing else changes (48_ppu.md R319). -/
def Obligations.DataPortWrite : Prop :=
  ∀ (a : Word) (v : Byte) (s : State), 0x2000 ≤ a.toNat → a.toNat < 0x4000 → a.toNat % 8 = 7 → s.ppu.vram.wf →
    ∃ t, busWrite a v s = .ok t ∧
      t = { s with ppu := { s.ppu with vram := t.ppu.vram, vramAddr := t.ppu.vramAddr } } ∧
      (∀ k, cellRead t.ppu.vram k = if k = s.ppu.vramAddr.toNat % 0x0800 then v else cellRead s.ppu.vram k) ∧
      t.ppu.vramAddr.toNat = (s.ppu.vramAddr.toNat + if s.ppu.vramInc32 then 32 else 1) % 0x4000

/-- Accesses the port table does not list: a write to ports 1 to 5 changes no state, a read of a port other than 2 changes
no state of the machine (the model's draw counter apart) and returns a value that nothing fixes (48_ppu.md R320 with the
spec's decision D25; log entries 12 and 19). -/
def Obligations.UnlistedPortAccesses : Prop :=
  ∀ (a : Word) (v : Byte) (s : State), 0x2000 ≤ a.toNat → a.toNat < 0x4000 →
    (1 ≤ a.toNat % 8 → a.toNat % 8 ≤ 5 → busWrite a v s = .ok s) ∧
    (a.toNat % 8 ≠ 2 → ∃ r n, busRead a s = .ok (r, { s with draws := n }))

/-- A dummy read is a real read: where the uncorrected address of an indexed STA, in any of its three indexed forms that make
the dummy read (absolute,X; absolute,Y; (zp),Y), is a mirror of port 2, the read clears `vblank` and resets `wlatch` one tick
before the write (41_load_store_transfer.md R203, 40_sequencer.md R153, R156, R159; 48_ppu.md R317; 70_reset_and_hazards.md
R386). The dummy read's address is the spec's decision D36 (log entry 14). -/
def Obligations.IndexedStoreDummyReadTouchesTheStatusPort : Prop :=
  ∀ (m : WMode) (s t : State) (a : Word), Fetched s → plain s.cpu.pc = true →
    (m ≠ .izy → plain (s.cpu.pc + 1#16) = true) →
    storeDummy m s = some a → 0x2000 ≤ a.toNat → a.toNat < 0x4000 → a.toNat % 8 = 2 →
    busWrite (writeEa m s) s.cpu.a
      (afterPpu 1 { afterPpu (writeTicks m - 1) s with
        ppu := { (afterPpu (writeTicks m - 1) s).ppu with vblank := false, wlatch := .first } }) = .ok t →
    ∃ l : Latch, exec (.sta m) s = .next { t with cpu := s.cpu.done (.sta m) (Instr.sta m).operandBytes l }
end

