-- ==== Sys2Proof/Laws/Bits.lean ====
section
/-! SUPPORT. Byte order and indexing in integers, and which addresses are plain. -/

namespace Sys2Proof.Machine

theorem cat_toNat (h l : Byte) : (cat h l).toNat = h.toNat * 256 + l.toNat := by
  have hl := l.isLt
  rw [cat, BitVec.toNat_append, ← Nat.shiftLeft_add_eq_or_of_lt hl, Nat.shiftLeft_eq]

theorem hi8_toNat (w : Word) : (hi8 w).toNat = w.toNat / 256 := by
  have hw := w.isLt
  simp only [hi8, BitVec.extractLsb'_toNat, Nat.shiftRight_eq_div_pow]
  omega

theorem lo8_toNat (w : Word) : (lo8 w).toNat = w.toNat % 256 := by
  simp [lo8, BitVec.extractLsb'_toNat]

@[simp] theorem hi8_cat (h l : Byte) : hi8 (cat h l) = h := by
  apply BitVec.eq_of_toNat_eq
  have := l.isLt
  rw [hi8_toNat, cat_toNat]; omega

@[simp] theorem lo8_cat (h l : Byte) : lo8 (cat h l) = l := by
  apply BitVec.eq_of_toNat_eq
  have := l.isLt
  rw [lo8_toNat, cat_toNat]; omega

@[simp] theorem cat_hi8_lo8 (w : Word) : cat (hi8 w) (lo8 w) = w := by
  apply BitVec.eq_of_toNat_eq
  rw [cat_toNat, hi8_toNat, lo8_toNat]; omega

/-- Both halves of `PC` assigned, low first: `PC` is the two bytes. -/
@[simp] theorem setPch_setPcl (w : Word) (h l : Byte) : setPch (setPcl w l) h = cat h l := by
  simp [setPch, setPcl]

@[simp] theorem hi8_setPcl (w : Word) (l : Byte) : hi8 (setPcl w l) = hi8 w := hi8_cat _ _
@[simp] theorem lo8_setPcl (w : Word) (l : Byte) : lo8 (setPcl w l) = l := lo8_cat _ _

theorem zeroPage_toNat (l : Byte) : (zeroPage l).toNat = l.toNat := by simp [zeroPage, cat_toNat]

theorem stackAddr_toNat (s : Byte) : (stackAddr s).toNat = 0x100 + s.toNat := by simp [stackAddr, cat_toNat]

/-- A zero-page address is RAM, so plain. -/
@[simp] theorem plain_zeroPage (l : Byte) : plain (zeroPage l) = true := by
  have := l.isLt
  simp [plain, zeroPage_toNat]; omega

/-- A stack address is RAM, so plain. -/
@[simp] theorem plain_stackAddr (s : Byte) : plain (stackAddr s) = true := by
  have := s.isLt
  simp [plain, stackAddr_toNat]; omega

/-- The RAM index of a bus address is the address modulo 2048 (20_memory.md R63). -/
theorem ramIndex_eq (a : Word) : ramIndex a = a.toNat % 2048 := by
  rw [ramIndex, BitVec.toNat_and]
  exact Nat.and_two_pow_sub_one_eq_mod a.toNat 11

theorem ramIndex_stackAddr (s : Byte) : ramIndex (stackAddr s) = 0x100 + s.toNat := by
  have := s.isLt
  rw [ramIndex_eq, stackAddr_toNat]; omega

theorem ramIndex_zeroPage (l : Byte) : ramIndex (zeroPage l) = l.toNat := by
  have := l.isLt
  rw [ramIndex_eq, zeroPage_toNat]; omega

theorem stackAddr_lt (s : Byte) : (stackAddr s).toNat < 0x2000 := by
  have := s.isLt
  rw [stackAddr_toNat]; omega

@[simp] theorem peek_stackAddr (s : State) (sp : Byte) : peek s (stackAddr sp) = stackByte s sp := by
  rw [peek, if_pos (stackAddr_lt sp), ramIndex_stackAddr, stackByte]

theorem indexed_toNat (base : Word) (idx : Byte) : (indexed base idx).toNat = (base.toNat + idx.toNat) % 65536 := by
  have := idx.isLt
  simp only [indexed, BitVec.toNat_add, BitVec.toNat_setWidth]
  omega

/-- Without a page crossing the low byte's sum is the whole sum. -/
theorem cat_add_of_not_crosses {h l idx : Byte} (hc : crosses (cat h l) idx = false) :
    cat h (l + idx) = indexed (cat h l) idx := by
  apply BitVec.eq_of_toNat_eq
  have hl := l.isLt
  have hh := h.isLt
  simp only [crosses, lo8_cat, decide_eq_false_iff_not] at hc
  rw [cat_toNat, indexed_toNat, cat_toNat, BitVec.toNat_add]; omega

/-- On a page crossing the carry goes into the high byte. -/
theorem cat_add_of_crosses {h l idx : Byte} (hc : crosses (cat h l) idx = true) :
    cat (h + 1#8) (l + idx) = indexed (cat h l) idx := by
  apply BitVec.eq_of_toNat_eq
  have hl := l.isLt
  have hh := h.isLt
  have hi := idx.isLt
  simp only [crosses, lo8_cat, decide_eq_true_eq] at hc
  rw [cat_toNat, indexed_toNat, cat_toNat, BitVec.toNat_add, BitVec.toNat_add]
  simp only [BitVec.toNat_ofNat]
  omega

theorem uncorrected_cat (h l idx : Byte) : uncorrected (cat h l) idx = cat h (l + idx) := by simp [uncorrected]

/-- "if `lo < idx` (a carry occurred)" (40_sequencer.md R153): the sum is below the index exactly on a carry. -/
theorem add_lt_iff_crosses (h l idx : Byte) : (l + idx).toNat < idx.toNat ↔ crosses (cat h l) idx = true := by
  have hl := l.isLt
  have hi := idx.isLt
  simp only [crosses, lo8_cat, decide_eq_true_eq, BitVec.toNat_add]
  omega

theorem skipUnlessCarry_eq (h l idx : Byte) :
    skipUnlessCarry l idx = if crosses (cat h l) idx then 0 else 1 := by
  by_cases hc : 256 ≤ l.toNat + idx.toNat
  · simp [skipUnlessCarry, crosses, hc]
  · simp [skipUnlessCarry, crosses, hc]

/-! ## Branch targets -/

theorem sext16_toNat (b : Byte) : (sext16 b).toNat = if b.getLsbD 7 then 65280 + b.toNat else b.toNat := by
  revert b; decide

theorem getLsbD7_iff (b : Byte) : b.getLsbD 7 = true ↔ 128 ≤ b.toNat := by
  revert b; decide

/-- A branch that crosses no page has its target's high byte already (44_branch_jump.md R260 T2). -/
theorem setPcl_target {pc t : Word} (h : hi8 t = hi8 pc) : setPcl pc (lo8 t) = t := by
  rw [setPcl, ← h, cat_hi8_lo8]

/-- On a page crossing `PCH` moves by one page, in the direction of the offset's sign (R260 T3). -/
theorem setPch_target {pc : Word} {d : Byte} (h : ¬ hi8 (branchTarget pc d) = hi8 pc) :
    setPch (setPcl pc (lo8 (branchTarget pc d))) (hi8 pc + if d.getLsbD 7 then 0xFF#8 else 0x01#8) = branchTarget pc d := by
  have hpc := pc.isLt
  have hd := d.isLt
  have hb := getLsbD7_iff d
  have hs := sext16_toNat d
  have ht : (branchTarget pc d).toNat = (pc.toNat + (sext16 d).toNat) % 65536 := BitVec.toNat_add _ _
  have hne : ¬ (branchTarget pc d).toNat / 256 = pc.toNat / 256 := fun he =>
    h (BitVec.eq_of_toNat_eq (by rw [hi8_toNat, hi8_toNat, he]))
  rw [setPch_setPcl]
  apply BitVec.eq_of_toNat_eq
  rw [cat_toNat, BitVec.toNat_add, lo8_toNat, hi8_toNat]
  by_cases hd7 : d.getLsbD 7 = true
  · rw [if_pos hd7] at hs ⊢
    have := hb.1 hd7
    simp only [BitVec.toNat_ofNat]
    omega
  · rw [if_neg hd7] at hs ⊢
    have : ¬ 128 ≤ d.toNat := fun h' => hd7 (hb.2 h')
    simp only [BitVec.toNat_ofNat]
    omega

end Sys2Proof.Machine
end

