-- ==== Sys2Proof/Laws/Memory.lean ====
section
/-! SUPPORT. The laws of the canonical cell lists: a read after a write, and that a write keeps the canonical form and the
bound on the listed indexes. -/

namespace Sys2Proof.Machine

variable {w : Nat}

@[simp] theorem cellRead_nil (k : Nat) : cellRead ([] : List (Nat × BitVec w)) k = unlisted w := rfl

theorem cellRead_cons (p : Nat × BitVec w) (m : List (Nat × BitVec w)) (k : Nat) :
    cellRead (p :: m) k = if p.1 = k then p.2 else cellRead m k := rfl

/-- An index that no cell lists reads as the unlisted value. -/
theorem cellRead_of_forall_ne {m : List (Nat × BitVec w)} {k : Nat} (h : ∀ p ∈ m, p.1 ≠ k) :
    cellRead m k = unlisted w := by
  induction m with
  | nil => rfl
  | cons p m ih =>
    rw [cellRead_cons, if_neg (h p (by simp))]
    exact ih fun q hq => h q (by simp [hq])

theorem mem_cellErase {m : List (Nat × BitVec w)} {k : Nat} {p : Nat × BitVec w} (h : p ∈ cellErase m k) : p ∈ m := by
  induction m with
  | nil => simp [cellErase] at h
  | cons q m ih =>
    unfold cellErase at h
    split at h
    · exact List.mem_cons_of_mem _ h
    · rcases List.mem_cons.1 h with rfl | h
      · simp
      · exact List.mem_cons_of_mem _ (ih h)

theorem mem_cellInsert {m : List (Nat × BitVec w)} {k : Nat} {v : BitVec w} {p : Nat × BitVec w}
    (h : p ∈ cellInsert m k v) : p = (k, v) ∨ p ∈ m := by
  induction m with
  | nil => simpa [cellInsert] using h
  | cons q m ih =>
    unfold cellInsert at h
    split at h
    · simpa using h
    · split at h
      · rcases List.mem_cons.1 h with h | h
        · exact .inl h
        · exact .inr (List.mem_cons_of_mem _ h)
      · rcases List.mem_cons.1 h with rfl | h
        · simp
        · exact (ih h).imp id (List.mem_cons_of_mem _)

theorem cellErase_pairwise {m : List (Nat × BitVec w)} (k : Nat) (h : m.Pairwise fun p q => p.1 < q.1) :
    (cellErase m k).Pairwise fun p q => p.1 < q.1 := by
  induction m with
  | nil => exact h
  | cons q m ih =>
    rw [List.pairwise_cons] at h
    unfold cellErase
    split
    · exact h.2
    · exact List.pairwise_cons.2 ⟨fun p hp => h.1 p (mem_cellErase hp), ih h.2⟩

theorem cellInsert_pairwise {m : List (Nat × BitVec w)} (k : Nat) (v : BitVec w)
    (h : m.Pairwise fun p q => p.1 < q.1) : (cellInsert m k v).Pairwise fun p q => p.1 < q.1 := by
  induction m with
  | nil => simp [cellInsert]
  | cons q m ih =>
    have hq := List.pairwise_cons.1 h
    unfold cellInsert
    split
    · rename_i hk
      refine List.pairwise_cons.2 ⟨fun p hp => ?_, h⟩
      rcases List.mem_cons.1 hp with rfl | hp
      · exact hk
      · exact Nat.lt_trans hk (hq.1 p hp)
    · split
      · rename_i _ hk
        exact List.pairwise_cons.2 ⟨fun p hp => hk ▸ hq.1 p hp, hq.2⟩
      · refine List.pairwise_cons.2 ⟨fun p hp => ?_, ih hq.2⟩
        rcases mem_cellInsert hp with rfl | hp
        · simp only; omega
        · exact hq.1 p hp

/-- A write keeps the canonical form. -/
theorem cellWrite_wf {m : List (Nat × BitVec w)} (k : Nat) (v : BitVec w) (h : cellsWf m) : cellsWf (cellWrite m k v) := by
  unfold cellWrite
  split
  · exact ⟨cellErase_pairwise k h.1, fun p hp => h.2 p (mem_cellErase hp)⟩
  · rename_i hv
    refine ⟨cellInsert_pairwise k v h.1, fun p hp => ?_⟩
    rcases mem_cellInsert hp with rfl | hp
    · exact hv
    · exact h.2 p hp

/-- A write keeps the bound on the listed indexes. -/
theorem cellWrite_below {m : List (Nat × BitVec w)} {n k : Nat} (v : BitVec w) (hk : k < n) (h : cellsBelow n m) :
    cellsBelow n (cellWrite m k v) := by
  intro p hp
  unfold cellWrite at hp
  split at hp
  · exact h p (mem_cellErase hp)
  · rcases mem_cellInsert hp with rfl | hp
    · exact hk
    · exact h p hp

theorem cellRead_cellInsert (m : List (Nat × BitVec w)) (k j : Nat) (v : BitVec w) :
    cellRead (cellInsert m k v) j = if k = j then v else cellRead m j := by
  induction m with
  | nil => rfl
  | cons q m ih =>
    unfold cellInsert
    split
    · rfl
    · split
      · rename_i _ hq
        simp only [cellRead_cons, hq]
        split <;> rfl
      · rename_i _ hq
        simp only [cellRead_cons, ih]
        by_cases hj : q.1 = j
        · have : ¬ k = j := by omega
          simp [hj, this]
        · simp [hj]

theorem cellRead_cellErase_other (m : List (Nat × BitVec w)) {k j : Nat} (h : k ≠ j) :
    cellRead (cellErase m k) j = cellRead m j := by
  induction m with
  | nil => rfl
  | cons q m ih =>
    unfold cellErase
    split
    · rename_i hq
      rw [cellRead_cons, if_neg (by omega)]
    · simp only [cellRead_cons, ih]

theorem cellRead_cellErase_same {m : List (Nat × BitVec w)} (k : Nat) (h : m.Pairwise fun p q => p.1 < q.1) :
    cellRead (cellErase m k) k = unlisted w := by
  induction m with
  | nil => rfl
  | cons q m ih =>
    have hq := List.pairwise_cons.1 h
    unfold cellErase
    split
    · rename_i hk
      exact cellRead_of_forall_ne fun p hp => by have := hq.1 p hp; omega
    · rename_i hk
      rw [cellRead_cons, if_neg hk, ih hq.2]

/-- A read of another index after a write. -/
theorem cellRead_cellWrite_other (m : List (Nat × BitVec w)) {k j : Nat} (v : BitVec w) (h : k ≠ j) :
    cellRead (cellWrite m k v) j = cellRead m j := by
  unfold cellWrite
  split
  · exact cellRead_cellErase_other m h
  · rw [cellRead_cellInsert, if_neg h]

/-- A read of the index just written. -/
theorem cellRead_cellWrite_same {m : List (Nat × BitVec w)} (k : Nat) (v : BitVec w) (h : cellsWf m) :
    cellRead (cellWrite m k v) k = v := by
  unfold cellWrite
  split
  · rename_i hv
    rw [cellRead_cellErase_same k h.1, hv]
  · rw [cellRead_cellInsert, if_pos rfl]

/-- Two canonical lists that read the same are the same: equal memories are equal data. -/
theorem cells_ext {m n : List (Nat × BitVec w)} (hm : cellsWf m) (hn : cellsWf n)
    (h : ∀ k, cellRead m k = cellRead n k) : m = n := by
  induction m generalizing n with
  | nil =>
    cases n with
    | nil => rfl
    | cons q n =>
      have := h q.1
      rw [cellRead_nil, cellRead_cons, if_pos rfl] at this
      exact absurd this.symm (hn.2 q (by simp))
  | cons p m ih =>
    cases n with
    | nil =>
      have := h p.1
      rw [cellRead_nil, cellRead_cons, if_pos rfl] at this
      exact absurd this (hm.2 p (by simp))
    | cons q n =>
      have hp := List.pairwise_cons.1 hm.1
      have hq := List.pairwise_cons.1 hn.1
      have hmr : ∀ k ≤ p.1, cellRead m k = unlisted w := fun k hk =>
        cellRead_of_forall_ne fun r hr => by have := hp.1 r hr; omega
      have hnr : ∀ k ≤ q.1, cellRead n k = unlisted w := fun k hk =>
        cellRead_of_forall_ne fun r hr => by have := hq.1 r hr; omega
      have hpv := hm.2 p (by simp)
      have hqv := hn.2 q (by simp)
      have key : p.1 = q.1 := by
        rcases Nat.lt_trichotomy p.1 q.1 with hlt | heq | hlt
        · have := h p.1
          rw [cellRead_cons, if_pos rfl, cellRead_cons, if_neg (by omega), hnr _ (by omega)] at this
          exact absurd this hpv
        · exact heq
        · have := h q.1
          rw [cellRead_cons, if_neg (by omega), hmr _ (by omega), cellRead_cons, if_pos rfl] at this
          exact absurd this.symm hqv
      have hval : p.2 = q.2 := by
        have := h p.1
        rwa [cellRead_cons, if_pos rfl, cellRead_cons, if_pos key.symm] at this
      have hrest : m = n := by
        refine ih ⟨hp.2, fun r hr => hm.2 r (by simp [hr])⟩ ⟨hq.2, fun r hr => hn.2 r (by simp [hr])⟩ fun k => ?_
        by_cases hk : p.1 = k
        · rw [hmr k (by omega), hnr k (by omega)]
        · have := h k
          rwa [cellRead_cons, if_neg hk, cellRead_cons, if_neg (by omega)] at this
      rw [hrest, Prod.ext key hval]

end Sys2Proof.Machine
end

