-- ==== Sys2Proof/Laws/State.lean ====
section
/-! SUPPORT. One lemma per field per named update of the state, true by rfl, so that no later proof unfolds one. -/

namespace Sys2Proof.Machine

@[simp] theorem onCpu_cpu (f : Cpu → Cpu) (s : State) : (s.onCpu f).cpu = f s.cpu := rfl
@[simp] theorem onCpu_pending (f : Cpu → Cpu) (s : State) : (s.onCpu f).pending = s.pending := rfl
@[simp] theorem onCpu_halted (f : Cpu → Cpu) (s : State) : (s.onCpu f).halted = s.halted := rfl
@[simp] theorem onCpu_ram (f : Cpu → Cpu) (s : State) : (s.onCpu f).ram = s.ram := rfl
@[simp] theorem onCpu_ppu (f : Cpu → Cpu) (s : State) : (s.onCpu f).ppu = s.ppu := rfl
@[simp] theorem onCpu_rom (f : Cpu → Cpu) (s : State) : (s.onCpu f).rom = s.rom := rfl
@[simp] theorem onCpu_draws (f : Cpu → Cpu) (s : State) : (s.onCpu f).draws = s.draws := rfl
@[simp] theorem onCpu_onCpu (f g : Cpu → Cpu) (s : State) : (s.onCpu f).onCpu g = s.onCpu fun c => g (f c) := rfl
@[simp] theorem onCpu_id (s : State) : (s.onCpu fun c => c) = s := rfl

@[simp] theorem advanceCursor_cpu (k : Nat) (s : State) :
    (advanceCursor k s).cpu = { s.cpu with cursor := s.cpu.cursor + 1 + k } := rfl
@[simp] theorem advanceCursor_pending (k : Nat) (s : State) : (advanceCursor k s).pending = s.pending := rfl
@[simp] theorem advanceCursor_halted (k : Nat) (s : State) : (advanceCursor k s).halted = s.halted := rfl
@[simp] theorem advanceCursor_ram (k : Nat) (s : State) : (advanceCursor k s).ram = s.ram := rfl
@[simp] theorem advanceCursor_ppu (k : Nat) (s : State) : (advanceCursor k s).ppu = s.ppu := rfl
@[simp] theorem advanceCursor_rom (k : Nat) (s : State) : (advanceCursor k s).rom = s.rom := rfl
@[simp] theorem advanceCursor_draws (k : Nat) (s : State) : (advanceCursor k s).draws = s.draws := rfl

@[simp] theorem incPc_a (c : Cpu) : (incPc c).a = c.a := rfl
@[simp] theorem incPc_x (c : Cpu) : (incPc c).x = c.x := rfl
@[simp] theorem incPc_y (c : Cpu) : (incPc c).y = c.y := rfl
@[simp] theorem incPc_s (c : Cpu) : (incPc c).s = c.s := rfl
@[simp] theorem incPc_pc (c : Cpu) : (incPc c).pc = c.pc + 1#16 := rfl
@[simp] theorem incPc_p (c : Cpu) : (incPc c).p = c.p := rfl
@[simp] theorem incPc_latch (c : Cpu) : (incPc c).latch = c.latch := rfl
@[simp] theorem incPc_ir (c : Cpu) : (incPc c).ir = c.ir := rfl
@[simp] theorem incPc_cursor (c : Cpu) : (incPc c).cursor = c.cursor := rfl

@[simp] theorem incS_a (c : Cpu) : (incS c).a = c.a := rfl
@[simp] theorem incS_x (c : Cpu) : (incS c).x = c.x := rfl
@[simp] theorem incS_y (c : Cpu) : (incS c).y = c.y := rfl
@[simp] theorem incS_s (c : Cpu) : (incS c).s = c.s + 1#8 := rfl
@[simp] theorem incS_pc (c : Cpu) : (incS c).pc = c.pc := rfl
@[simp] theorem incS_p (c : Cpu) : (incS c).p = c.p := rfl
@[simp] theorem incS_latch (c : Cpu) : (incS c).latch = c.latch := rfl
@[simp] theorem incS_ir (c : Cpu) : (incS c).ir = c.ir := rfl
@[simp] theorem incS_cursor (c : Cpu) : (incS c).cursor = c.cursor := rfl

@[simp] theorem decS_a (c : Cpu) : (decS c).a = c.a := rfl
@[simp] theorem decS_x (c : Cpu) : (decS c).x = c.x := rfl
@[simp] theorem decS_y (c : Cpu) : (decS c).y = c.y := rfl
@[simp] theorem decS_s (c : Cpu) : (decS c).s = c.s - 1#8 := rfl
@[simp] theorem decS_pc (c : Cpu) : (decS c).pc = c.pc := rfl
@[simp] theorem decS_p (c : Cpu) : (decS c).p = c.p := rfl
@[simp] theorem decS_latch (c : Cpu) : (decS c).latch = c.latch := rfl
@[simp] theorem decS_ir (c : Cpu) : (decS c).ir = c.ir := rfl
@[simp] theorem decS_cursor (c : Cpu) : (decS c).cursor = c.cursor := rfl

@[simp] theorem setLo_a (v : Byte) (c : Cpu) : (setLo v c).a = c.a := rfl
@[simp] theorem setLo_x (v : Byte) (c : Cpu) : (setLo v c).x = c.x := rfl
@[simp] theorem setLo_y (v : Byte) (c : Cpu) : (setLo v c).y = c.y := rfl
@[simp] theorem setLo_s (v : Byte) (c : Cpu) : (setLo v c).s = c.s := rfl
@[simp] theorem setLo_pc (v : Byte) (c : Cpu) : (setLo v c).pc = c.pc := rfl
@[simp] theorem setLo_p (v : Byte) (c : Cpu) : (setLo v c).p = c.p := rfl
@[simp] theorem setLo_latch (v : Byte) (c : Cpu) : (setLo v c).latch = { c.latch with lo := v } := rfl
@[simp] theorem setLo_ir (v : Byte) (c : Cpu) : (setLo v c).ir = c.ir := rfl
@[simp] theorem setLo_cursor (v : Byte) (c : Cpu) : (setLo v c).cursor = c.cursor := rfl

@[simp] theorem setHi_a (v : Byte) (c : Cpu) : (setHi v c).a = c.a := rfl
@[simp] theorem setHi_x (v : Byte) (c : Cpu) : (setHi v c).x = c.x := rfl
@[simp] theorem setHi_y (v : Byte) (c : Cpu) : (setHi v c).y = c.y := rfl
@[simp] theorem setHi_s (v : Byte) (c : Cpu) : (setHi v c).s = c.s := rfl
@[simp] theorem setHi_pc (v : Byte) (c : Cpu) : (setHi v c).pc = c.pc := rfl
@[simp] theorem setHi_p (v : Byte) (c : Cpu) : (setHi v c).p = c.p := rfl
@[simp] theorem setHi_latch (v : Byte) (c : Cpu) : (setHi v c).latch = { c.latch with hi := v } := rfl
@[simp] theorem setHi_ir (v : Byte) (c : Cpu) : (setHi v c).ir = c.ir := rfl
@[simp] theorem setHi_cursor (v : Byte) (c : Cpu) : (setHi v c).cursor = c.cursor := rfl

@[simp] theorem setData_a (v : Byte) (c : Cpu) : (setData v c).a = c.a := rfl
@[simp] theorem setData_x (v : Byte) (c : Cpu) : (setData v c).x = c.x := rfl
@[simp] theorem setData_y (v : Byte) (c : Cpu) : (setData v c).y = c.y := rfl
@[simp] theorem setData_s (v : Byte) (c : Cpu) : (setData v c).s = c.s := rfl
@[simp] theorem setData_pc (v : Byte) (c : Cpu) : (setData v c).pc = c.pc := rfl
@[simp] theorem setData_p (v : Byte) (c : Cpu) : (setData v c).p = c.p := rfl
@[simp] theorem setData_latch (v : Byte) (c : Cpu) : (setData v c).latch = { c.latch with data := v } := rfl
@[simp] theorem setData_ir (v : Byte) (c : Cpu) : (setData v c).ir = c.ir := rfl
@[simp] theorem setData_cursor (v : Byte) (c : Cpu) : (setData v c).cursor = c.cursor := rfl

@[simp] theorem carryHi_a (c : Cpu) : (carryHi c).a = c.a := rfl
@[simp] theorem carryHi_x (c : Cpu) : (carryHi c).x = c.x := rfl
@[simp] theorem carryHi_y (c : Cpu) : (carryHi c).y = c.y := rfl
@[simp] theorem carryHi_s (c : Cpu) : (carryHi c).s = c.s := rfl
@[simp] theorem carryHi_pc (c : Cpu) : (carryHi c).pc = c.pc := rfl
@[simp] theorem carryHi_p (c : Cpu) : (carryHi c).p = c.p := rfl
@[simp] theorem carryHi_latch (c : Cpu) : (carryHi c).latch = { c.latch with hi := c.latch.hi + 1#8 } := rfl
@[simp] theorem carryHi_ir (c : Cpu) : (carryHi c).ir = c.ir := rfl
@[simp] theorem carryHi_cursor (c : Cpu) : (carryHi c).cursor = c.cursor := rfl

@[simp] theorem addLo_a (v : Byte) (c : Cpu) : (addLo v c).a = c.a := rfl
@[simp] theorem addLo_x (v : Byte) (c : Cpu) : (addLo v c).x = c.x := rfl
@[simp] theorem addLo_y (v : Byte) (c : Cpu) : (addLo v c).y = c.y := rfl
@[simp] theorem addLo_s (v : Byte) (c : Cpu) : (addLo v c).s = c.s := rfl
@[simp] theorem addLo_pc (v : Byte) (c : Cpu) : (addLo v c).pc = c.pc := rfl
@[simp] theorem addLo_p (v : Byte) (c : Cpu) : (addLo v c).p = c.p := rfl
@[simp] theorem addLo_latch (v : Byte) (c : Cpu) : (addLo v c).latch = { c.latch with lo := c.latch.lo + v } := rfl
@[simp] theorem addLo_ir (v : Byte) (c : Cpu) : (addLo v c).ir = c.ir := rfl
@[simp] theorem addLo_cursor (v : Byte) (c : Cpu) : (addLo v c).cursor = c.cursor := rfl

@[simp] theorem setNZ_v (v : Byte) (p : Flags) : (setNZ v p).v = p.v := rfl
@[simp] theorem setNZ_b (v : Byte) (p : Flags) : (setNZ v p).b = p.b := rfl
@[simp] theorem setNZ_d (v : Byte) (p : Flags) : (setNZ v p).d = p.d := rfl
@[simp] theorem setNZ_i (v : Byte) (p : Flags) : (setNZ v p).i = p.i := rfl
@[simp] theorem setNZ_c (v : Byte) (p : Flags) : (setNZ v p).c = p.c := rfl
@[simp] theorem setNZ_n (v : Byte) (p : Flags) : (setNZ v p).n = v.getLsbD 7 := rfl
@[simp] theorem setNZ_z (v : Byte) (p : Flags) : (setNZ v p).z = (v == 0x00#8) := rfl

@[simp] theorem atPc_eq (c : Cpu) : atPc c = c.pc := rfl
@[simp] theorem atStack_eq (c : Cpu) : atStack c = stackAddr c.s := rfl
@[simp] theorem atLatch_eq (c : Cpu) : atLatch c = cat c.latch.hi c.latch.lo := rfl
@[simp] theorem atZeroPageLo_eq (c : Cpu) : atZeroPageLo c = zeroPage c.latch.lo := rfl
@[simp] theorem izyHiAddr_eq (c : Cpu) : izyHiAddr c = zeroPage (c.latch.data + 1#8) := rfl

@[simp] theorem ppuCtrlWrite_vram (v : Byte) (p : Ppu) : (ppuCtrlWrite v p).vram = p.vram := rfl
@[simp] theorem ppuStatusRead_vram (p : Ppu) : (ppuStatusRead p).vram = p.vram := rfl

end Sys2Proof.Machine
end

