-- ==== Sys2Proof/Laws/Ppu.lean ====
section
/-! SUPPORT. What a PPU tick can change, that it commutes with what the CPU changes, and that it keeps the PPU's
invariant. -/

namespace Sys2Proof.Machine

/-! ## Frame -/

@[simp] theorem ppuTick_cpu (s : State) : (ppuTick s).cpu = s.cpu := by unfold ppuTick; split <;> rfl
@[simp] theorem ppuTick_halted (s : State) : (ppuTick s).halted = s.halted := by unfold ppuTick; split <;> rfl
@[simp] theorem ppuTick_ram (s : State) : (ppuTick s).ram = s.ram := by unfold ppuTick; split <;> rfl
@[simp] theorem ppuTick_rom (s : State) : (ppuTick s).rom = s.rom := by unfold ppuTick; split <;> rfl
@[simp] theorem ppuTick_draws (s : State) : (ppuTick s).draws = s.draws := by unfold ppuTick; split <;> rfl

/-- What a PPU tick does while the machine runs. -/
theorem ppuTick_of_running {s : State} (h : s.halted = none) :
    ppuTick s = { s with ppu := ppuAdvance (ppuAct s.rom s.ppu), pending := pendingAfter s.ppu s.pending } := by
  simp [ppuTick, h]

@[simp] theorem ppuTicks_zero (s : State) : ppuTicks 0 s = s := rfl
theorem ppuTicks_succ (n : Nat) (s : State) : ppuTicks (n + 1) s = ppuTicks n (ppuTick s) := rfl

theorem ppuTicks_add (m n : Nat) (s : State) : ppuTicks (m + n) s = ppuTicks n (ppuTicks m s) := by
  induction m generalizing s with
  | zero => simp
  | succ m ih => rw [Nat.succ_add, ppuTicks_succ, ppuTicks_succ, ih]

/-- A property every PPU tick keeps, `n` PPU ticks keep. -/
theorem ppuTicks_keep {P : State → Prop} (h : ∀ s, P s → P (ppuTick s)) (n : Nat) {s : State} (hs : P s) :
    P (ppuTicks n s) := by
  induction n generalizing s with
  | zero => exact hs
  | succ n ih => exact ih (h s hs)

@[simp] theorem ppuTicks_cpu (n : Nat) (s : State) : (ppuTicks n s).cpu = s.cpu :=
  ppuTicks_keep (P := fun t => t.cpu = s.cpu) (fun t h => by simp [h]) n rfl
@[simp] theorem ppuTicks_halted (n : Nat) (s : State) : (ppuTicks n s).halted = s.halted :=
  ppuTicks_keep (P := fun t => t.halted = s.halted) (fun t h => by simp [h]) n rfl
@[simp] theorem ppuTicks_ram (n : Nat) (s : State) : (ppuTicks n s).ram = s.ram :=
  ppuTicks_keep (P := fun t => t.ram = s.ram) (fun t h => by simp [h]) n rfl
@[simp] theorem ppuTicks_rom (n : Nat) (s : State) : (ppuTicks n s).rom = s.rom :=
  ppuTicks_keep (P := fun t => t.rom = s.rom) (fun t h => by simp [h]) n rfl
@[simp] theorem ppuTicks_draws (n : Nat) (s : State) : (ppuTicks n s).draws = s.draws :=
  ppuTicks_keep (P := fun t => t.draws = s.draws) (fun t h => by simp [h]) n rfl

@[simp] theorem afterPpu_cpu (n : Nat) (s : State) : (afterPpu n s).cpu = s.cpu := ppuTicks_cpu _ s
@[simp] theorem afterPpu_halted (n : Nat) (s : State) : (afterPpu n s).halted = s.halted := ppuTicks_halted _ s
@[simp] theorem afterPpu_ram (n : Nat) (s : State) : (afterPpu n s).ram = s.ram := ppuTicks_ram _ s
@[simp] theorem afterPpu_rom (n : Nat) (s : State) : (afterPpu n s).rom = s.rom := ppuTicks_rom _ s
@[simp] theorem afterPpu_draws (n : Nat) (s : State) : (afterPpu n s).draws = s.draws := ppuTicks_draws _ s
@[simp] theorem afterPpu_zero (s : State) : afterPpu 0 s = s := rfl

theorem ppuShare_eq (s : State) : ppuShare s = afterPpu 1 s := rfl

@[simp] theorem afterPpu_afterPpu (m n : Nat) (s : State) : afterPpu n (afterPpu m s) = afterPpu (m + n) s := by
  rw [afterPpu, afterPpu, afterPpu, ← ppuTicks_add, Nat.mul_add]

/-- A halted machine's PPU does nothing (60_exceptions.md R343). -/
theorem ppuTicks_of_halted {s : State} {f : Fault} (h : s.halted = some f) (n : Nat) : ppuTicks n s = s :=
  ppuTicks_keep (P := fun t => t = s) (fun t ht => by subst ht; simp [ppuTick, h]) n rfl

/-! ## The PPU does not look at the CPU or at RAM -/

theorem ppuTick_with (s : State) (c : Cpu) (m : Memory) :
    ppuTick { s with cpu := c, ram := m } = { ppuTick s with cpu := c, ram := m } := by
  unfold ppuTick
  split <;> simp_all

theorem ppuTicks_with (n : Nat) (s : State) (c : Cpu) (m : Memory) :
    ppuTicks n { s with cpu := c, ram := m } = { ppuTicks n s with cpu := c, ram := m } := by
  induction n generalizing s with
  | zero => rfl
  | succ n ih => rw [ppuTicks_succ, ppuTick_with, ih, ppuTicks_succ]

theorem afterPpu_with (n : Nat) (s : State) (c : Cpu) (m : Memory) :
    afterPpu n { s with cpu := c, ram := m } = { afterPpu n s with cpu := c, ram := m } := ppuTicks_with _ s c m

/-! ## What no PPU tick changes in the PPU -/

theorem ppuAct_position (r : Rom) (p : Ppu) : (ppuAct r p).dot = p.dot ∧ (ppuAct r p).scanline = p.scanline := by
  unfold ppuAct render; repeat' split
  all_goals exact ⟨rfl, rfl⟩

theorem ppuAdvance_frame (p : Ppu) :
    (ppuAdvance p).vblank = p.vblank ∧ (ppuAdvance p).fb = p.fb ∧ (ppuAdvance p).frames = p.frames ∧
      (ppuAdvance p).lastFrame = p.lastFrame := by
  unfold ppuAdvance; repeat' split
  all_goals exact ⟨rfl, rfl, rfl, rfl⟩

theorem ppuTick_kept (s : State) :
    (ppuTick s).ppu.vram = s.ppu.vram ∧ (ppuTick s).ppu.nmiEnable = s.ppu.nmiEnable ∧
      (ppuTick s).ppu.patternHalf = s.ppu.patternHalf ∧ (ppuTick s).ppu.vramInc32 = s.ppu.vramInc32 ∧
      (ppuTick s).ppu.vramAddr = s.ppu.vramAddr ∧ (ppuTick s).ppu.wlatch = s.ppu.wlatch := by
  unfold ppuTick ppuAdvance ppuAct render
  repeat' split
  all_goals exact ⟨rfl, rfl, rfl, rfl, rfl, rfl⟩

/-- PPU work changes none of VRAM, the control bits and the address state (48_ppu.md R305). -/
theorem afterPpu_kept (n : Nat) (s : State) :
    (afterPpu n s).ppu.vram = s.ppu.vram ∧ (afterPpu n s).ppu.nmiEnable = s.ppu.nmiEnable ∧
      (afterPpu n s).ppu.patternHalf = s.ppu.patternHalf ∧ (afterPpu n s).ppu.vramInc32 = s.ppu.vramInc32 ∧
      (afterPpu n s).ppu.vramAddr = s.ppu.vramAddr ∧ (afterPpu n s).ppu.wlatch = s.ppu.wlatch :=
  ppuTicks_keep
    (P := fun t => t.ppu.vram = s.ppu.vram ∧ t.ppu.nmiEnable = s.ppu.nmiEnable ∧ t.ppu.patternHalf = s.ppu.patternHalf ∧
      t.ppu.vramInc32 = s.ppu.vramInc32 ∧ t.ppu.vramAddr = s.ppu.vramAddr ∧ t.ppu.wlatch = s.ppu.wlatch)
    (fun t h => by
      obtain ⟨h1, h2, h3, h4, h5, h6⟩ := h
      obtain ⟨k1, k2, k3, k4, k5, k6⟩ := ppuTick_kept t
      exact ⟨k1.trans h1, k2.trans h2, k3.trans h3, k4.trans h4, k5.trans h5, k6.trans h6⟩) _
    ⟨rfl, rfl, rfl, rfl, rfl, rfl⟩

/-! ## Interrupt requests -/

/-- A PPU tick leaves `pending` or sets it to NMI (48_ppu.md R312, R313). -/
theorem ppuTick_pending (s : State) : (ppuTick s).pending = s.pending ∨ (ppuTick s).pending = .nmi := by
  unfold ppuTick
  split
  · exact .inl rfl
  · unfold pendingAfter
    simp only
    split
    · exact .inr rfl
    · exact .inl rfl

theorem ppuTicks_pending (n : Nat) (s : State) : (ppuTicks n s).pending = s.pending ∨ (ppuTicks n s).pending = .nmi :=
  ppuTicks_keep (P := fun t => t.pending = s.pending ∨ t.pending = .nmi)
    (fun t h => by rcases ppuTick_pending t with ht | ht <;> simp_all) n (.inl rfl)

/-- What is not NMI after `m + n` system steps of PPU work was the same after `m`. -/
theorem afterPpu_pending_of_later {s : State} {m n : Nat} (hmn : m ≤ n) (h : (afterPpu n s).pending ≠ .nmi) :
    (afterPpu m s).pending = (afterPpu n s).pending := by
  obtain ⟨k, rfl⟩ := Nat.exists_eq_add_of_le hmn
  rw [← afterPpu_afterPpu] at h ⊢
  rcases ppuTicks_pending (3 * k) (afterPpu m s) with h' | h'
  · exact h'.symm
  · exact absurd h' h

/-! ## The PPU's invariant -/

theorem ppuAdvance_inv {p : Ppu} (h : p.Inv) : (ppuAdvance p).Inv := by
  obtain ⟨h1, h2, h3⟩ := h
  unfold ppuAdvance
  split
  · exact ⟨by simp only; omega, h2, h3⟩
  · split
    · exact ⟨Nat.zero_le _, Nat.zero_le _, h3⟩
    · exact ⟨Nat.zero_le _, by simp only; omega, h3⟩

theorem ppuAct_inv (r : Rom) {p : Ppu} (h : p.Inv) : (ppuAct r p).Inv := by
  obtain ⟨h1, h2, h3, h4, h5, h6⟩ := h
  unfold ppuAct
  split
  · split
    · refine ⟨h1, h2, h3, h4, cellWrite_wf _ _ h5, cellWrite_below _ ?_ h6⟩
      simp only [fbIndex, Config.frameWidth, Config.frameHeight]
      omega
    · exact ⟨h1, h2, h3, h4, h5, h6⟩
  · split
    · exact ⟨h1, h2, h3, h4, h5, h6⟩
    · split
      · exact ⟨h1, h2, h3, h4, h5, h6⟩
      · split <;> exact ⟨h1, h2, h3, h4, h5, h6⟩

theorem ppuTick_inv {s : State} (h : s.ppu.Inv) : (ppuTick s).ppu.Inv := by
  unfold ppuTick
  split
  · exact h
  · exact ppuAdvance_inv (ppuAct_inv _ h)

theorem ppuTicks_inv (n : Nat) {s : State} (h : s.ppu.Inv) : (ppuTicks n s).ppu.Inv :=
  ppuTicks_keep (P := fun t => t.ppu.Inv) (fun _ => ppuTick_inv) n h

theorem afterPpu_inv (n : Nat) {s : State} (h : s.ppu.Inv) : (afterPpu n s).ppu.Inv := ppuTicks_inv _ h

theorem vramOffset_lt (a : BitVec 14) : vramOffset a < Config.vramSize := by
  have : (a &&& 0x07FF#14).toNat ≤ 0x07FF := by
    rw [BitVec.toNat_and]; exact Nat.and_le_right
  unfold vramOffset Config.vramSize
  omega

end Sys2Proof.Machine
end

