-- ==== Sys2Proof/Laws/Bus.lean ====
section
/-! SUPPORT. Everything a bus access can do, and its form where the address is plain. -/

namespace Sys2Proof.Machine

theorem ramIndex_lt (a : Word) : ramIndex a < Config.ramSize := by
  have : (a &&& 0x07FF#16).toNat ≤ 0x07FF := by
    rw [BitVec.toNat_and]; exact Nat.and_le_right
  unfold ramIndex Config.ramSize
  omega

theorem plain_iff {a : Word} : plain a = true ↔ a.toNat < 0x2000 ∨ 0x8000 ≤ a.toNat := by simp [plain]

/-- A plain read: no side effect, no fault (20_memory.md R71). -/
theorem busRead_plain {a : Word} (s : State) (h : plain a = true) : busRead a s = .ok (peek s a, s) := by
  rcases plain_iff.1 h with h | h
  · simp [busRead, peek, h]
  · have h1 : ¬ a.toNat < 0x2000 := by omega
    have h2 : ¬ a.toNat < 0x4000 := by omega
    have h3 : ¬ a.toNat ≤ 0x4017 := by omega
    have h4 : ¬ a.toNat < 0x8000 := by omega
    simp [busRead, peek, h1, h2, h3, h4]

/-- The byte at a plain address depends on RAM and the launch constants alone. -/
theorem peek_congr {s t : State} (hr : t.ram = s.ram) (hm : t.rom = s.rom) (a : Word) : peek t a = peek s a := by
  simp [peek, hr, hm]

@[simp] theorem ppuPortRead_cpu (q : Nat) (s : State) : (ppuPortRead q s).2.cpu = s.cpu := by
  unfold ppuPortRead; split <;> rfl
@[simp] theorem ppuPortRead_ram (q : Nat) (s : State) : (ppuPortRead q s).2.ram = s.ram := by
  unfold ppuPortRead; split <;> rfl
@[simp] theorem ppuPortRead_rom (q : Nat) (s : State) : (ppuPortRead q s).2.rom = s.rom := by
  unfold ppuPortRead; split <;> rfl
@[simp] theorem ppuPortRead_halted (q : Nat) (s : State) : (ppuPortRead q s).2.halted = s.halted := by
  unfold ppuPortRead; split <;> rfl
@[simp] theorem ppuPortRead_pending (q : Nat) (s : State) : (ppuPortRead q s).2.pending = s.pending := by
  unfold ppuPortRead; split <;> rfl

/-- Everything a read can do: RAM, a port, the stub, a fault in the hole, PRG (20_memory.md R61). -/
theorem busRead_cases (a : Word) (s : State) :
    (a.toNat < 0x2000 ∧ busRead a s = .ok (cellRead s.ram (ramIndex a), s)) ∨
    (0x2000 ≤ a.toNat ∧ a.toNat < 0x4000 ∧ busRead a s = .ok (ppuPortRead (portOf a) s)) ∨
    (0x4000 ≤ a.toNat ∧ a.toNat ≤ 0x4017 ∧
      busRead a s = .ok (Config.stubRead s.draws, { s with draws := s.draws + 1 })) ∨
    (0x4018 ≤ a.toNat ∧ a.toNat < 0x8000 ∧ busRead a s = .error (.busFault a)) ∨
    (0x8000 ≤ a.toNat ∧ busRead a s = .ok (cellRead s.rom.prg (prgIndex s.rom a), s)) := by
  unfold busRead
  split
  · exact .inl ⟨‹_›, rfl⟩
  · split
    · exact .inr (.inl ⟨by omega, ‹_›, rfl⟩)
    · split
      · exact .inr (.inr (.inl ⟨by omega, ‹_›, rfl⟩))
      · split
        · exact .inr (.inr (.inr (.inl ⟨by omega, ‹_›, rfl⟩)))
        · exact .inr (.inr (.inr (.inr ⟨by omega, rfl⟩)))

/-- What every read keeps. -/
theorem busRead_frame {a : Word} {s t : State} {v : Byte} (h : busRead a s = .ok (v, t)) :
    t.cpu = s.cpu ∧ t.pending = s.pending ∧ t.halted = s.halted ∧ t.ram = s.ram ∧ t.rom = s.rom := by
  rcases busRead_cases a s with ⟨_, e⟩ | ⟨_, _, e⟩ | ⟨_, _, e⟩ | ⟨_, _, e⟩ | ⟨_, e⟩ <;> rw [e] at h
  · cases h; exact ⟨rfl, rfl, rfl, rfl, rfl⟩
  · obtain rfl : (ppuPortRead (portOf a) s).2 = t := by rw [Except.ok.inj h]
    simp
  · cases h; exact ⟨rfl, rfl, rfl, rfl, rfl⟩
  · cases h
  · cases h; exact ⟨rfl, rfl, rfl, rfl, rfl⟩

/-- A read faults only in the hole, with the address read (20_memory.md R67, 60_exceptions.md R341). -/
theorem busRead_error {a : Word} {s : State} {f : Fault} (h : busRead a s = .error f) :
    f = .busFault a ∧ 0x4018 ≤ a.toNat ∧ a.toNat < 0x8000 := by
  rcases busRead_cases a s with ⟨_, e⟩ | ⟨_, _, e⟩ | ⟨_, _, e⟩ | ⟨h1, h2, e⟩ | ⟨_, e⟩ <;> rw [e] at h <;> cases h
  exact ⟨rfl, h1, h2⟩

theorem ppuPortRead_with (q : Nat) (s : State) (c : Cpu) (m : Memory) :
    ppuPortRead q { s with cpu := c, ram := m } =
      ((ppuPortRead q s).1, { (ppuPortRead q s).2 with cpu := c, ram := m }) := by
  unfold ppuPortRead; split <;> rfl

/-- A read does not look at the CPU. -/
theorem busRead_with_cpu (a : Word) (s : State) (c : Cpu) :
    busRead a { s with cpu := c } =
      (match busRead a s with
        | .ok (v, t) => .ok (v, { t with cpu := c })
        | .error f => .error f) := by
  unfold busRead
  split
  · rfl
  · split
    · simp only [ppuPortRead]; split <;> rfl
    · split
      · rfl
      · split <;> rfl

theorem busRead_with_cpu_ok {a : Word} {s t : State} {v : Byte} (c : Cpu) (h : busRead a s = .ok (v, t)) :
    busRead a { s with cpu := c } = .ok (v, { t with cpu := c }) := by
  rw [busRead_with_cpu, h]

/-- A port read keeps the PPU's invariant. -/
theorem ppuPortRead_inv (q : Nat) {s : State} (h : s.ppu.Inv) : (ppuPortRead q s).2.ppu.Inv := by
  unfold ppuPortRead; split <;> exact h

theorem busRead_inv {a : Word} {s t : State} {v : Byte} (h : busRead a s = .ok (v, t)) (hi : s.ppu.Inv) : t.ppu.Inv := by
  rcases busRead_cases a s with ⟨_, e⟩ | ⟨_, _, e⟩ | ⟨_, _, e⟩ | ⟨_, _, e⟩ | ⟨_, e⟩ <;> rw [e] at h
  · cases h; exact hi
  · obtain rfl : (ppuPortRead (portOf a) s).2 = t := by rw [Except.ok.inj h]
    exact ppuPortRead_inv _ hi
  · cases h; exact hi
  · cases h
  · cases h; exact hi

/-- A read keeps VRAM, the control bits and the address: a status read clears `vblank` and resets `wlatch` (48_ppu.md R317). -/
theorem busRead_ppu {a : Word} {s t : State} {v : Byte} (h : busRead a s = .ok (v, t)) :
    t.ppu.vram = s.ppu.vram ∧ t.ppu.nmiEnable = s.ppu.nmiEnable ∧ t.ppu.patternHalf = s.ppu.patternHalf ∧
      t.ppu.vramInc32 = s.ppu.vramInc32 ∧ t.ppu.vramAddr = s.ppu.vramAddr ∧
      (t.ppu.wlatch = s.ppu.wlatch ∨ t.ppu.wlatch = .first) := by
  rcases busRead_cases a s with ⟨_, e⟩ | ⟨_, _, e⟩ | ⟨_, _, e⟩ | ⟨_, _, e⟩ | ⟨_, e⟩ <;> rw [e] at h
  · cases h; exact ⟨rfl, rfl, rfl, rfl, rfl, .inl rfl⟩
  · obtain rfl : (ppuPortRead (portOf a) s).2 = t := by rw [Except.ok.inj h]
    unfold ppuPortRead; split
    · exact ⟨rfl, rfl, rfl, rfl, rfl, .inr rfl⟩
    · exact ⟨rfl, rfl, rfl, rfl, rfl, .inl rfl⟩
  · cases h; exact ⟨rfl, rfl, rfl, rfl, rfl, .inl rfl⟩
  · cases h
  · cases h; exact ⟨rfl, rfl, rfl, rfl, rfl, .inl rfl⟩

/-- The port number is the address modulo 8 (20_memory.md R64). -/
theorem portOf_eq (a : Word) : portOf a = a.toNat % 8 := by
  unfold portOf; rw [BitVec.toNat_and]; exact Nat.and_two_pow_sub_one_eq_mod a.toNat 3

/-- The mask of a power of two is the remainder (20_memory.md R66, 48_ppu.md R310). -/
theorem isPow2_and {n : Nat} (h : isPow2 n) (k : Nat) : k &&& (n - 1) = k % n := by
  obtain ⟨e, rfl⟩ : ∃ e, n = 2 ^ e := (Nat.and_sub_one_eq_zero_iff_isPowerOfTwo h.1).1 h.2
  exact Nat.and_two_pow_sub_one_eq_mod k e

/-! ## Writes -/

@[simp] theorem ppuPortWrite_cpu (q : Nat) (v : Byte) (s : State) : (ppuPortWrite q v s).cpu = s.cpu := by
  unfold ppuPortWrite; repeat' split
  all_goals rfl
@[simp] theorem ppuPortWrite_ram (q : Nat) (v : Byte) (s : State) : (ppuPortWrite q v s).ram = s.ram := by
  unfold ppuPortWrite; repeat' split
  all_goals rfl
@[simp] theorem ppuPortWrite_rom (q : Nat) (v : Byte) (s : State) : (ppuPortWrite q v s).rom = s.rom := by
  unfold ppuPortWrite; repeat' split
  all_goals rfl
@[simp] theorem ppuPortWrite_halted (q : Nat) (v : Byte) (s : State) : (ppuPortWrite q v s).halted = s.halted := by
  unfold ppuPortWrite; repeat' split
  all_goals rfl
@[simp] theorem ppuPortWrite_pending (q : Nat) (v : Byte) (s : State) : (ppuPortWrite q v s).pending = s.pending := by
  unfold ppuPortWrite; repeat' split
  all_goals rfl

/-- Everything a write can do: RAM, a port, nothing at the stub, a fault (20_memory.md R62). -/
theorem busWrite_cases (a : Word) (v : Byte) (s : State) :
    (a.toNat < 0x2000 ∧ busWrite a v s = .ok { s with ram := cellWrite s.ram (ramIndex a) v }) ∨
    (0x2000 ≤ a.toNat ∧ a.toNat < 0x4000 ∧ busWrite a v s = .ok (ppuPortWrite (portOf a) v s)) ∨
    (0x4000 ≤ a.toNat ∧ a.toNat ≤ 0x4017 ∧ busWrite a v s = .ok s) ∨
    (0x4018 ≤ a.toNat ∧ busWrite a v s = .error (.busFault a)) := by
  unfold busWrite
  split
  · exact .inl ⟨‹_›, rfl⟩
  · split
    · exact .inr (.inl ⟨by omega, ‹_›, rfl⟩)
    · split
      · exact .inr (.inr (.inl ⟨by omega, ‹_›, rfl⟩))
      · split <;> exact .inr (.inr (.inr ⟨by omega, rfl⟩))

/-- What every write keeps. -/
theorem busWrite_frame {a : Word} {v : Byte} {s t : State} (h : busWrite a v s = .ok t) :
    t.cpu = s.cpu ∧ t.pending = s.pending ∧ t.halted = s.halted ∧ t.rom = s.rom ∧ t.draws = s.draws := by
  rcases busWrite_cases a v s with ⟨_, e⟩ | ⟨_, _, e⟩ | ⟨_, _, e⟩ | ⟨_, e⟩ <;> rw [e] at h <;> cases h
  · exact ⟨rfl, rfl, rfl, rfl, rfl⟩
  · refine ⟨by simp, by simp, by simp, by simp, ?_⟩
    unfold ppuPortWrite; repeat' split
    all_goals rfl
  · exact ⟨rfl, rfl, rfl, rfl, rfl⟩

/-- A write faults only outside RAM, ports and stub, with the address written. -/
theorem busWrite_error {a : Word} {v : Byte} {s : State} {f : Fault} (h : busWrite a v s = .error f) :
    f = .busFault a ∧ 0x4018 ≤ a.toNat := by
  rcases busWrite_cases a v s with ⟨_, e⟩ | ⟨_, _, e⟩ | ⟨_, _, e⟩ | ⟨h1, e⟩ <;> rw [e] at h <;> cases h
  exact ⟨rfl, h1⟩

theorem busWrite_ram {a : Word} (v : Byte) (s : State) (h : a.toNat < 0x2000) :
    busWrite a v s = .ok { s with ram := cellWrite s.ram (ramIndex a) v } := by simp [busWrite, h]

/-- A write does not look at the CPU. -/
theorem busWrite_with_cpu (a : Word) (v : Byte) (s : State) (c : Cpu) :
    busWrite a v { s with cpu := c } =
      (match busWrite a v s with
        | .ok t => .ok { t with cpu := c }
        | .error f => .error f) := by
  unfold busWrite
  split
  · rfl
  · split
    · simp only [ppuPortWrite]
      split
      · rfl
      · split
        · rfl
        · split <;> rfl
    · split
      · rfl
      · split <;> rfl

theorem busWrite_with_cpu_ok {a : Word} {v : Byte} {s t : State} (c : Cpu) (h : busWrite a v s = .ok t) :
    busWrite a v { s with cpu := c } = .ok { t with cpu := c } := by
  rw [busWrite_with_cpu, h]

/-- A write keeps the canonical form and the bounds of RAM and of the PPU's memories. -/
theorem busWrite_inv {a : Word} {v : Byte} {s t : State} (h : busWrite a v s = .ok t) (hr : s.ram.wf)
    (hb : cellsBelow Config.ramSize s.ram) (hi : s.ppu.Inv) :
    t.ram.wf ∧ cellsBelow Config.ramSize t.ram ∧ t.ppu.Inv := by
  rcases busWrite_cases a v s with ⟨_, e⟩ | ⟨_, _, e⟩ | ⟨_, _, e⟩ | ⟨_, e⟩ <;> rw [e] at h <;> cases h
  · exact ⟨cellWrite_wf _ _ hr, cellWrite_below _ (ramIndex_lt a) hb, hi⟩
  · refine ⟨by simpa using hr, by simpa using hb, ?_⟩
    unfold ppuPortWrite
    split
    · exact hi
    · split
      · unfold ppuAddrWrite; split <;> exact hi
      · split
        · obtain ⟨h1, h2, h3, h4, h5⟩ := hi
          exact ⟨h1, h2, cellWrite_wf _ _ h3, cellWrite_below _ (vramOffset_lt _) h4, h5⟩
        · exact hi
  · exact ⟨hr, hb, hi⟩

end Sys2Proof.Machine
end

