-- ==== Sys2Proof/Laws/Run.lean ====
section
/-! SUPPORT. One system step, a run of system steps, and what every run keeps: the lemmas the sequences' own lemmas are
chained from. -/

namespace Sys2Proof.Machine

/-! ## The run -/

theorem runFrom_done {own : List MicroStep} {s : State} (n : Nat) (h : own[s.cpu.cursor]? = none) :
    runFrom own n s = .next s := by
  cases n <;> simp [runFrom, h]

theorem runFrom_next {own : List MicroStep} {m : MicroStep} {s t : State} (n : Nat) (h : own[s.cpu.cursor]? = some m)
    (hc : cycle m s = .next t) : runFrom own (n + 1) s = runFrom own n t := by
  simp [runFrom, h, hc]

theorem runFrom_fault {own : List MicroStep} {m : MicroStep} {s : State} {f : Fault} (n : Nat)
    (h : own[s.cpu.cursor]? = some m) (hc : cycle m s = .fault f) : runFrom own (n + 1) s = .fault f := by
  simp [runFrom, h, hc]

theorem runSteps_running {own : List MicroStep} {s : State} (h : s.halted = none) :
    runSteps own s = runFrom own own.length s := by
  simp [runSteps, h]

theorem runSteps_halted {own : List MicroStep} {s : State} {f : Fault} (h : s.halted = some f) :
    runSteps own s = .fault f := by
  simp [runSteps, h]

/-- `exec` of an instruction is the run of its own steps. -/
theorem exec_eq (i : Instr) (s : State) : exec i s = runSteps (ownSteps i) s := by
  cases i <;> rfl

/-! ## One system step -/

/-- Everything a system step can do to a running machine: three PPU ticks, then the step's access and effect. -/
theorem cycle_running {m : MicroStep} {s : State} (h : s.halted = none) :
    cycle m s =
      match perform (m (ppuShare s)) (ppuShare s) with
      | .ok (t, k) => .next (advanceCursor k t)
      | .error f => .fault f := by
  unfold cycle; rw [h] <;> rfl

theorem cycle_ok {m : MicroStep} {s t : State} {k : Nat} (h : s.halted = none)
    (hp : perform (m (ppuShare s)) (ppuShare s) = .ok (t, k)) : cycle m s = .next (advanceCursor k t) := by
  rw [cycle_running h, hp]

theorem cycle_error {m : MicroStep} {s : State} {f : Fault} (h : s.halted = none)
    (hp : perform (m (ppuShare s)) (ppuShare s) = .error f) : cycle m s = .fault f := by
  rw [cycle_running h, hp]

/-- A system step that answers a next state: the machine was running, and the step's access and effect gave it. -/
theorem cycle_next {m : MicroStep} {s t : State} (h : cycle m s = .next t) :
    s.halted = none ∧ ∃ u k, perform (m (ppuShare s)) (ppuShare s) = .ok (u, k) ∧ t = advanceCursor k u := by
  unfold cycle at h
  split at h
  · cases h
  · split at h
    · rename_i hh _ u k hp
      cases h
      exact ⟨hh, u, k, hp, rfl⟩
    · cases h

theorem perform_read {a : Word} {effect : Byte → State → State × Nat} {s t : State} {v : Byte}
    (h : busRead a s = .ok (v, t)) : perform (.read a effect) s = .ok (effect v t) := by
  simp [perform, h]

theorem perform_write {a : Word} {v : Byte} {effect : State → State × Nat} {s t : State} (h : busWrite a v s = .ok t) :
    perform (.write a v effect) s = .ok (effect t) := by
  simp [perform, h]

/-- Everything a performed access can be. -/
theorem perform_cases {x : Access} {s t : State} {k : Nat} (h : perform x s = .ok (t, k)) :
    (∃ a effect v u, x = .read a effect ∧ busRead a s = .ok (v, u) ∧ effect v u = (t, k)) ∨
    (∃ a v effect u, x = .write a v effect ∧ busWrite a v s = .ok u ∧ effect u = (t, k)) := by
  unfold perform at h
  split at h
  · split at h
    · exact .inl ⟨_, _, _, _, rfl, ‹_›, Except.ok.inj h⟩
    · cases h
  · split at h
    · exact .inr ⟨_, _, _, _, rfl, ‹_›, Except.ok.inj h⟩
    · cases h
  · cases h

/-! ## What every run keeps -/

/-- A property that every system step of a list keeps, a run of the list keeps. -/
theorem runFrom_keep {own : List MicroStep} {P : State → Prop}
    (hk : ∀ m ∈ own, ∀ s t, P s → cycle m s = .next t → P t) (n : Nat) {s t : State} (hs : P s)
    (h : runFrom own n s = .next t) : P t := by
  induction n generalizing s with
  | zero => cases h; exact hs
  | succ n ih =>
    unfold runFrom at h
    split at h
    · cases h; exact hs
    · rename_i m hm
      split at h
      · rename_i u hu
        exact ih (hk m (List.mem_of_getElem? hm) s u hs hu) h
      · cases h
      · cases h

theorem runSteps_keep {own : List MicroStep} {P : State → Prop}
    (hk : ∀ m ∈ own, ∀ s t, P s → cycle m s = .next t → P t) {s t : State} (hs : P s)
    (h : runSteps own s = .next t) : P t := by
  unfold runSteps at h
  split at h
  · cases h
  · exact runFrom_keep hk _ hs h

/-- A run that answers a next state has left its list of steps behind, if it had the system steps to do so. -/
theorem runFrom_cursor {own : List MicroStep} (n : Nat) {s t : State}
    (hm : ∀ m ∈ own, ∀ s t, cycle m s = .next t → s.cpu.cursor + 1 ≤ t.cpu.cursor)
    (hn : own.length ≤ s.cpu.cursor + n) (h : runFrom own n s = .next t) : own.length ≤ t.cpu.cursor := by
  induction n generalizing s with
  | zero => cases h; exact hn
  | succ n ih =>
    unfold runFrom at h
    split at h
    · rename_i hno
      cases h
      exact List.getElem?_eq_none_iff.1 hno
    · rename_i m hmm
      split at h
      · rename_i u hu
        have := hm m (List.mem_of_getElem? hmm) s u hu
        exact ih (by omega) h
      · cases h
      · cases h

/-! ## The normal form of a state inside an instruction: `k` system steps after `s`, the CPU at `c` -/

/-- `k` system steps of PPU work after `s`, with the CPU at `c`. -/
def At (s : State) (k : Nat) (c : Cpu) : State := { afterPpu k s with cpu := c }

theorem at_self (s : State) : s = At s 0 s.cpu := rfl
@[simp] theorem at_cpu (s : State) (k : Nat) (c : Cpu) : (At s k c).cpu = c := rfl
@[simp] theorem at_halted (s : State) (k : Nat) (c : Cpu) : (At s k c).halted = s.halted := afterPpu_halted k s
@[simp] theorem at_ram (s : State) (k : Nat) (c : Cpu) : (At s k c).ram = s.ram := afterPpu_ram k s
@[simp] theorem at_rom (s : State) (k : Nat) (c : Cpu) : (At s k c).rom = s.rom := afterPpu_rom k s
@[simp] theorem at_pending (s : State) (k : Nat) (c : Cpu) : (At s k c).pending = (afterPpu k s).pending := rfl
@[simp] theorem onCpu_at (f : Cpu → Cpu) (s : State) (k : Nat) (c : Cpu) : (At s k c).onCpu f = At s k (f c) := rfl
@[simp] theorem advanceCursor_at (j : Nat) (s : State) (k : Nat) (c : Cpu) :
    advanceCursor j (At s k c) = At s k { c with cursor := c.cursor + 1 + j } := rfl

theorem afterPpu_with_cpu (n : Nat) (s : State) (c : Cpu) :
    afterPpu n { s with cpu := c } = { afterPpu n s with cpu := c } := by
  have h := afterPpu_with n s c s.ram
  have hr := afterPpu_ram n s
  calc afterPpu n { s with cpu := c } = { afterPpu n s with cpu := c, ram := s.ram } := h
    _ = { afterPpu n s with cpu := c } := by rw [← hr]

theorem afterPpu_at (j : Nat) (s : State) (k : Nat) (c : Cpu) : afterPpu j (At s k c) = At s (k + j) c := by
  rw [At, afterPpu_with_cpu, afterPpu_afterPpu, At]

@[simp] theorem ppuShare_at (s : State) (k : Nat) (c : Cpu) : ppuShare (At s k c) = At s (k + 1) c := afterPpu_at 1 s k c

@[simp] theorem peek_at (s : State) (k : Nat) (c : Cpu) (a : Word) : peek (At s k c) a = peek s a :=
  peek_congr (at_ram s k c) (at_rom s k c) a

theorem busRead_at {a : Word} {s t : State} {k : Nat} {v : Byte} (c : Cpu) (h : busRead a (afterPpu k s) = .ok (v, t)) :
    busRead a (At s k c) = .ok (v, { t with cpu := c }) := busRead_with_cpu_ok c h

theorem busRead_at_error {a : Word} {s : State} {k : Nat} {f : Fault} (c : Cpu)
    (h : busRead a (afterPpu k s) = .error f) : busRead a (At s k c) = .error f := by
  rw [At, busRead_with_cpu, h]

theorem busWrite_at {a : Word} {v : Byte} {s t : State} {k : Nat} (c : Cpu) (h : busWrite a v (afterPpu k s) = .ok t) :
    busWrite a v (At s k c) = .ok { t with cpu := c } := busWrite_with_cpu_ok c h

theorem busWrite_at_error {a : Word} {v : Byte} {s : State} {k : Nat} {f : Fault} (c : Cpu)
    (h : busWrite a v (afterPpu k s) = .error f) : busWrite a v (At s k c) = .error f := by
  rw [At, busWrite_with_cpu, h]

/-- A reading step at a plain address. -/
theorem cycle_readSkip_plain {addr : Cpu → Word} {effect : Byte → Cpu → Cpu} {skip : Byte → Cpu → Nat} {s : State} {k : Nat}
    {c : Cpu} (hh : s.halted = none) (ha : plain (addr c) = true) :
    cycle (readSkip addr effect skip) (At s k c) =
      .next (At s (k + 1) { effect (peek s (addr c)) c with
        cursor := (effect (peek s (addr c)) c).cursor + 1 + skip (peek s (addr c)) c }) := by
  refine (cycle_ok (t := At s (k + 1) (effect (peek s (addr c)) c)) (k := skip (peek s (addr c)) c) (by simpa) ?_).trans ?_
  · rw [ppuShare_at]
    have hb := busRead_plain (At s (k + 1) c) ha
    rw [peek_at] at hb
    exact perform_read hb
  · rfl

theorem cycle_read_plain {addr : Cpu → Word} {effect : Byte → Cpu → Cpu} {s : State} {k : Nat} {c : Cpu}
    (hh : s.halted = none) (ha : plain (addr c) = true) :
    cycle (readStep addr effect) (At s k c) =
      .next (At s (k + 1) { effect (peek s (addr c)) c with cursor := (effect (peek s (addr c)) c).cursor + 1 }) :=
  cycle_readSkip_plain (skip := fun _ _ => 0) hh ha

theorem cycle_dummy_plain {addr : Cpu → Word} {effect : Cpu → Cpu} {s : State} {k : Nat} {c : Cpu}
    (hh : s.halted = none) (ha : plain (addr c) = true) :
    cycle (dummyStep addr effect) (At s k c) = .next (At s (k + 1) { effect c with cursor := (effect c).cursor + 1 }) :=
  cycle_read_plain (effect := fun _ => effect) hh ha

/-- A reading step at any address the bus answers. -/
theorem cycle_read {addr : Cpu → Word} {effect : Byte → Cpu → Cpu} {s t : State} {k : Nat} {c : Cpu} {v : Byte}
    (hh : s.halted = none) (hb : busRead (addr c) (afterPpu (k + 1) s) = .ok (v, t)) :
    cycle (readStep addr effect) (At s k c) =
      .next (At t 0 { effect v c with cursor := (effect v c).cursor + 1 }) := by
  refine (cycle_ok (t := At t 0 (effect v c)) (k := 0) (by simpa) ?_).trans rfl
  rw [ppuShare_at]
  exact perform_read (busRead_at c hb)

theorem cycle_read_error {addr : Cpu → Word} {effect : Byte → Cpu → Cpu} {s : State} {k : Nat} {c : Cpu} {f : Fault}
    (hh : s.halted = none) (hb : busRead (addr c) (afterPpu (k + 1) s) = .error f) :
    cycle (readStep addr effect) (At s k c) = .fault f := by
  refine cycle_error (by simpa) ?_
  rw [ppuShare_at]
  simp only [readStep, perform, at_cpu, busRead_at_error c hb]

/-- A writing step at any address the bus takes. -/
theorem cycle_write {addr : Cpu → Word} {value : Cpu → Byte} {effect : Cpu → Cpu} {s t : State} {k : Nat} {c : Cpu}
    (hh : s.halted = none) (hb : busWrite (addr c) (value c) (afterPpu (k + 1) s) = .ok t) :
    cycle (writeStep addr value effect) (At s k c) =
      .next (At t 0 { effect c with cursor := (effect c).cursor + 1 }) := by
  refine (cycle_ok (t := At t 0 (effect c)) (k := 0) (by simpa) ?_).trans rfl
  rw [ppuShare_at]
  exact perform_write (busWrite_at c hb)

theorem cycle_write_error {addr : Cpu → Word} {value : Cpu → Byte} {effect : Cpu → Cpu} {s : State} {k : Nat} {c : Cpu}
    {f : Fault} (hh : s.halted = none) (hb : busWrite (addr c) (value c) (afterPpu (k + 1) s) = .error f) :
    cycle (writeStep addr value effect) (At s k c) = .fault f := by
  refine cycle_error (by simpa) ?_
  rw [ppuShare_at]
  simp only [writeStep, perform, at_cpu, busWrite_at_error c hb]

/-- The bus keeps a running machine running. -/
theorem halted_of_busRead {a : Word} {s t : State} {k : Nat} {v : Byte} (hh : s.halted = none)
    (hb : busRead a (afterPpu k s) = .ok (v, t)) : t.halted = none := by
  rw [(busRead_frame hb).2.2.1, afterPpu_halted, hh]

theorem halted_of_busWrite {a : Word} {v : Byte} {s t : State} {k : Nat} (hh : s.halted = none)
    (hb : busWrite a v (afterPpu k s) = .ok t) : t.halted = none := by
  rw [(busWrite_frame hb).2.2.1, afterPpu_halted, hh]

end Sys2Proof.Machine
end

