-- ==== Sys2Proof/Laws/Operands.lean ====
section
/-! SUPPORT. Each addressing-mode sequence up to the step that makes the operand access, and then one lemma a class: what
a class R, W or M sequence answers in every operand form. -/

namespace Sys2Proof.Machine

/-- The CPU with its operand-fetch registers replaced: what an operand sequence changes. -/
def Cpu.move (c : Cpu) (pc : Word) (l : Latch) (k : Nat) : Cpu := { c with pc := pc, latch := l, cursor := k }

theorem move_self {c : Cpu} (hc : c.cursor = 0) : c.move c.pc c.latch 0 = c := by
  cases c; cases hc; rfl

/-- An index hook: it reads neither `PC`, the latch nor the cursor. -/
abbrev IndexHook (idx : Cpu → Byte) : Prop := ∀ (c : Cpu) pc l k, idx (c.move pc l k) = idx c

theorem indexHook_x : IndexHook Cpu.x := fun _ _ _ _ => rfl
theorem indexHook_y : IndexHook Cpu.y := fun _ _ _ _ => rfl

variable {own : List MicroStep} {s : State} {c : Cpu} {pc : Word} {l : Latch} {j k n : Nat}

/-! ## One lemma a step, inside a run -/

theorem runFrom_readSkip {addr : Cpu → Word} {effect : Byte → Cpu → Cpu} {skip : Byte → Cpu → Nat} {c' : Cpu}
    (hh : s.halted = none) (hm : own[c.cursor]? = some (readSkip addr effect skip)) (ha : plain (addr c) = true)
    (hc : { effect (peek s (addr c)) c with
      cursor := (effect (peek s (addr c)) c).cursor + 1 + skip (peek s (addr c)) c } = c') :
    runFrom own (n + 1) (At s j c) = runFrom own n (At s (j + 1) c') := by
  subst hc; exact runFrom_next n hm (cycle_readSkip_plain hh ha)

theorem runFrom_read {addr : Cpu → Word} {effect : Byte → Cpu → Cpu} {c' : Cpu}
    (hh : s.halted = none) (hm : own[c.cursor]? = some (readStep addr effect)) (ha : plain (addr c) = true)
    (hc : { effect (peek s (addr c)) c with cursor := (effect (peek s (addr c)) c).cursor + 1 } = c') :
    runFrom own (n + 1) (At s j c) = runFrom own n (At s (j + 1) c') := by
  subst hc; exact runFrom_next n hm (cycle_read_plain hh ha)

theorem runFrom_dummy {addr : Cpu → Word} {effect : Cpu → Cpu} {c' : Cpu}
    (hh : s.halted = none) (hm : own[c.cursor]? = some (dummyStep addr effect)) (ha : plain (addr c) = true)
    (hc : { effect c with cursor := (effect c).cursor + 1 } = c') :
    runFrom own (n + 1) (At s j c) = runFrom own n (At s (j + 1) c') := by
  subst hc; exact runFrom_next n hm (cycle_dummy_plain hh ha)

theorem zpT1_run (hm : own[k]? = some zpT1) (hh : s.halted = none) (ha : plain pc = true) :
    runFrom own (n + 1) (At s j (c.move pc l k)) =
      runFrom own n (At s (j + 1) (c.move (pc + 1#16) ⟨peek s pc, 0x00#8, l.data⟩ (k + 1))) :=
  runFrom_read hh hm ha rfl

theorem zpiT2_run {idx : Cpu → Byte} (hi : IndexHook idx) (hm : own[k]? = some (zpiT2 idx)) (hh : s.halted = none) :
    runFrom own (n + 1) (At s j (c.move pc l k)) =
      runFrom own n (At s (j + 1) (c.move pc { l with lo := l.lo + idx c } (k + 1))) :=
  runFrom_dummy hh hm (plain_zeroPage _) (by rw [hi]; rfl)

theorem absT1_run (hm : own[k]? = some absT1) (hh : s.halted = none) (ha : plain pc = true) :
    runFrom own (n + 1) (At s j (c.move pc l k)) =
      runFrom own n (At s (j + 1) (c.move (pc + 1#16) { l with lo := peek s pc } (k + 1))) :=
  runFrom_read hh hm ha rfl

theorem absT2_run (hm : own[k]? = some absT2) (hh : s.halted = none) (ha : plain pc = true) :
    runFrom own (n + 1) (At s j (c.move pc l k)) =
      runFrom own n (At s (j + 1) (c.move (pc + 1#16) { l with hi := peek s pc } (k + 1))) :=
  runFrom_read hh hm ha rfl

theorem abiReadT2_run {idx : Cpu → Byte} (hi : IndexHook idx) (hm : own[k]? = some (abiReadT2 idx)) (hh : s.halted = none)
    (ha : plain pc = true) :
    runFrom own (n + 1) (At s j (c.move pc l k)) =
      runFrom own n (At s (j + 1) (c.move (pc + 1#16) ⟨l.lo + idx c, peek s pc, l.data⟩
        (k + 1 + skipUnlessCarry l.lo (idx c)))) :=
  runFrom_readSkip hh hm ha (by rw [hi]; rfl)

theorem abiWriteT2_run {idx : Cpu → Byte} (hi : IndexHook idx) (hm : own[k]? = some (abiWriteT2 idx))
    (hh : s.halted = none) (ha : plain pc = true) :
    runFrom own (n + 1) (At s j (c.move pc l k)) =
      runFrom own n (At s (j + 1) (c.move (pc + 1#16) ⟨l.lo + idx c, peek s pc, l.data⟩ (k + 1))) :=
  runFrom_read hh hm ha (by rw [hi]; rfl)

theorem crossDummy_run (hm : own[k]? = some crossDummy) (hh : s.halted = none) (ha : plain (cat l.hi l.lo) = true) :
    runFrom own (n + 1) (At s j (c.move pc l k)) =
      runFrom own n (At s (j + 1) (c.move pc { l with hi := l.hi + 1#8 } (k + 1))) :=
  runFrom_dummy hh hm ha rfl

theorem writeDummy_run {idx : Cpu → Byte} (hi : IndexHook idx) (hm : own[k]? = some (writeDummy idx))
    (hh : s.halted = none) (ha : plain (cat l.hi l.lo) = true) :
    runFrom own (n + 1) (At s j (c.move pc l k)) =
      runFrom own n (At s (j + 1) (c.move pc
        { l with hi := if l.lo.toNat < (idx c).toNat then l.hi + 1#8 else l.hi } (k + 1))) := by
  refine runFrom_dummy hh hm ha ?_
  rw [hi, carryIfBelow]
  by_cases h : l.lo.toNat < (idx c).toNat
  · rw [if_pos h, if_pos (show (c.move pc l k).latch.lo.toNat < _ from h)]; rfl
  · rw [if_neg h, if_neg (show ¬ (c.move pc l k).latch.lo.toNat < _ from h)]; rfl

/-- The dummy read of an indexed write at any address the bus answers (R153, R159). -/
theorem writeDummy_read {idx : Cpu → Byte} {t : State} {v : Byte} (hi : IndexHook idx)
    (hm : own[k]? = some (writeDummy idx)) (hh : s.halted = none)
    (hb : busRead (cat l.hi l.lo) (afterPpu (j + 1) s) = .ok (v, t)) :
    runFrom own (n + 1) (At s j (c.move pc l k)) =
      runFrom own n (At t 0 (c.move pc
        { l with hi := if l.lo.toNat < (idx c).toNat then l.hi + 1#8 else l.hi } (k + 1))) := by
  refine (runFrom_next n hm (cycle_read hh hb)).trans ?_
  rw [hi, carryIfBelow]
  by_cases h : l.lo.toNat < (idx c).toNat
  · rw [if_pos h, if_pos (show (c.move pc l k).latch.lo.toNat < _ from h)]; rfl
  · rw [if_neg h, if_neg (show ¬ (c.move pc l k).latch.lo.toNat < _ from h)]; rfl

theorem izyT1_run (hm : own[k]? = some izyT1) (hh : s.halted = none) (ha : plain pc = true) :
    runFrom own (n + 1) (At s j (c.move pc l k)) =
      runFrom own n (At s (j + 1) (c.move (pc + 1#16) { l with data := peek s pc } (k + 1))) :=
  runFrom_read hh hm ha rfl

theorem izyT2_run (hm : own[k]? = some izyT2) (hh : s.halted = none) :
    runFrom own (n + 1) (At s j (c.move pc l k)) =
      runFrom own n (At s (j + 1) (c.move pc { l with lo := peek s (zeroPage l.data) } (k + 1))) :=
  runFrom_read hh hm (plain_zeroPage _) rfl

theorem izyReadT3_run (hm : own[k]? = some izyReadT3) (hh : s.halted = none) :
    runFrom own (n + 1) (At s j (c.move pc l k)) =
      runFrom own n (At s (j + 1) (c.move pc ⟨l.lo + c.y, peek s (zeroPage (l.data + 1#8)), l.data⟩
        (k + 1 + skipUnlessCarry l.lo c.y))) :=
  runFrom_readSkip hh hm (plain_zeroPage _) rfl

theorem izyWriteT3_run (hm : own[k]? = some izyWriteT3) (hh : s.halted = none) :
    runFrom own (n + 1) (At s j (c.move pc l k)) =
      runFrom own n (At s (j + 1) (c.move pc ⟨l.lo + c.y, peek s (zeroPage (l.data + 1#8)), l.data⟩ (k + 1))) :=
  runFrom_read hh hm (plain_zeroPage _) rfl

/-! ## Prefixes: from the state after FETCH to the step that makes the operand access -/

/-- The state after FETCH, its operand-fetch registers spelled out. -/
abbrev start (s : State) : State := At s 0 (s.cpu.move s.cpu.pc s.cpu.latch 0)

theorem runSteps_start (hf : Fetched s) : runSteps own s = runFrom own own.length (start s) := by
  rw [start, move_self hf.2]; exact runSteps_running hf.1

/-- The CPU at the step of the operand access: `PC` past `n` operand bytes. -/
abbrev Cpu.past (c : Cpu) (n : Nat) (l : Latch) (k : Nat) : Cpu := c.move (c.pc + BitVec.ofNat 16 n) l k

theorem past_two (c : Cpu) (l : Latch) (k : Nat) : c.move (c.pc + 1#16 + 1#16) l k = c.past 2 l k := by
  rw [BitVec.add_assoc]; rfl

theorem zp_prefix (h0 : own[0]? = some zpT1) (hh : s.halted = none) (hp : plain s.cpu.pc = true) :
    runFrom own (n + 1) (start s) = runFrom own n (At s 1 (s.cpu.past 1 ⟨operand1 s, 0x00#8, s.cpu.latch.data⟩ 1)) :=
  zpT1_run h0 hh hp

theorem zpi_prefix {idx : Cpu → Byte} (hi : IndexHook idx) (h0 : own[0]? = some zpT1) (h1 : own[1]? = some (zpiT2 idx))
    (hh : s.halted = none) (hp : plain s.cpu.pc = true) :
    runFrom own (n + 2) (start s) =
      runFrom own n (At s 2 (s.cpu.past 1 ⟨operand1 s + idx s.cpu, 0x00#8, s.cpu.latch.data⟩ 2)) :=
  (zpT1_run h0 hh hp).trans (zpiT2_run hi h1 hh)

theorem abs_prefix (h0 : own[0]? = some absT1) (h1 : own[1]? = some absT2) (hh : s.halted = none)
    (hp0 : plain s.cpu.pc = true) (hp1 : plain (s.cpu.pc + 1#16) = true) :
    runFrom own (n + 2) (start s) =
      runFrom own n (At s 2 (s.cpu.past 2 ⟨operand1 s, operand2 s, s.cpu.latch.data⟩ 2)) := by
  rw [← past_two]; exact (absT1_run h0 hh hp0).trans (absT2_run h1 hh hp1)

theorem abiRead_prefix {idx : Cpu → Byte} (hi : IndexHook idx) (h0 : own[0]? = some absT1)
    (h1 : own[1]? = some (abiReadT2 idx)) (h2 : own[2]? = some crossDummy) (hh : s.halted = none)
    (hp0 : plain s.cpu.pc = true) (hp1 : plain (s.cpu.pc + 1#16) = true)
    (hx : crosses (absOperand s) (idx s.cpu) = true → plain (uncorrected (absOperand s) (idx s.cpu)) = true) :
    ∃ m l, cat l.hi l.lo = indexed (absOperand s) (idx s.cpu) ∧
      runFrom own (n + 4) (start s) =
        runFrom own (m + 1) (At s (if crosses (absOperand s) (idx s.cpu) then 3 else 2) (s.cpu.past 2 l 3)) := by
  have hstep : runFrom own (n + 4) (start s) = runFrom own (n + 2) (At s 2 (s.cpu.past 2
      ⟨operand1 s + idx s.cpu, operand2 s, s.cpu.latch.data⟩ (2 + skipUnlessCarry (operand1 s) (idx s.cpu)))) := by
    rw [← past_two]; exact (absT1_run h0 hh hp0).trans (abiReadT2_run hi h1 hh hp1)
  rw [skipUnlessCarry_eq (operand2 s), ← absOperand] at hstep
  by_cases hc : crosses (absOperand s) (idx s.cpu) = true
  · have ha := hx hc
    rw [absOperand, uncorrected_cat] at ha
    rw [if_pos hc] at hstep ⊢
    exact ⟨n, ⟨operand1 s + idx s.cpu, operand2 s + 1#8, s.cpu.latch.data⟩, cat_add_of_crosses hc,
      hstep.trans (crossDummy_run h2 hh ha)⟩
  · rw [if_neg hc] at hstep ⊢
    exact ⟨n + 1, ⟨operand1 s + idx s.cpu, operand2 s, s.cpu.latch.data⟩,
      cat_add_of_not_crosses (Bool.eq_false_iff.2 hc), hstep⟩

theorem carried_eq {h lo idx : Byte} :
    cat (if (lo + idx).toNat < idx.toNat then h + 1#8 else h) (lo + idx) = indexed (cat h lo) idx := by
  have hiff := add_lt_iff_crosses h lo idx
  by_cases hc : crosses (cat h lo) idx = true
  · rw [if_pos (hiff.2 hc), cat_add_of_crosses hc]
  · rw [if_neg (fun h => hc (hiff.1 h)), cat_add_of_not_crosses (Bool.eq_false_iff.2 hc)]

theorem abiWrite_prefix {idx : Cpu → Byte} (hi : IndexHook idx) (h0 : own[0]? = some absT1)
    (h1 : own[1]? = some (abiWriteT2 idx)) (h2 : own[2]? = some (writeDummy idx)) (hh : s.halted = none)
    (hp0 : plain s.cpu.pc = true) (hp1 : plain (s.cpu.pc + 1#16) = true)
    (hx : plain (uncorrected (absOperand s) (idx s.cpu)) = true) :
    ∃ l, cat l.hi l.lo = indexed (absOperand s) (idx s.cpu) ∧
      runFrom own (n + 3) (start s) = runFrom own n (At s 3 (s.cpu.past 2 l 3)) := by
  rw [absOperand, uncorrected_cat] at hx
  refine ⟨⟨operand1 s + idx s.cpu, _, s.cpu.latch.data⟩, carried_eq (h := operand2 s), ?_⟩
  rw [← past_two]
  exact (absT1_run h0 hh hp0).trans ((abiWriteT2_run hi h1 hh hp1).trans (writeDummy_run hi h2 hh hx))

theorem izyRead_prefix (h0 : own[0]? = some izyT1) (h1 : own[1]? = some izyT2) (h2 : own[2]? = some izyReadT3)
    (h3 : own[3]? = some crossDummy) (hh : s.halted = none) (hp : plain s.cpu.pc = true)
    (hx : crosses (pointer s) s.cpu.y = true → plain (uncorrected (pointer s) s.cpu.y) = true) :
    ∃ m l, cat l.hi l.lo = indexed (pointer s) s.cpu.y ∧
      runFrom own (n + 5) (start s) =
        runFrom own (m + 1) (At s (if crosses (pointer s) s.cpu.y then 4 else 3) (s.cpu.past 1 l 4)) := by
  have hstep : runFrom own (n + 5) (start s) = runFrom own (n + 2) (At s 3 (s.cpu.past 1
      ⟨peek s (zeroPage (operand1 s)) + s.cpu.y, peek s (zeroPage (operand1 s + 1#8)), operand1 s⟩
      (3 + skipUnlessCarry (peek s (zeroPage (operand1 s))) s.cpu.y))) :=
    (izyT1_run h0 hh hp).trans ((izyT2_run h1 hh).trans (izyReadT3_run h2 hh))
  rw [skipUnlessCarry_eq (peek s (zeroPage (operand1 s + 1#8))), ← pointer] at hstep
  by_cases hc : crosses (pointer s) s.cpu.y = true
  · have ha := hx hc
    rw [pointer, uncorrected_cat] at ha
    rw [if_pos hc] at hstep ⊢
    exact ⟨n, ⟨peek s (zeroPage (operand1 s)) + s.cpu.y, peek s (zeroPage (operand1 s + 1#8)) + 1#8, operand1 s⟩,
      cat_add_of_crosses hc, hstep.trans (crossDummy_run h3 hh ha)⟩
  · rw [if_neg hc] at hstep ⊢
    exact ⟨n + 1, ⟨peek s (zeroPage (operand1 s)) + s.cpu.y, peek s (zeroPage (operand1 s + 1#8)), operand1 s⟩,
      cat_add_of_not_crosses (Bool.eq_false_iff.2 hc), hstep⟩

theorem izyWrite_prefix (h0 : own[0]? = some izyT1) (h1 : own[1]? = some izyT2) (h2 : own[2]? = some izyWriteT3)
    (h3 : own[3]? = some (writeDummy Cpu.y)) (hh : s.halted = none) (hp : plain s.cpu.pc = true)
    (hx : plain (uncorrected (pointer s) s.cpu.y) = true) :
    ∃ l, cat l.hi l.lo = indexed (pointer s) s.cpu.y ∧
      runFrom own (n + 4) (start s) = runFrom own n (At s 4 (s.cpu.past 1 l 4)) := by
  rw [pointer, uncorrected_cat] at hx
  exact ⟨⟨peek s (zeroPage (operand1 s)) + s.cpu.y, _, operand1 s⟩,
    carried_eq (h := peek s (zeroPage (operand1 s + 1#8))), (izyT1_run h0 hh hp).trans ((izyT2_run h1 hh).trans
    ((izyWriteT3_run h2 hh).trans (writeDummy_run indexHook_y h3 hh hx)))⟩

end Sys2Proof.Machine
end

