-- ==== Sys2Proof/Laws/Classes.lean ====
section
/-! SUPPORT. What a sequence of class R, W or M, of the accumulator form and of the implied form answers, in every operand
form, whatever its hook is (40_sequencer.md R138 to R156). -/

namespace Sys2Proof.Machine

/-- A class R hook: it neither reads nor writes `PC`, the latch or the cursor. -/
abbrev ReadHook (e : Byte → Cpu → Cpu) : Prop :=
  ∀ v (c : Cpu) pc l k, e v (c.move pc l k) = (e v c).move pc l k

/-- A class W hook: it reads neither `PC`, the latch nor the cursor. -/
abbrev ValueHook (value : Cpu → Byte) : Prop := IndexHook value

variable {own : List MicroStep} {s t : State} {c : Cpu} {l : Latch} {j k n m : Nat} {v : Byte} {a : Word}

/-! ## The steps of the operand access -/

theorem execRead_end {addr : Cpu → Word} {e : Byte → Cpu → Cpu} (he : ReadHook e) (hm : own[j]? = some (execRead addr e))
    (hend : own[j + 1]? = none) (hh : s.halted = none) (ha : addr (c.past n l j) = a)
    (hb : busRead a (afterPpu (k + 1) s) = .ok (v, t)) :
    ∃ l', runFrom own (m + 1) (At s k (c.past n l j)) =
      .next { t with cpu := (e v c).move (c.pc + BitVec.ofNat 16 n) l' (j + 1) } := by
  subst ha
  refine ⟨{ l with data := v }, (runFrom_next m hm (cycle_read hh hb)).trans ?_⟩
  have hc : loadExec e v (c.past n l j) = (e v c).move (c.pc + BitVec.ofNat 16 n) { l with data := v } j :=
    he v c _ _ _
  rw [hc]
  exact runFrom_done m hend

theorem writeStep_end {addr : Cpu → Word} {value : Cpu → Byte} (hv : ValueHook value)
    (hm : own[j]? = some (writeStep addr value id)) (hend : own[j + 1]? = none) (hh : s.halted = none)
    (ha : addr (c.past n l j) = a) (hb : busWrite a (value c) (afterPpu (k + 1) s) = .ok t) :
    runFrom own (m + 1) (At s k (c.past n l j)) = .next { t with cpu := c.past n l (j + 1) } := by
  subst ha
  rw [← hv c (c.pc + BitVec.ofNat 16 n) l j] at hb
  exact (runFrom_next m hm (cycle_write hh hb)).trans (runFrom_done m hend)

/-- The read, the write of the unmodified byte, the write of the new byte (R145 T2 to T4). -/
theorem modifySteps_end {addr : Cpu → Word} {modify : Modify} {t₁ t₂ t₃ : State}
    (hm : own[j]? = some (readStep addr (fun v c => setData v c)))
    (hm1 : own[j + 1]? = some (writeStep addr (fun c => c.latch.data) (applyModify modify)))
    (hm2 : own[j + 2]? = some (writeStep addr (fun c => c.latch.data) id)) (hend : own[j + 3]? = none)
    (hh : s.halted = none)
    (haddr : ∀ d (p : Flags) q, addr { c.past n { l with data := d } q with p := p } = a)
    (hb1 : busRead a (afterPpu (k + 1) s) = .ok (v, t₁)) (hb2 : busWrite a v (afterPpu 1 t₁) = .ok t₂)
    (hb3 : busWrite a (modify v c.p).1 (afterPpu 1 t₂) = .ok t₃) :
    ∃ l', runFrom own (m + 3) (At s k (c.past n l j)) =
      .next { t₃ with cpu := { c with p := (modify v c.p).2 }.past n l' (j + 3) } := by
  have h1 := halted_of_busRead hh hb1
  have h2 := halted_of_busWrite h1 hb2
  refine ⟨{ l with data := (modify v c.p).1 }, ?_⟩
  refine (runFrom_next _ hm (cycle_read (t := t₁) (v := v) hh ?_)).trans ?_
  · rw [← haddr l.data c.p j] at hb1; exact hb1
  refine (runFrom_next _ hm1 (cycle_write (t := t₂) h1 ?_)).trans ?_
  · rw [← haddr v c.p (j + 1)] at hb2; exact hb2
  refine (runFrom_next _ hm2 (cycle_write (t := t₃) h2 ?_)).trans ?_
  · rw [← haddr (modify v c.p).1 (modify v c.p).2 (j + 2)] at hb3; exact hb3
  exact runFrom_done m hend

/-! ## The classes -/

/-- Everything a class R sequence does where its reads before the operand are plain and the operand is readable. -/
theorem seqRead_run {e : Byte → Cpu → Cpu} (he : ReadHook e) (m : RMode) (hf : Fetched s)
    (hp : ∀ a ∈ readAddrs m s, plain a = true) (hb : busRead (readEa m s) (afterPpu (readTicks m s) s) = .ok (v, t)) :
    ∃ l, runSteps (seqRead m e) s = .next
      { t with cpu := (e v s.cpu).move (s.cpu.pc + BitVec.ofNat 16 m.format.operandBytes) l (seqRead m e).length } := by
  have hh := hf.1
  rw [runSteps_start hf]
  cases m
  case imm =>
    have hc : loadExec e v (incPc (s.cpu.move s.cpu.pc s.cpu.latch 0)) =
      (e v s.cpu).move (s.cpu.pc + 1#16) { s.cpu.latch with data := v } 0 := he v s.cpu _ _ _
    refine ⟨{ s.cpu.latch with data := v }, (runFrom_next (own := seqImm e) 0 (rfl : (seqImm e)[0]? = _)
      (cycle_read (t := t) (v := v) (k := 0) (c := s.cpu.move s.cpu.pc s.cpu.latch 0) hh hb)).trans ?_⟩
    rw [hc]; exact runFrom_done _ rfl
  case zp =>
    obtain ⟨l, h⟩ := execRead_end (own := seqZpR e) (addr := atZeroPageLo) (c := s.cpu) (n := 1) (j := 1)
      (l := ⟨operand1 s, 0x00#8, s.cpu.latch.data⟩) (m := 0) he rfl rfl hh rfl hb
    exact ⟨l, (zp_prefix rfl hh (hp _ (by simp [readAddrs]))).trans h⟩
  case zpx =>
    obtain ⟨l, h⟩ := execRead_end (own := seqZpiR Cpu.x e) (addr := atZeroPageLo) (c := s.cpu) (n := 1) (j := 2)
      (l := ⟨operand1 s + s.cpu.x, 0x00#8, s.cpu.latch.data⟩) (m := 0) he rfl rfl hh rfl hb
    exact ⟨l, (zpi_prefix indexHook_x rfl rfl hh (hp _ (by simp [readAddrs]))).trans h⟩
  case zpy =>
    obtain ⟨l, h⟩ := execRead_end (own := seqZpiR Cpu.y e) (addr := atZeroPageLo) (c := s.cpu) (n := 1) (j := 2)
      (l := ⟨operand1 s + s.cpu.y, 0x00#8, s.cpu.latch.data⟩) (m := 0) he rfl rfl hh rfl hb
    exact ⟨l, (zpi_prefix indexHook_y rfl rfl hh (hp _ (by simp [readAddrs]))).trans h⟩
  case abs =>
    obtain ⟨l, h⟩ := execRead_end (own := seqAbsR e) (addr := atLatch) (c := s.cpu) (n := 2) (j := 2)
      (l := ⟨operand1 s, operand2 s, s.cpu.latch.data⟩) (m := 0) he rfl rfl hh rfl hb
    exact ⟨l, (abs_prefix rfl rfl hh (hp _ (by simp [readAddrs])) (hp _ (by simp [readAddrs]))).trans h⟩
  case abx =>
    obtain ⟨q, l, hl, hr⟩ := abiRead_prefix (own := seqAbiR Cpu.x e) (n := 0) indexHook_x rfl rfl rfl hh
      (hp _ (by simp [readAddrs])) (hp _ (by simp [readAddrs])) (fun hc => hp _ (by simp [readAddrs, hc]))
    have hr' : runFrom (seqRead .abx e) (seqRead .abx e).length (start s) = _ := hr
    rw [hr']
    refine execRead_end he rfl rfl hh hl ?_
    have hk : (if crosses (absOperand s) s.cpu.x then 3 else 2) + 1 = readTicks .abx s := by unfold readTicks; split <;> rfl
    rw [hk]; exact hb
  case aby =>
    obtain ⟨q, l, hl, hr⟩ := abiRead_prefix (own := seqAbiR Cpu.y e) (n := 0) indexHook_y rfl rfl rfl hh
      (hp _ (by simp [readAddrs])) (hp _ (by simp [readAddrs])) (fun hc => hp _ (by simp [readAddrs, hc]))
    have hr' : runFrom (seqRead .aby e) (seqRead .aby e).length (start s) = _ := hr
    rw [hr']
    refine execRead_end he rfl rfl hh hl ?_
    have hk : (if crosses (absOperand s) s.cpu.y then 3 else 2) + 1 = readTicks .aby s := by unfold readTicks; split <;> rfl
    rw [hk]; exact hb
  case izy =>
    obtain ⟨q, l, hl, hr⟩ := izyRead_prefix (own := seqIzyR e) (n := 0) rfl rfl rfl rfl hh
      (hp _ (by simp [readAddrs])) (fun hc => hp _ (by simp [readAddrs, hc]))
    have hr' : runFrom (seqRead .izy e) (seqRead .izy e).length (start s) = _ := hr
    rw [hr']
    refine execRead_end he rfl rfl hh hl ?_
    have hk : (if crosses (pointer s) s.cpu.y then 4 else 3) + 1 = readTicks .izy s := by unfold readTicks; split <;> rfl
    rw [hk]; exact hb

/-- Everything a class W sequence does where its reads are plain and the bus takes the write. -/
theorem seqWrite_run {value : Cpu → Byte} (hv : ValueHook value) (m : WMode) (hf : Fetched s)
    (hp : ∀ a ∈ writeAddrs m s, plain a = true)
    (hb : busWrite (writeEa m s) (value s.cpu) (afterPpu (writeTicks m) s) = .ok t) :
    ∃ l, runSteps (seqWrite m value) s = .next
      { t with cpu := s.cpu.past m.format.operandBytes l (seqWrite m value).length } := by
  have hh := hf.1
  rw [runSteps_start hf]
  cases m
  case zp =>
    exact ⟨_, (zp_prefix rfl hh (hp _ (by simp [writeAddrs]))).trans (writeStep_end hv rfl rfl hh rfl hb)⟩
  case zpx =>
    exact ⟨_, (zpi_prefix indexHook_x rfl rfl hh (hp _ (by simp [writeAddrs]))).trans
      (writeStep_end hv rfl rfl hh rfl hb)⟩
  case zpy =>
    exact ⟨_, (zpi_prefix indexHook_y rfl rfl hh (hp _ (by simp [writeAddrs]))).trans
      (writeStep_end hv rfl rfl hh rfl hb)⟩
  case abs =>
    exact ⟨_, (abs_prefix rfl rfl hh (hp _ (by simp [writeAddrs])) (hp _ (by simp [writeAddrs]))).trans
      (writeStep_end hv rfl rfl hh rfl hb)⟩
  case abx =>
    obtain ⟨l, hl, hr⟩ := abiWrite_prefix (own := seqAbiW Cpu.x value) (n := 1) indexHook_x rfl rfl rfl hh
      (hp _ (by simp [writeAddrs])) (hp _ (by simp [writeAddrs])) (hp _ (by simp [writeAddrs]))
    exact ⟨l, hr.trans (writeStep_end hv rfl rfl hh hl hb)⟩
  case aby =>
    obtain ⟨l, hl, hr⟩ := abiWrite_prefix (own := seqAbiW Cpu.y value) (n := 1) indexHook_y rfl rfl rfl hh
      (hp _ (by simp [writeAddrs])) (hp _ (by simp [writeAddrs])) (hp _ (by simp [writeAddrs]))
    exact ⟨l, hr.trans (writeStep_end hv rfl rfl hh hl hb)⟩
  case izy =>
    obtain ⟨l, hl, hr⟩ := izyWrite_prefix (own := seqIzyW value) (n := 1) rfl rfl rfl rfl hh
      (hp _ (by simp [writeAddrs])) (hp _ (by simp [writeAddrs]))
    exact ⟨l, hr.trans (writeStep_end hv rfl rfl hh hl hb)⟩

/-- Everything a class M sequence does in a memory form, where the three accesses at its operand are taken. -/
theorem seqModify_run {modify : Modify} {t₁ t₂ t₃ : State} (m : MMode) (hacc : m ≠ .acc) (hf : Fetched s)
    (hp : ∀ a ∈ modifyAddrs m s, plain a = true)
    (hb1 : busRead (modifyEa m s) (afterPpu (modifyTicks m) s) = .ok (v, t₁))
    (hb2 : busWrite (modifyEa m s) v (afterPpu 1 t₁) = .ok t₂)
    (hb3 : busWrite (modifyEa m s) (modify v s.cpu.p).1 (afterPpu 1 t₂) = .ok t₃) :
    ∃ l, runSteps (seqModify m modify) s = .next
      { t₃ with cpu := { s.cpu with p := (modify v s.cpu.p).2 }.past m.format.operandBytes l
                  (seqModify m modify).length } := by
  have hh := hf.1
  rw [runSteps_start hf]
  cases m
  case acc => exact absurd rfl hacc
  case zp =>
    obtain ⟨l, h⟩ := modifySteps_end (own := seqZpM modify) (addr := atZeroPageLo) (n := 1) (j := 1)
      (l := ⟨operand1 s, 0x00#8, s.cpu.latch.data⟩) (m := 0) rfl rfl rfl rfl hh (fun _ _ _ => rfl) hb1 hb2 hb3
    exact ⟨l, (zp_prefix rfl hh (hp _ (by simp [modifyAddrs]))).trans h⟩
  case zpx =>
    obtain ⟨l, h⟩ := modifySteps_end (own := seqZpiM Cpu.x modify) (addr := atZeroPageLo) (n := 1) (j := 2)
      (l := ⟨operand1 s + s.cpu.x, 0x00#8, s.cpu.latch.data⟩) (m := 0) rfl rfl rfl rfl hh (fun _ _ _ => rfl)
      hb1 hb2 hb3
    exact ⟨l, (zpi_prefix indexHook_x rfl rfl hh (hp _ (by simp [modifyAddrs]))).trans h⟩
  case abs =>
    obtain ⟨l, h⟩ := modifySteps_end (own := seqAbsM modify) (addr := atLatch) (n := 2) (j := 2)
      (l := ⟨operand1 s, operand2 s, s.cpu.latch.data⟩) (m := 0) rfl rfl rfl rfl hh (fun _ _ _ => rfl) hb1 hb2 hb3
    exact ⟨l, (abs_prefix rfl rfl hh (hp _ (by simp [modifyAddrs])) (hp _ (by simp [modifyAddrs]))).trans h⟩
  case abx =>
    obtain ⟨l, hl, hr⟩ := abiWrite_prefix (own := seqAbiM Cpu.x modify) (n := 3) indexHook_x rfl rfl rfl hh
      (hp _ (by simp [modifyAddrs])) (hp _ (by simp [modifyAddrs])) (hp _ (by simp [modifyAddrs]))
    obtain ⟨l', h⟩ := modifySteps_end (own := seqAbiM Cpu.x modify) (j := 3) (m := 0) rfl rfl rfl rfl hh
      (fun _ _ _ => hl) hb1 hb2 hb3
    exact ⟨l', hr.trans h⟩

/-- Everything a one-step sequence with a dummy read at `PC` does (`SEQ_IMP`, `SEQ_ACC`), at any readable `PC`. -/
theorem seqImp_run {effect : Cpu → Cpu} (hk : (effect s.cpu).cursor = 0) (hf : Fetched s)
    (hb : busRead s.cpu.pc (afterPpu 1 s) = .ok (v, t)) :
    runSteps [dummyStep atPc effect] s = .next { t with cpu := { effect s.cpu with cursor := 1 } } := by
  rw [runSteps_running hf.1]
  refine (runFrom_next (m := dummyStep atPc effect) 0 ?_ (cycle_read (s := s) (k := 0) (c := s.cpu) hf.1 hb)).trans ?_
  · rw [at_cpu, hf.2]; rfl
  · rw [hk]; rfl

end Sys2Proof.Machine
end

