-- ==== Sys2Proof/Laws/Control.lean ====
section
/-! SUPPORT. What the stack, branch, jump, call, return and interrupt sequences answer. -/

namespace Sys2Proof.Machine

variable {own : List MicroStep} {s t : State} {c : Cpu} {j k n : Nat} {v : Byte}

/-! ## Stack steps inside a run -/

theorem at_withRam (s : State) (m : Memory) (k : Nat) (c : Cpu) :
    At { s with ram := m } k c = { afterPpu k s with cpu := c, ram := m } := by
  have h : afterPpu k { s with ram := m } = { afterPpu k s with ram := m } := by
    have h := afterPpu_with k s s.cpu m
    have hc : { afterPpu k s with cpu := s.cpu, ram := m } = { afterPpu k s with ram := m } := by
      rw [← afterPpu_cpu k s]
    exact h.trans hc
  rw [At, h]

theorem afterPpu_withRam_pending (s : State) (m : Memory) (k : Nat) :
    (afterPpu k { s with ram := m }).pending = (afterPpu k s).pending := by
  have h := congrArg State.pending (at_withRam s m k s.cpu)
  exact h

theorem busWrite_stack (sp v : Byte) (s : State) :
    busWrite (stackAddr sp) v s = .ok { s with ram := stackWrite s.ram sp v } := by
  rw [busWrite_ram v s (stackAddr_lt sp), ramIndex_stackAddr, stackWrite]

/-- A push inside a run. -/
theorem runFrom_push {value : Cpu → Byte} (hh : s.halted = none) (hm : own[c.cursor]? = some (pushStep value)) :
    runFrom own (n + 1) (At s k c) =
      runFrom own n (At { s with ram := stackWrite s.ram c.s (value c) } (k + 1)
        { c with s := c.s - 1#8, cursor := c.cursor + 1 }) := by
  refine runFrom_next n hm ((cycle_ok (t := At { s with ram := stackWrite s.ram c.s (value c) } (k + 1) (decS c)) (k := 0)
    (by simpa) ?_).trans rfl)
  rw [ppuShare_at, pushStep, writeStep, at_cpu, atStack_eq]
  refine (perform_write (busWrite_stack _ _ _)).trans ?_
  rw [at_ram]
  exact congrArg (fun u => Except.ok (u, 0)) (at_withRam s _ (k + 1) (decS c)).symm

theorem withRam_halted {s : State} (m : Memory) (hh : s.halted = none) : ({ s with ram := m } : State).halted = none := hh

/-- A plain byte outside RAM does not see the pushes. -/
theorem peek_withRam_of_ge (s : State) (m : Memory) {a : Word} (h : 0x2000 ≤ a.toNat) :
    peek { s with ram := m } a = peek s a := by
  simp [peek, Nat.not_lt.2 h]

/-! ## SEQ_PUSH, SEQ_PULL (45_stack_flag_system.md R280 to R283) -/

theorem seqPush_run {value : Cpu → Byte} (hv : ∀ (c : Cpu) k, value { c with cursor := k } = value c) (hf : Fetched s)
    (hp : plain s.cpu.pc = true) :
    runSteps (seqPush value) s = .next { afterPpu 2 s with
      ram := stackWrite s.ram s.cpu.s (value s.cpu), cpu := { s.cpu with s := s.cpu.s - 1#8, cursor := 2 } } := by
  obtain ⟨hh, hc⟩ := hf
  rw [runSteps_running hh]
  refine (runFrom_dummy (own := seqPush value) (n := 1) (s := s) (j := 0) (c := s.cpu) (addr := atPc) (effect := id)
    (c' := { s.cpu with cursor := 1 }) hh (by rw [hc]; rfl) hp (by rw [id, hc])).trans ?_
  refine (runFrom_push (own := seqPush value) (n := 0) hh rfl).trans ?_
  rw [runFrom, hv, at_withRam]

theorem seqPull_run {effect : Byte → Cpu → Cpu}
    (he : ∀ v (c : Cpu) k, effect v { c with cursor := k } = { effect v c with cursor := k }) (hf : Fetched s)
    (hp : plain s.cpu.pc = true) :
    runSteps (seqPull effect) s = .next { afterPpu 3 s with
      cpu := { effect (stackByte s (s.cpu.s + 1#8)) { s.cpu with s := s.cpu.s + 1#8 } with cursor := 3 } } := by
  obtain ⟨hh, hc⟩ := hf
  rw [runSteps_running hh]
  refine (runFrom_dummy (own := seqPull effect) (n := 2) (s := s) (j := 0) (c := s.cpu) (addr := atPc) (effect := id)
    (c' := { s.cpu with cursor := 1 }) hh (by rw [hc]; rfl) hp (by rw [id, hc])).trans ?_
  refine (runFrom_dummy (own := seqPull effect) (n := 1) (c := { s.cpu with cursor := 1 }) (addr := atStack)
    (effect := incS) (c' := { s.cpu with s := s.cpu.s + 1#8, cursor := 2 }) hh rfl (plain_stackAddr _) rfl).trans ?_
  refine (runFrom_read (own := seqPull effect) (n := 0) (c := { s.cpu with s := s.cpu.s + 1#8, cursor := 2 })
    (addr := atStack) (effect := effect)
    (c' := { effect (stackByte s (s.cpu.s + 1#8)) { s.cpu with s := s.cpu.s + 1#8 } with cursor := 3 })
    hh rfl (plain_stackAddr _) ?_).trans rfl
  have h2 := he (stackByte s (s.cpu.s + 1#8)) { s.cpu with s := s.cpu.s + 1#8 } 2
  rw [atStack_eq, peek_stackAddr, h2]

/-! ## SEQ_REL, SEQ_JMP, SEQ_JSR, SEQ_RTS (44_branch_jump.md) -/

theorem seqRel_run (cond : Flags → Bool) (hf : Fetched s)
    (hp : ∀ a ∈ branchReads s (cond s.cpu.p), plain a = true) :
    ∃ l, runSteps (seqRel cond) s = .next { afterPpu (branchTicks s (cond s.cpu.p)) s with
      cpu := { s.cpu with
        pc := if cond s.cpu.p then branchGoal s else branchNext s, latch := l, cursor := 3 } } := by
  obtain ⟨hh, hc⟩ := hf
  rw [runSteps_running hh]
  refine ⟨{ s.cpu.latch with data := operand1 s }, ?_⟩
  refine (runFrom_readSkip (own := seqRel cond) (n := 2) (s := s) (j := 0) (c := s.cpu) (addr := atPc)
    (effect := fun v c => setData v (incPc c)) (skip := fun _ c => if cond c.p then 0 else 2)
    (c' := { s.cpu with pc := branchNext s, latch := { s.cpu.latch with data := operand1 s },
                        cursor := if cond s.cpu.p then 1 else 3 })
    hh (by rw [hc]; rfl) (hp _ (by simp [branchReads])) ?_).trans ?_
  · have : 0 + 1 + (if cond s.cpu.p then 0 else 2) = if cond s.cpu.p then 1 else 3 := by split <;> rfl
    rw [← this, ← hc]; rfl
  by_cases hcond : cond s.cpu.p = true
  · rw [if_pos hcond, if_pos hcond, branchTicks, if_pos hcond]
    rw [hcond] at hp
    refine (runFrom_readSkip (own := seqRel cond) (n := 1) (addr := atPc)
      (effect := fun _ c => { c with pc := setPcl c.pc (lo8 (branchTarget c.pc c.latch.data)) })
      (skip := fun _ c => if hi8 (branchTarget c.pc c.latch.data) = hi8 c.pc then 1 else 0)
      (c' := { s.cpu with pc := setPcl (branchNext s) (lo8 (branchGoal s)),
                          latch := { s.cpu.latch with data := operand1 s },
                          cursor := if hi8 (branchGoal s) = hi8 (branchNext s) then 3 else 2 })
      hh rfl (hp _ (by simp [branchReads])) ?_).trans ?_
    · have : 1 + 1 + (if hi8 (branchGoal s) = hi8 (branchNext s) then 1 else 0) =
        if hi8 (branchGoal s) = hi8 (branchNext s) then 3 else 2 := by split <;> rfl
      rw [← this]; rfl
    by_cases hpage : hi8 (branchGoal s) = hi8 (branchNext s)
    · rw [if_pos hpage, if_pos hpage, setPcl_target hpage]
      exact runFrom_done 1 rfl
    · rw [if_neg hpage, if_neg hpage]
      refine (runFrom_dummy (own := seqRel cond) (n := 0) (addr := atPc)
        (c' := { s.cpu with pc := branchGoal s, latch := { s.cpu.latch with data := operand1 s }, cursor := 3 })
        hh rfl (hp _ (by simp [branchReads, hpage, setPcl])) ?_).trans rfl
      have ht := setPch_target (pc := branchNext s) (d := operand1 s) hpage
      simp only [hi8_setPcl]
      rw [show branchGoal s = branchTarget (branchNext s) (operand1 s) from rfl, ht]
  · rw [if_neg hcond, if_neg hcond, branchTicks, if_neg hcond]
    exact runFrom_done 2 rfl

theorem seqJmp_run (hf : Fetched s) (hp0 : plain s.cpu.pc = true) (hp1 : plain (s.cpu.pc + 1#16) = true) :
    ∃ l, runSteps seqJmp s = .next { afterPpu 2 s with
      cpu := { s.cpu with pc := absOperand s, latch := l, cursor := 2 } } := by
  refine ⟨⟨operand1 s, operand2 s, s.cpu.latch.data⟩, ?_⟩
  rw [runSteps_start hf]
  exact (absT1_run rfl hf.1 hp0).trans (runFrom_read (n := 0) hf.1 rfl hp1 rfl)

theorem seqJsr_run (hf : Fetched s) (hp0 : plain s.cpu.pc = true) (hp1 : plain (s.cpu.pc + 1#16) = true) :
    ∃ l, runSteps seqJsr s = .next { afterPpu 5 s with
      ram := callRam s,
      cpu := { s.cpu with
        s := s.cpu.s - 2#8, pc := cat (peek { s with ram := callRam s } (s.cpu.pc + 1#16)) (operand1 s), latch := l,
        cursor := 5 } } := by
  refine ⟨⟨operand1 s, peek { s with ram := callRam s } (s.cpu.pc + 1#16), s.cpu.latch.data⟩, ?_⟩
  rw [runSteps_start hf]
  refine (absT1_run rfl hf.1 hp0).trans ((runFrom_dummy hf.1 rfl (plain_stackAddr _) rfl).trans
    ((runFrom_push hf.1 rfl).trans ((runFrom_push (withRam_halted _ hf.1) rfl).trans
      ((runFrom_read (n := 0) (withRam_halted _ hf.1) rfl hp1 rfl).trans ?_))))
  rw [runFrom]
  refine congrArg Host.Outcome.next ?_
  have h2 : s.cpu.s - 1#8 - 1#8 = s.cpu.s - 2#8 := by
    rw [BitVec.sub_sub]; rfl
  rw [← h2]
  exact at_withRam s (callRam s) 5 _

theorem sp_two (x : Byte) : x + 1#8 + 1#8 = x + 2#8 := by rw [BitVec.add_assoc]; rfl

theorem sp_three (x : Byte) : x + 2#8 + 1#8 = x + 3#8 := by rw [BitVec.add_assoc]; rfl

theorem seqRts_run (hf : Fetched s) (hp : plain s.cpu.pc = true)
    (hb : busRead (returnAddr s) (afterPpu 5 s) = .ok (v, t)) :
    runSteps seqRts s = .next { t with
      cpu := { s.cpu with s := s.cpu.s + 2#8, pc := returnAddr s + 1#16, cursor := 5 } } := by
  obtain ⟨hh, hc⟩ := hf
  rw [runSteps_running hh]
  refine (runFrom_dummy (own := seqRts) (n := 4) (s := s) (j := 0) (c := s.cpu) (addr := atPc) (effect := id)
    (c' := { s.cpu with cursor := 1 }) hh (by rw [hc]; rfl) hp (by rw [id, hc])).trans ?_
  refine (runFrom_dummy (own := seqRts) (n := 3) (addr := atStack)
    (c' := { s.cpu with s := s.cpu.s + 1#8, cursor := 2 }) hh rfl (plain_stackAddr _) rfl).trans ?_
  refine (runFrom_read (own := seqRts) (n := 2) (addr := atStack)
    (c' := { s.cpu with s := s.cpu.s + 2#8, pc := setPcl s.cpu.pc (stackByte s (s.cpu.s + 1#8)), cursor := 3 })
    hh rfl (plain_stackAddr _) ?_).trans ?_
  · rw [← sp_two, atStack_eq, peek_stackAddr]; rfl
  refine (runFrom_read (own := seqRts) (n := 1) (addr := atStack)
    (c' := { s.cpu with s := s.cpu.s + 2#8, pc := returnAddr s, cursor := 4 })
    hh rfl (plain_stackAddr _) ?_).trans ?_
  · rw [atStack_eq, peek_stackAddr, setPch_setPcl, ← returnAddr]
  · exact (runFrom_next (own := seqRts) 0 rfl (cycle_read (t := t) (v := v) hh hb)).trans rfl

theorem seqRti_run (hf : Fetched s) (hp : plain s.cpu.pc = true) :
    runSteps seqRti s = .next { afterPpu 5 s with
      cpu := { s.cpu with
        s := s.cpu.s + 3#8, p := ungroup (stackByte s (s.cpu.s + 1#8)),
        pc := cat (stackByte s (s.cpu.s + 3#8)) (stackByte s (s.cpu.s + 2#8)), cursor := 5 } } := by
  obtain ⟨hh, hc⟩ := hf
  rw [runSteps_running hh]
  refine (runFrom_dummy (own := seqRti) (n := 4) (s := s) (j := 0) (c := s.cpu) (addr := atPc) (effect := id)
    (c' := { s.cpu with cursor := 1 }) hh (by rw [hc]; rfl) hp (by rw [id, hc])).trans ?_
  refine (runFrom_dummy (own := seqRti) (n := 3) (addr := atStack)
    (c' := { s.cpu with s := s.cpu.s + 1#8, cursor := 2 }) hh rfl (plain_stackAddr _) rfl).trans ?_
  refine (runFrom_read (own := seqRti) (n := 2) (addr := atStack)
    (c' := { s.cpu with s := s.cpu.s + 2#8, p := ungroup (stackByte s (s.cpu.s + 1#8)), cursor := 3 })
    hh rfl (plain_stackAddr _) ?_).trans ?_
  · rw [← sp_two, atStack_eq, peek_stackAddr]; rfl
  refine (runFrom_read (own := seqRti) (n := 1) (addr := atStack)
    (c' := { s.cpu with s := s.cpu.s + 3#8, p := ungroup (stackByte s (s.cpu.s + 1#8)),
                        pc := setPcl s.cpu.pc (stackByte s (s.cpu.s + 2#8)), cursor := 4 })
    hh rfl (plain_stackAddr _) ?_).trans ?_
  · rw [← sp_three, atStack_eq, peek_stackAddr]; rfl
  refine (runFrom_read (own := seqRti) (n := 0) (addr := atStack) hh rfl (plain_stackAddr _) rfl).trans ?_
  rw [runFrom]
  simp only [atStack_eq, peek_stackAddr, setPch_setPcl]; rfl

/-! ## SEQ_INT (60_exceptions.md R350) -/

theorem entryPush_run {value : Pending → Cpu → Byte} {effect : Cpu → Cpu} {q : Pending}
    (hh : s.halted = none) (hm : own[c.cursor]? = some (entryPush value effect)) (hq : (afterPpu (k + 1) s).pending = q)
    {c' : Cpu} (hc : { effect (decS c) with cursor := (effect (decS c)).cursor + 1 } = c') :
    runFrom own (n + 1) (At s k c) =
      runFrom own n (At { s with ram := entryStore q s.ram c.s (value q c) } (k + 1) c') := by
  subst hc
  have hstep : perform (entryPush value effect (At s (k + 1) c)) (At s (k + 1) c) =
      .ok ((At { s with ram := entryStore q s.ram c.s (value q c) } (k + 1) (effect (decS c))), 0) := by
    subst hq
    unfold entryPush
    rw [at_pending, at_cpu, atStack_eq]
    cases (afterPpu (k + 1) s).pending
    case reset => exact perform_read (busRead_plain _ (plain_stackAddr _))
    all_goals
      refine (perform_write (busWrite_stack _ _ _)).trans ?_
      rw [at_ram]
      exact congrArg (fun u => Except.ok (u, 0)) (at_withRam s _ (k + 1) (effect (decS c))).symm
  refine runFrom_next n hm ((cycle_ok (t := At _ (k + 1) (effect (decS c))) (k := 0) (by simpa) ?_).trans rfl)
  rw [ppuShare_at]; exact hstep

theorem vector_ge (q : Pending) : 0x8000 ≤ (vector q).toNat ∧ 0x8000 ≤ (vector q + 1#16).toNat := by
  cases q <;> decide

theorem plain_of_ge {a : Word} (h : 0x8000 ≤ a.toNat) : plain a = true := plain_iff.2 (.inr h)

theorem entryT5_run {q : Pending} (hh : s.halted = none) (hm : own[c.cursor]? = some entryT5)
    (hq : (afterPpu (k + 1) s).pending = q) :
    runFrom own (n + 1) (At s k c) =
      runFrom own n (At s (k + 1) { c with pc := setPcl c.pc (peek s (vector q)), cursor := c.cursor + 1 }) := by
  refine runFrom_next n hm ((cycle_ok (t := At s (k + 1) { c with pc := setPcl c.pc (peek s (vector q)) }) (k := 0)
    (by simpa) ?_).trans rfl)
  rw [ppuShare_at, entryT5, at_pending, hq]
  refine (perform_read (busRead_plain _ (plain_of_ge (vector_ge q).1))).trans ?_
  rw [peek_at]; rfl

theorem entryT6_run {q : Pending} (hh : s.halted = none) (hm : own[c.cursor]? = some entryT6)
    (hq : (afterPpu (k + 1) s).pending = q) :
    runFrom own 1 (At s k c) = .next { At s (k + 1)
      { c with pc := setPch c.pc (peek s (vector q + 1#16)), cursor := c.cursor + 1 } with pending := .none } := by
  refine runFrom_next 0 hm ((cycle_ok (t :=
    { At s (k + 1) { c with pc := setPch c.pc (peek s (vector q + 1#16)) } with pending := .none }) (k := 0)
    (by simpa) ?_).trans rfl)
  rw [ppuShare_at, entryT6, at_pending, hq]
  refine (perform_read (busRead_plain _ (plain_of_ge (vector_ge q).2))).trans ?_
  rw [peek_at]; rfl

/-- Everything an interrupt entry does, with `pending` read anew at each step (R350, R352). -/
theorem seqInt_run (hf : Fetched s) (hp : plain s.cpu.pc = true) :
    runSteps seqInt s = .next (entered s fun n => (afterPpu n s).pending) := by
  obtain ⟨hh, hc⟩ := hf
  rw [runSteps_running hh]
  have h1 : runFrom seqInt 6 s = runFrom seqInt 5
      (At s 1 { s.cpu with pc := entryReturn (afterPpu 1 s).pending s.cpu.pc, cursor := 1 }) := by
    refine runFrom_next (own := seqInt) (m := entryT1) 5 (by rw [hc]; rfl) ((cycle_ok hh (t :=
      At s 1 { s.cpu with pc := entryReturn (afterPpu 1 s).pending s.cpu.pc }) (k := 0) ?_).trans ?_)
    · refine (perform_read (v := peek s s.cpu.pc) (t := ppuShare s) ?_).trans ?_
      · rw [ppuShare_eq, afterPpu_cpu, busRead_plain _ hp]
        rw [peek_congr (afterPpu_ram 1 s) (afterPpu_rom 1 s)]
      · rw [ppuShare_eq]
        have hself : afterPpu 1 s = At s 1 s.cpu := by
          rw [At, ← afterPpu_cpu 1 s]
        generalize hq : (afterPpu 1 s).pending = q
        cases q
        case none => rw [hself]; rfl
        all_goals
          show Except.ok (afterPpu 1 s, 0) = _
          rw [hself]; rfl
    · rw [advanceCursor_at]
      show Host.Outcome.next (At s 1 { s.cpu with pc := _, cursor := s.cpu.cursor + 1 + 0 }) = _
      rw [hc]
  have p2 := afterPpu_withRam_pending s
  rw [entered]
  generalize (afterPpu 1 s).pending = q1 at *
  generalize hq2 : (afterPpu 2 s).pending = q2 at *
  generalize hq3 : (afterPpu 3 s).pending = q3 at *
  generalize hq4 : (afterPpu 4 s).pending = q4 at *
  generalize hq5 : (afterPpu 5 s).pending = q5 at *
  generalize hq6 : (afterPpu 6 s).pending = q6 at *
  have hs2 : s.cpu.s - 1#8 - 1#8 = s.cpu.s - 2#8 := by rw [BitVec.sub_sub]; rfl
  have hs3 : s.cpu.s - 2#8 - 1#8 = s.cpu.s - 3#8 := by rw [BitVec.sub_sub]; rfl
  generalize entryReturn q1 s.cpu.pc = ret at *
  refine h1.trans ((entryPush_run (own := seqInt) (n := 4) (value := fun _ c => hi8 c.pc) (effect := id) (q := q2)
    (c' := { s.cpu with s := s.cpu.s - 1#8, pc := ret, cursor := 2 }) hh rfl hq2 rfl).trans ?_)
  refine (entryPush_run (own := seqInt) (n := 3) (value := fun _ c => lo8 c.pc) (effect := id) (q := q3)
    (c' := { s.cpu with s := s.cpu.s - 2#8, pc := ret, cursor := 3 }) (withRam_halted _ hh) rfl
    ((p2 _ 3).trans hq3) (by rw [← hs2]; rfl)).trans ?_
  refine (entryPush_run (own := seqInt) (n := 2) (value := fun q c => group (entryContext q) c.p)
    (effect := fun c => { c with p := { c.p with i := true } }) (q := q4)
    (c' := { s.cpu with s := s.cpu.s - 3#8, pc := ret, p := { s.cpu.p with i := true }, cursor := 4 })
    (withRam_halted _ hh) rfl ((p2 _ 4).trans hq4) (by rw [← hs3]; rfl)).trans ?_
  have hr : entryStore q4 (entryStore q3 (entryStore q2 s.ram s.cpu.s (hi8 ret)) (s.cpu.s - 1#8) (lo8 ret))
      (s.cpu.s - 2#8) (group (entryContext q4) s.cpu.p) = entryRam s.ram s.cpu.s ret s.cpu.p q2 q3 q4 := rfl
  generalize entryRam s.ram s.cpu.s ret s.cpu.p q2 q3 q4 = ram at *
  refine (congrArg (fun m => runFrom seqInt 2 (At { s with ram := m } 4 _)) hr).trans ?_
  refine (entryT5_run (own := seqInt) (n := 1) (q := q5) (withRam_halted _ hh) rfl ((p2 _ 5).trans hq5)).trans ?_
  refine (entryT6_run (own := seqInt) (q := q6) (withRam_halted _ hh) rfl ((p2 _ 6).trans hq6)).trans ?_
  have v5 := peek_withRam_of_ge s ram (a := vector q5) (by have := (vector_ge q5).1; omega)
  have v6 := peek_withRam_of_ge s ram (a := vector q6 + 1#16) (by have := (vector_ge q6).2; omega)
  rw [v5, v6, at_withRam s ram 6]
  simp only [setPch_setPcl]

/-! ## SEQ_ILL (40_sequencer.md R134) -/

theorem seqIll_run (b : Byte) (hf : Fetched s) : runSteps (seqIll b) s = .fault (.illegalOpcode b) := by
  rw [runSteps_running hf.1]
  refine runFrom_fault (own := seqIll b) 0 (by rw [hf.2]; rfl) (cycle_error hf.1 rfl)

end Sys2Proof.Machine
end

