-- ==== Sys2Proof/Laws/Flags.lean ====
section
/-! SUPPORT. The hooks of the instruction rules are the integer arithmetic of Sys2Proof/Safety.lean. -/

namespace Sys2Proof.Machine

theorem bit7_eq (v : Byte) : v.getLsbD 7 = decide (128 ≤ v.toNat) := by revert v; decide

theorem bit6_eq (v : Byte) : v.getLsbD 6 = decide (64 ≤ v.toNat % 128) := by revert v; decide

theorem bit0_eq (v : Byte) : v.getLsbD 0 = decide (v.toNat % 2 = 1) := by revert v; decide

theorem isZero_eq (v : Byte) : (v == 0x00#8) = decide (v.toNat = 0) := by revert v; decide

theorem setNZ_eq (v : Byte) (p : Flags) : setNZ v p = nzFlags v p := by
  simp only [setNZ, nzFlags, bit7_eq, isZero_eq]

theorem toInt_eq (v : Byte) : v.toInt = if v.getLsbD 7 then (v.toNat : Int) - 256 else v.toNat := by revert v; decide

/-! ## The adder -/

theorem add8_r (a m : Byte) (cin : Bool) : (add8 a m cin).r = BitVec.ofNat 8 (a.toNat + m.toNat + cin.toNat) := rfl

theorem add8_cout (a m : Byte) (cin : Bool) :
    (add8 a m cin).cout = decide (256 ≤ a.toNat + m.toNat + cin.toNat) := by
  have ha := a.isLt
  have hm := m.isLt
  have hc : cin.toNat ≤ 1 := by cases cin <;> decide
  show (a.toNat + m.toNat + cin.toNat).testBit 8 = _
  rw [Nat.testBit_eq_decide_div_mod_eq]
  rcases Nat.lt_or_ge (a.toNat + m.toNat + cin.toNat) 256 with h | h
  · have : (a.toNat + m.toNat + cin.toNat) / 2 ^ 8 = 0 := by omega
    simp [Nat.not_le.2 h]; omega
  · have : (a.toNat + m.toNat + cin.toNat) / 2 ^ 8 = 1 := by omega
    simp [h]; omega

/-- The overflow formula looks at the three sign bits. -/
theorem overflow_bits (a m r : Byte) :
    ((~~~(a ^^^ m)) &&& (a ^^^ r) &&& 0x80#8 != 0x00#8) =
      ((a.getLsbD 7 == m.getLsbD 7) && (a.getLsbD 7 != r.getLsbD 7)) := by
  have h80 : ∀ x : Byte, (x &&& 0x80#8 != 0x00#8) = x.getLsbD 7 := by decide
  rw [h80]
  simp only [BitVec.getLsbD_and, BitVec.getLsbD_not, BitVec.getLsbD_xor]
  cases a.getLsbD 7 <;> cases m.getLsbD 7 <;> cases r.getLsbD 7 <;> rfl

theorem add8_ovf (a m : Byte) (cin : Bool) :
    (add8 a m cin).ovf = outOfByte (a.toInt + m.toInt + cin.toNat) := by
  have ha := a.isLt
  have hm := m.isLt
  have hc : cin.toNat ≤ 1 := by cases cin <;> decide
  have h := overflow_bits a m (add8 a m cin).r
  have hr : (add8 a m cin).r.toNat = (a.toNat + m.toNat + cin.toNat) % 256 := by
    rw [add8_r, BitVec.toNat_ofNat]
  have h1 : (add8 a m cin).ovf = _ := h
  rw [h1, outOfByte, toInt_eq a, toInt_eq m, bit7_eq a, bit7_eq m, bit7_eq (add8 a m cin).r, hr]
  by_cases h1 : 128 ≤ a.toNat <;> by_cases h2 : 128 ≤ m.toNat <;>
    by_cases h3 : 128 ≤ (a.toNat + m.toNat + cin.toNat) % 256 <;>
    simp [h1, h2, h3] <;> omega

theorem adcExec_eq : adcExec = adcSpec := by
  funext v c
  simp only [adcExec, adcSpec, addFlags, setNZ_eq, add8_r, add8_cout, add8_ovf]

theorem not_toNat (v : Byte) : (v ^^^ 0xFF#8).toNat = 255 - v.toNat := by revert v; decide

theorem not_toInt (v : Byte) : (v ^^^ 0xFF#8).toInt = -1 - v.toInt := by revert v; decide

theorem sbcExec_eq : sbcExec = sbcSpec := by
  funext v c
  have hv := v.isLt
  have ha := c.a.isLt
  have hr : BitVec.ofNat 8 (c.a.toNat + (v ^^^ 0xFF#8).toNat + c.p.c.toNat) =
      BitVec.ofInt 8 ((c.a.toNat : Int) - v.toNat - if c.p.c then 0 else 1) := by
    apply BitVec.eq_of_toNat_eq
    rw [not_toNat, BitVec.toNat_ofNat, BitVec.toNat_ofInt]
    cases c.p.c <;> simp <;> omega
  have hcout : decide (256 ≤ c.a.toNat + (v ^^^ 0xFF#8).toNat + c.p.c.toNat) =
      decide (0 ≤ (c.a.toNat : Int) - v.toNat - if c.p.c then 0 else 1) := by
    rw [not_toNat]
    cases c.p.c <;> simp <;> omega
  have hovf : outOfByte (c.a.toInt + (v ^^^ 0xFF#8).toInt + c.p.c.toNat) =
      outOfByte (c.a.toInt - v.toInt - if c.p.c then 0 else 1) := by
    rw [not_toInt]
    congr 1
    cases c.p.c <;> simp <;> omega
  simp only [sbcExec, sbcSpec, addFlags, setNZ_eq, add8_r, add8_cout, add8_ovf, hr, hcout, hovf]

/-! ## Compare and bit test -/

theorem compareFlags_eq (reg v : Byte) (p : Flags) : compareFlags reg v p = compareSpec reg v p := by
  have hv := v.isLt
  have hr := reg.isLt
  have hs : (reg - v).toNat = (reg.toNat + 256 - v.toNat) % 256 := by
    rw [BitVec.toNat_sub]; omega
  have hz : (reg == v) = decide (reg = v) := by
    by_cases h : reg = v <;> simp [h]
  simp only [compareFlags, compareSpec, bit7_eq, hs, hz]

/-! ## Shifts, increments -/

theorem aslModify_eq (v : Byte) (p : Flags) : aslModify v p = aslSpec v p := by
  have h : v <<< 1 = BitVec.ofNat 8 (2 * v.toNat) := by revert v; decide
  simp only [aslModify, aslSpec, setNZ_eq, bit7_eq, h]

theorem lsrModify_eq (v : Byte) (p : Flags) : lsrModify v p = lsrSpec v p := by
  have h : v >>> 1 = BitVec.ofNat 8 (v.toNat / 2) := by revert v; decide
  simp only [lsrModify, lsrSpec, setNZ_eq, bit0_eq, h]

theorem rolModify_eq (v : Byte) (p : Flags) : rolModify v p = rolSpec v p := by
  have h : ∀ b : Bool, (v <<< 1) ||| (if b then 0x01#8 else 0x00#8) = BitVec.ofNat 8 (2 * v.toNat + b.toNat) := by
    revert v; decide
  simp only [rolModify, rolSpec, setNZ_eq, bit7_eq, h]

theorem rorModify_eq (v : Byte) (p : Flags) : rorModify v p = rorSpec v p := by
  have h : ∀ b : Bool, (v >>> 1) ||| (if b then 0x80#8 else 0x00#8) = BitVec.ofNat 8 (v.toNat / 2 + 128 * b.toNat) := by
    revert v; decide
  simp only [rorModify, rorSpec, setNZ_eq, bit0_eq, h]

theorem add_one_eq (v : Byte) : v + 1#8 = BitVec.ofNat 8 (v.toNat + 1) := by revert v; decide

theorem sub_one_eq (v : Byte) : v - 1#8 = BitVec.ofNat 8 (v.toNat + 255) := by revert v; decide

theorem incModify_eq (v : Byte) (p : Flags) : incModify v p = incSpec v p := by
  simp only [incModify, incSpec, setNZ_eq, add_one_eq]

theorem decModify_eq (v : Byte) (p : Flags) : decModify v p = decSpec v p := by
  simp only [decModify, decSpec, setNZ_eq, sub_one_eq]

end Sys2Proof.Machine
end

