-- ==== Sys2Proof/Laws/Completion.lean ====
section
/-! SUPPORT. The completed shapes of Sys2Proof/Safety.lean, from the class of an instruction's own steps: one lemma a shape. -/

namespace Sys2Proof.Machine

/-- A class R instruction completes with its hook, under any equal form of the hook. -/
theorem readCompletes_of {i : RMode → Instr} {e e' : Byte → Cpu → Cpu} (hs : ∀ m, ownSteps (i m) = seqRead m e)
    (hf : ∀ m, (i m).operandBytes = m.format.operandBytes) (he : ReadHook e) (heq : e = e')
    (hpc : ∀ v c, (e v c).pc = c.pc) : ReadCompletes i e' := by
  subst heq
  intro m s t v _ hfe hp hb
  obtain ⟨l, h⟩ := seqRead_run he m hfe hp hb
  refine ⟨l, ?_⟩
  rw [exec_eq, hs, h, Cpu.done, hf, hs, hpc]; rfl

/-- A class W instruction completes with its value. -/
theorem writeCompletes_of {i : WMode → Instr} {value : Cpu → Byte} (hs : ∀ m, ownSteps (i m) = seqWrite m value)
    (hf : ∀ m, (i m).operandBytes = m.format.operandBytes) (hv : ValueHook value) : WriteCompletes i value := by
  intro m s t _ hfe hp hb
  obtain ⟨l, h⟩ := seqWrite_run hv m hfe hp hb
  refine ⟨l, ?_⟩
  rw [exec_eq, hs, h, Cpu.done, hf, hs]; rfl

/-- A class M instruction completes with its hook, under any equal form of the hook. -/
theorem modifyCompletes_of {i : MMode → Instr} {f : Modify} {g} (hs : ∀ m, ownSteps (i m) = seqModify m f)
    (hf : ∀ m, (i m).operandBytes = m.format.operandBytes) (hg : f = g) : ModifyCompletes i g := by
  subst hg
  intro m s t1 t2 t3 v _ hacc hfe hp h1 h2 h3
  obtain ⟨l, h⟩ := seqModify_run m hacc hfe hp h1 h2 h3
  refine ⟨l, ?_⟩
  rw [exec_eq, hs, h, Cpu.done, hf, hs]; rfl

/-- A one-step instruction completes with its effect, under any equal form of the effect. -/
theorem impliedCompletes_of {i : Instr} {e e' : Cpu → Cpu} (hs : ownSteps i = [dummyStep atPc e])
    (heq : e = e') (hk : ∀ c, (e c).cursor = c.cursor ∧ (e c).pc = c.pc ∧ (e c).latch = c.latch) :
    ImpliedCompletes i e' := by
  subst heq
  intro s t v hf hb
  rw [exec_eq, hs, seqImp_run (by rw [(hk _).1, hf.2]) hf hb, Cpu.done, hs, ← (hk s.cpu).2.2]
  simp

/-- A branch completes under its condition. -/
theorem branchCompletes_of {i : Instr} {cond : Flags → Bool} (hs : ownSteps i = seqRel cond) : BranchCompletes i cond := by
  intro s hf hp
  rw [exec_eq, hs]
  exact seqRel_run cond hf hp

/-- The two push contexts that are no hardware entry differ from one in bit 4 alone (10_state.md R24). -/
theorem group_php (p : Flags) : group .php p = group .hardware p ||| 0x10#8 := by
  obtain ⟨n, v, b, d, i, z, c⟩ := p
  revert n v b d i z c; decide

end Sys2Proof.Machine
end

