-- ==== Sys2Proof/Laws/Tame.lean ====
section
/-! SUPPORT. What every step of every sequence leaves alone, proved once a step: its effect changes neither memory, the PPU,
the launch constants, `halted`, `ir` nor the cursor, and its skip stays inside the sequence. -/

namespace Sys2Proof.Machine

/-- What the effect of a step leaves alone. -/
structure Keeps (u t : State) : Prop where
  ram : t.ram = u.ram
  ppu : t.ppu = u.ppu
  rom : t.rom = u.rom
  halted : t.halted = u.halted
  draws : t.draws = u.draws
  ir : t.cpu.ir = u.cpu.ir
  cursor : t.cpu.cursor = u.cpu.cursor

/-- An access whose effect keeps all that, and skips at most `r` steps. -/
def Access.Tame (r : Nat) : Access → Prop
  | .read _ effect => ∀ v u, Keeps u (effect v u).1 ∧ (effect v u).2 ≤ r
  | .write _ _ effect => ∀ u, Keeps u (effect u).1 ∧ (effect u).2 ≤ r
  | .raise _ => True

/-- A step whose access is tame, from every state. -/
def Tame (r : Nat) (m : MicroStep) : Prop := ∀ s, (m s).Tame r

/-- A sequence whose steps are tame, and whose skips stay inside it. -/
def TameList : List MicroStep → Prop
  | [] => True
  | m :: rest => Tame rest.length m ∧ TameList rest

/-- A change of the CPU registers that keeps `ir` and the cursor. -/
abbrev TameCpu (f : Cpu → Cpu) : Prop := ∀ c, (f c).ir = c.ir ∧ (f c).cursor = c.cursor

theorem keeps_onCpu {f : Cpu → Cpu} (h : TameCpu f) (u : State) : Keeps u (u.onCpu f) :=
  ⟨rfl, rfl, rfl, rfl, rfl, (h u.cpu).1, (h u.cpu).2⟩

theorem tame_readSkip {r : Nat} {addr : Cpu → Word} {effect : Byte → Cpu → Cpu} {skip : Byte → Cpu → Nat}
    (h : ∀ v, TameCpu (effect v)) (hk : ∀ v c, skip v c ≤ r) : Tame r (readSkip addr effect skip) :=
  fun _ v u => ⟨keeps_onCpu (h v) u, hk v u.cpu⟩

theorem tame_readStep {r : Nat} {addr : Cpu → Word} {effect : Byte → Cpu → Cpu} (h : ∀ v, TameCpu (effect v)) :
    Tame r (readStep addr effect) :=
  fun _ v u => ⟨keeps_onCpu (h v) u, Nat.zero_le r⟩

theorem tame_dummyStep {r : Nat} {addr : Cpu → Word} {effect : Cpu → Cpu} (h : TameCpu effect) :
    Tame r (dummyStep addr effect) :=
  tame_readStep fun _ => h

theorem tame_writeStep {r : Nat} {addr : Cpu → Word} {value : Cpu → Byte} {effect : Cpu → Cpu} (h : TameCpu effect) :
    Tame r (writeStep addr value effect) :=
  fun _ u => ⟨keeps_onCpu h u, Nat.zero_le r⟩

theorem tameCpu_id : TameCpu id := fun _ => ⟨rfl, rfl⟩

/-! ## Every step of every sequence -/

theorem tame_entryPush {r : Nat} {value : Pending → Cpu → Byte} {effect : Cpu → Cpu} (h : TameCpu effect) :
    Tame r (entryPush value effect) := by
  intro s
  unfold entryPush
  split
  · exact fun v u => ⟨keeps_onCpu (fun c => h (decS c)) u, Nat.zero_le r⟩
  all_goals exact fun u => ⟨keeps_onCpu (fun c => h (decS c)) u, Nat.zero_le r⟩

theorem tame_entryT1 (r : Nat) : Tame r entryT1 := by
  intro s v u
  refine ⟨?_, Nat.zero_le r⟩
  simp only
  split <;> exact ⟨rfl, rfl, rfl, rfl, rfl, rfl, rfl⟩

theorem tame_entryT5 (r : Nat) : Tame r entryT5 := fun _ _ _ => ⟨⟨rfl, rfl, rfl, rfl, rfl, rfl, rfl⟩, Nat.zero_le r⟩
theorem tame_entryT6 (r : Nat) : Tame r entryT6 := fun _ _ _ => ⟨⟨rfl, rfl, rfl, rfl, rfl, rfl, rfl⟩, Nat.zero_le r⟩

theorem skipUnlessCarry_le (lo idx : Byte) : skipUnlessCarry lo idx ≤ 1 := by unfold skipUnlessCarry; split <;> omega

theorem tame_zpT1 (r : Nat) : Tame r zpT1 := tame_readStep fun _ _ => ⟨rfl, rfl⟩
theorem tame_zpiT2 (r : Nat) (idx : Cpu → Byte) : Tame r (zpiT2 idx) := tame_dummyStep fun _ => ⟨rfl, rfl⟩
theorem tame_absT1 (r : Nat) : Tame r absT1 := tame_readStep fun _ _ => ⟨rfl, rfl⟩
theorem tame_absT2 (r : Nat) : Tame r absT2 := tame_readStep fun _ _ => ⟨rfl, rfl⟩
theorem tame_abiReadT2 (r : Nat) (idx : Cpu → Byte) : Tame (r + 1) (abiReadT2 idx) :=
  tame_readSkip (fun _ _ => ⟨rfl, rfl⟩) fun _ c => (skipUnlessCarry_le _ _).trans (by omega)
theorem tame_abiWriteT2 (r : Nat) (idx : Cpu → Byte) : Tame r (abiWriteT2 idx) := tame_readStep fun _ _ => ⟨rfl, rfl⟩
theorem tame_crossDummy (r : Nat) : Tame r crossDummy := tame_dummyStep fun _ => ⟨rfl, rfl⟩
theorem tame_writeDummy (r : Nat) (idx : Cpu → Byte) : Tame r (writeDummy idx) :=
  tame_dummyStep fun c => by unfold carryIfBelow; split <;> exact ⟨rfl, rfl⟩
theorem tame_izyT1 (r : Nat) : Tame r izyT1 := tame_readStep fun _ _ => ⟨rfl, rfl⟩
theorem tame_izyT2 (r : Nat) : Tame r izyT2 := tame_readStep fun _ _ => ⟨rfl, rfl⟩
theorem tame_izyReadT3 (r : Nat) : Tame (r + 1) izyReadT3 :=
  tame_readSkip (fun _ _ => ⟨rfl, rfl⟩) fun _ c => (skipUnlessCarry_le _ _).trans (by omega)
theorem tame_izyWriteT3 (r : Nat) : Tame r izyWriteT3 := tame_readStep fun _ _ => ⟨rfl, rfl⟩

theorem tame_execRead {r : Nat} {addr : Cpu → Word} {e : Byte → Cpu → Cpu} (h : ∀ v, TameCpu (e v)) :
    Tame r (execRead addr e) := tame_readStep fun v c => h v (setData v c)

theorem tame_modifySteps (addr : Cpu → Word) (modify : Modify) : TameList (modifySteps addr modify) :=
  ⟨tame_readStep fun _ _ => ⟨rfl, rfl⟩, tame_writeStep fun _ => ⟨rfl, rfl⟩, tame_writeStep fun _ => ⟨rfl, rfl⟩, trivial⟩

theorem tame_seqImp {effect : Cpu → Cpu} (h : TameCpu effect) : TameList (seqImp effect) := ⟨tame_dummyStep h, trivial⟩

theorem tame_seqRead {e : Byte → Cpu → Cpu} (h : ∀ v, TameCpu (e v)) (m : RMode) : TameList (seqRead m e) := by
  cases m
  case imm => exact ⟨tame_readStep fun v c => h v (setData v (incPc c)), trivial⟩
  case zp => exact ⟨tame_zpT1 _, tame_execRead h, trivial⟩
  case zpx => exact ⟨tame_zpT1 _, tame_zpiT2 _ _, tame_execRead h, trivial⟩
  case zpy => exact ⟨tame_zpT1 _, tame_zpiT2 _ _, tame_execRead h, trivial⟩
  case abs => exact ⟨tame_absT1 _, tame_absT2 _, tame_execRead h, trivial⟩
  case abx => exact ⟨tame_absT1 _, tame_abiReadT2 _ _, tame_crossDummy _, tame_execRead h, trivial⟩
  case aby => exact ⟨tame_absT1 _, tame_abiReadT2 _ _, tame_crossDummy _, tame_execRead h, trivial⟩
  case izy => exact ⟨tame_izyT1 _, tame_izyT2 _, tame_izyReadT3 _, tame_crossDummy _, tame_execRead h, trivial⟩

theorem tame_seqWrite (value : Cpu → Byte) (m : WMode) : TameList (seqWrite m value) := by
  have hw (r : Nat) (addr : Cpu → Word) : Tame r (writeStep addr value id) := tame_writeStep tameCpu_id
  cases m
  case zp => exact ⟨tame_zpT1 _, hw _ _, trivial⟩
  case zpx => exact ⟨tame_zpT1 _, tame_zpiT2 _ _, hw _ _, trivial⟩
  case zpy => exact ⟨tame_zpT1 _, tame_zpiT2 _ _, hw _ _, trivial⟩
  case abs => exact ⟨tame_absT1 _, tame_absT2 _, hw _ _, trivial⟩
  case abx => exact ⟨tame_absT1 _, tame_abiWriteT2 _ _, tame_writeDummy _ _, hw _ _, trivial⟩
  case aby => exact ⟨tame_absT1 _, tame_abiWriteT2 _ _, tame_writeDummy _ _, hw _ _, trivial⟩
  case izy => exact ⟨tame_izyT1 _, tame_izyT2 _, tame_izyWriteT3 _, tame_writeDummy _ _, hw _ _, trivial⟩

theorem tame_seqModify (modify : Modify) (m : MMode) : TameList (seqModify m modify) := by
  cases m
  case acc => exact ⟨tame_dummyStep fun _ => ⟨rfl, rfl⟩, trivial⟩
  case zp => exact ⟨tame_zpT1 _, tame_modifySteps _ _⟩
  case zpx => exact ⟨tame_zpT1 _, tame_zpiT2 _ _, tame_modifySteps _ _⟩
  case abs => exact ⟨tame_absT1 _, tame_absT2 _, tame_modifySteps _ _⟩
  case abx => exact ⟨tame_absT1 _, tame_abiWriteT2 _ _, tame_writeDummy _ _, tame_modifySteps _ _⟩

theorem tame_seqRel (cond : Flags → Bool) : TameList (seqRel cond) :=
  ⟨tame_readSkip (fun _ _ => ⟨rfl, rfl⟩) fun _ c => by split <;> simp,
   tame_readSkip (fun _ _ => ⟨rfl, rfl⟩) fun _ c => by split <;> simp,
   tame_dummyStep fun _ => ⟨rfl, rfl⟩, trivial⟩

theorem tame_seqPush (value : Cpu → Byte) : TameList (seqPush value) :=
  ⟨tame_dummyStep tameCpu_id, tame_writeStep fun _ => ⟨rfl, rfl⟩, trivial⟩

theorem tame_seqPull {effect : Byte → Cpu → Cpu} (h : ∀ v, TameCpu (effect v)) : TameList (seqPull effect) :=
  ⟨tame_dummyStep tameCpu_id, tame_dummyStep fun _ => ⟨rfl, rfl⟩, tame_readStep h, trivial⟩

theorem tame_seqInt : TameList seqInt :=
  ⟨tame_entryT1 _, tame_entryPush tameCpu_id, tame_entryPush tameCpu_id, tame_entryPush fun _ => ⟨rfl, rfl⟩,
   tame_entryT5 _, tame_entryT6 _, trivial⟩

/-- Every step of every instruction's sequence is tame. -/
theorem tame_ownSteps (i : Instr) : TameList (ownSteps i) := by
  cases i
  case lda m => exact tame_seqRead (e := ldaExec) (fun _ _ => ⟨rfl, rfl⟩) m
  case ldx m => exact tame_seqRead (e := ldxExec) (fun _ _ => ⟨rfl, rfl⟩) m
  case ldy m => exact tame_seqRead (e := ldyExec) (fun _ _ => ⟨rfl, rfl⟩) m
  case sta m => exact tame_seqWrite _ m
  case stx m => exact tame_seqWrite _ m
  case sty m => exact tame_seqWrite _ m
  case adc m => exact tame_seqRead (e := adcExec) (fun _ _ => ⟨rfl, rfl⟩) m
  case sbc m => exact tame_seqRead (e := sbcExec) (fun _ _ => ⟨rfl, rfl⟩) m
  case and m => exact tame_seqRead (e := andExec) (fun _ _ => ⟨rfl, rfl⟩) m
  case ora m => exact tame_seqRead (e := oraExec) (fun _ _ => ⟨rfl, rfl⟩) m
  case eor m => exact tame_seqRead (e := eorExec) (fun _ _ => ⟨rfl, rfl⟩) m
  case cmp m => exact tame_seqRead (e := cmpExec) (fun _ _ => ⟨rfl, rfl⟩) m
  case cpx m => exact tame_seqRead (e := cpxExec) (fun _ _ => ⟨rfl, rfl⟩) m
  case cpy m => exact tame_seqRead (e := cpyExec) (fun _ _ => ⟨rfl, rfl⟩) m
  case bit m => exact tame_seqRead (e := bitExec) (fun _ _ => ⟨rfl, rfl⟩) m
  case asl m => exact tame_seqModify _ m
  case lsr m => exact tame_seqModify _ m
  case rol m => exact tame_seqModify _ m
  case ror m => exact tame_seqModify _ m
  case inc m => exact tame_seqModify _ m
  case dec m => exact tame_seqModify _ m
  case bpl => exact tame_seqRel _
  case bmi => exact tame_seqRel _
  case bvc => exact tame_seqRel _
  case bvs => exact tame_seqRel _
  case bcc => exact tame_seqRel _
  case bcs => exact tame_seqRel _
  case bne => exact tame_seqRel _
  case beq => exact tame_seqRel _
  case jmp => exact ⟨tame_absT1 _, tame_readStep fun _ _ => ⟨rfl, rfl⟩, trivial⟩
  case jsr =>
    exact ⟨tame_absT1 _, tame_dummyStep tameCpu_id, tame_writeStep fun _ => ⟨rfl, rfl⟩, tame_writeStep fun _ => ⟨rfl, rfl⟩,
      tame_readStep fun _ _ => ⟨rfl, rfl⟩, trivial⟩
  case rts =>
    exact ⟨tame_dummyStep tameCpu_id, tame_dummyStep fun _ => ⟨rfl, rfl⟩, tame_readStep fun _ _ => ⟨rfl, rfl⟩,
      tame_readStep fun _ _ => ⟨rfl, rfl⟩, tame_dummyStep fun _ => ⟨rfl, rfl⟩, trivial⟩
  case pha => exact tame_seqPush _
  case php => exact tame_seqPush _
  case pla => exact tame_seqPull (effect := fun v c => { c with a := v, p := setNZ v c.p }) fun _ _ => ⟨rfl, rfl⟩
  case plp => exact tame_seqPull (effect := fun v c => { c with p := ungroup v }) fun _ _ => ⟨rfl, rfl⟩
  case brk => exact tame_seqInt
  case rti =>
    exact ⟨tame_dummyStep tameCpu_id, tame_dummyStep fun _ => ⟨rfl, rfl⟩, tame_readStep fun _ _ => ⟨rfl, rfl⟩,
      tame_readStep fun _ _ => ⟨rfl, rfl⟩, tame_readStep fun _ _ => ⟨rfl, rfl⟩, trivial⟩
  case ill b => exact ⟨fun _ => trivial, trivial⟩
  case tax => exact tame_seqImp (effect := taxExec) fun _ => ⟨rfl, rfl⟩
  case tay => exact tame_seqImp (effect := tayExec) fun _ => ⟨rfl, rfl⟩
  case txa => exact tame_seqImp (effect := txaExec) fun _ => ⟨rfl, rfl⟩
  case tya => exact tame_seqImp (effect := tyaExec) fun _ => ⟨rfl, rfl⟩
  case tsx => exact tame_seqImp (effect := tsxExec) fun _ => ⟨rfl, rfl⟩
  case txs => exact tame_seqImp (effect := txsExec) fun _ => ⟨rfl, rfl⟩
  case inx => exact tame_seqImp (effect := inxExec) fun _ => ⟨rfl, rfl⟩
  case iny => exact tame_seqImp (effect := inyExec) fun _ => ⟨rfl, rfl⟩
  case dex => exact tame_seqImp (effect := dexExec) fun _ => ⟨rfl, rfl⟩
  case dey => exact tame_seqImp (effect := deyExec) fun _ => ⟨rfl, rfl⟩
  case clc => exact tame_seqImp (effect := clcExec) fun _ => ⟨rfl, rfl⟩
  case sec => exact tame_seqImp (effect := secExec) fun _ => ⟨rfl, rfl⟩
  case cli => exact tame_seqImp (effect := cliExec) fun _ => ⟨rfl, rfl⟩
  case sei => exact tame_seqImp (effect := seiExec) fun _ => ⟨rfl, rfl⟩
  case clv => exact tame_seqImp (effect := clvExec) fun _ => ⟨rfl, rfl⟩
  case cld => exact tame_seqImp (effect := cldExec) fun _ => ⟨rfl, rfl⟩
  case sed => exact tame_seqImp (effect := sedExec) fun _ => ⟨rfl, rfl⟩
  case nop => exact tame_seqImp (effect := nopExec) fun _ => ⟨rfl, rfl⟩

theorem tame_getElem {own : List MicroStep} (h : TameList own) {j : Nat} {m : MicroStep} (hm : own[j]? = some m) :
    ∃ r, Tame r m ∧ j + 1 + r = own.length := by
  induction own generalizing j with
  | nil => simp at hm
  | cons x rest ih =>
    cases j with
    | zero =>
      simp at hm; subst hm
      exact ⟨rest.length, h.1, by simp; omega⟩
    | succ j =>
      obtain ⟨r, hr, hl⟩ := ih h.2 (by simpa using hm)
      exact ⟨r, hr, by simp; omega⟩

/-! ## One performed tame step -/

/-- The access of a tame step, then its effect: the one case analysis every later proof about a step uses. -/
theorem tame_perform {r k : Nat} {x : Access} {s t : State} (hx : x.Tame r) (h : perform x s = .ok (t, k)) :
    ∃ u, Keeps u t ∧ k ≤ r ∧ ((∃ a v, busRead a s = .ok (v, u)) ∨ ∃ a v, busWrite a v s = .ok u) := by
  rcases perform_cases h with ⟨a, effect, v, u, rfl, hb, he⟩ | ⟨a, v, effect, u, rfl, hb, he⟩
  · have := hx v u
    rw [he] at this
    exact ⟨u, this.1, this.2, .inl ⟨a, v, hb⟩⟩
  · have := hx u
    rw [he] at this
    exact ⟨u, this.1, this.2, .inr ⟨a, v, hb⟩⟩

end Sys2Proof.Machine
end

