-- ==== Sys2Proof/Laws/Step.lean ====
section
/-! SUPPORT. What a system step, a run and `step` can do: one inversion lemma each, and what every run of an instruction's
own steps keeps. -/

namespace Sys2Proof.Machine

/-! ## One own step of a sequence -/

/-- What one own step of a tame sequence does, when it answers a next state. -/
theorem cycle_tame {r : Nat} {m : MicroStep} {s t : State} (hm : Tame r m) (h : cycle m s = .next t) :
    t.rom = s.rom ∧ t.halted = none ∧ t.cpu.ir = s.cpu.ir ∧
      s.cpu.cursor + 1 ≤ t.cpu.cursor ∧ t.cpu.cursor ≤ s.cpu.cursor + 1 + r := by
  obtain ⟨hh, u, k, hp, rfl⟩ := cycle_next h
  obtain ⟨w, hw, hk, hb | hb⟩ := tame_perform (hm _) hp
  all_goals obtain ⟨a, v, hb⟩ := hb
  · obtain ⟨hc, -, hhalt, -, hrom⟩ := busRead_frame hb
    refine ⟨?_, ?_, ?_, ?_, ?_⟩ <;>
      simp [hw.rom, hw.halted, hw.ir, hw.cursor, hc, hhalt, hrom, ppuShare_eq, hh]
    omega
  · obtain ⟨hc, -, hhalt, hrom, -⟩ := busWrite_frame hb
    refine ⟨?_, ?_, ?_, ?_, ?_⟩ <;>
      simp [hw.rom, hw.halted, hw.ir, hw.cursor, hc, hhalt, hrom, ppuShare_eq, hh]
    omega

/-- One own step keeps the canonical form and the bounds of RAM and of the PPU. -/
theorem cycle_memories {r : Nat} {m : MicroStep} {s t : State} (hm : Tame r m) (h : cycle m s = .next t)
    (hr : s.ram.wf) (hb : cellsBelow Config.ramSize s.ram) (hi : s.ppu.Inv) :
    t.ram.wf ∧ cellsBelow Config.ramSize t.ram ∧ t.ppu.Inv := by
  obtain ⟨hh, u, k, hp, rfl⟩ := cycle_next h
  obtain ⟨w, hw, -, hbus | hbus⟩ := tame_perform (hm _) hp
  all_goals obtain ⟨a, v, hbus⟩ := hbus
  · have hf := busRead_frame hbus
    have hpi := busRead_inv hbus (afterPpu_inv 1 hi)
    rw [advanceCursor_ram, advanceCursor_ppu, hw.ram, hw.ppu, hf.2.2.2.1, ppuShare_eq, afterPpu_ram]
    exact ⟨hr, hb, hpi⟩
  · have hpi := busWrite_inv hbus (by rw [ppuShare_eq, afterPpu_ram]; exact hr)
      (by rw [ppuShare_eq, afterPpu_ram]; exact hb) (afterPpu_inv 1 hi)
    rw [advanceCursor_ram, advanceCursor_ppu, hw.ram, hw.ppu]
    exact hpi

/-- Everything a performed access can fail by. -/
theorem perform_fault {x : Access} {s : State} {f : Fault} (h : perform x s = .error f) :
    (∃ a e, x = .read a e ∧ busRead a s = .error f) ∨ (∃ a v e, x = .write a v e ∧ busWrite a v s = .error f) ∨
      x = .raise f := by
  unfold perform at h
  split at h
  · split at h
    · cases h
    · cases h; exact .inl ⟨_, _, rfl, ‹_›⟩
  · split at h
    · cases h
    · cases h; exact .inr (.inl ⟨_, _, _, rfl, ‹_›⟩)
  · cases h; exact .inr (.inr rfl)

/-- Everything a system step on a running machine can fault by: a read in the hole, a write outside RAM, ports and stub, or the
step's own raise. -/
theorem cycle_fault {m : MicroStep} {s : State} {f : Fault} (hh : s.halted = none) (h : cycle m s = .fault f) :
    (∃ a, f = .busFault a ∧ unmappedWrite a ∧
      (((m (ppuShare s)).kind = .read ∧ unmappedRead a) ∨ (m (ppuShare s)).kind = .write)) ∨ m (ppuShare s) = .raise f := by
  rw [cycle_running hh] at h
  split at h
  · cases h
  · rename_i g hp
    cases h
    rcases perform_fault hp with ⟨a, e, hx, hb⟩ | ⟨a, v, e, hx, hb⟩ | hx
    · obtain ⟨rfl, h1, h2⟩ := busRead_error hb
      exact .inl ⟨a, rfl, h1, .inl ⟨by rw [hx]; rfl, h1, h2⟩⟩
    · obtain ⟨rfl, h1⟩ := busWrite_error hb
      exact .inl ⟨a, rfl, h1, .inr (by rw [hx]; rfl)⟩
    · exact .inr hx

/-! ## A run of own steps -/

/-- What a run of a tame sequence leaves, when it answers a next state. -/
theorem runFrom_tame {own : List MicroStep} (hown : TameList own) (n : Nat) {s t : State} (h : runFrom own n s = .next t) :
    t.rom = s.rom ∧ t.cpu.ir = s.cpu.ir ∧ (s.halted = none → t.halted = none) ∧
      (s.cpu.cursor ≤ own.length → t.cpu.cursor ≤ own.length) ∧
      (own.length ≤ s.cpu.cursor + n → own.length ≤ t.cpu.cursor) := by
  induction n generalizing s with
  | zero => cases h; exact ⟨rfl, rfl, id, id, fun h => by omega⟩
  | succ n ih =>
    unfold runFrom at h
    split at h
    · rename_i hno
      cases h
      exact ⟨rfl, rfl, id, id, fun _ => List.getElem?_eq_none_iff.1 hno⟩
    · rename_i m hm
      split at h
      · rename_i u hu
        obtain ⟨r, hr, hlen⟩ := tame_getElem hown hm
        obtain ⟨h1, h2, h3, h4, h5⟩ := cycle_tame hr hu
        obtain ⟨k1, k2, k3, k4, k5⟩ := ih h
        exact ⟨k1.trans h1, k2.trans h3, fun _ => k3 h2, fun _ => k4 (by omega), fun _ => k5 (by omega)⟩
      · cases h
      · cases h

/-- What an instruction leaves, when it answers a next state: the launch constants and `ir` unchanged, the machine running
at an instruction boundary. -/
theorem exec_next {i : Instr} {s t : State} (h : exec i s = .next t) :
    s.halted = none ∧ t.rom = s.rom ∧ t.cpu.ir = s.cpu.ir ∧ t.halted = none ∧
      (s.cpu.cursor ≤ (ownSteps i).length → t.cpu.cursor = (ownSteps i).length) := by
  rw [exec_eq] at h
  have hh : s.halted = none := by
    cases hs : s.halted with
    | none => rfl
    | some f => rw [runSteps_halted hs] at h; cases h
  rw [runSteps_running hh] at h
  obtain ⟨h1, h2, h3, h4, h5⟩ := runFrom_tame (tame_ownSteps i) _ h
  exact ⟨hh, h1, h2, h3 hh, fun hc => Nat.le_antisymm (h4 hc) (h5 (by omega))⟩

/-- An instruction keeps the canonical form and the bounds of RAM and of the PPU. -/
theorem exec_memories {i : Instr} {s t : State} (h : exec i s = .next t) (hr : s.ram.wf)
    (hb : cellsBelow Config.ramSize s.ram) (hi : s.ppu.Inv) :
    t.ram.wf ∧ cellsBelow Config.ramSize t.ram ∧ t.ppu.Inv := by
  rw [exec_eq] at h
  refine runSteps_keep (P := fun u => u.ram.wf ∧ cellsBelow Config.ramSize u.ram ∧ u.ppu.Inv) ?_ ⟨hr, hb, hi⟩ h
  intro m hm u w hu hc
  obtain ⟨j, hj⟩ := List.mem_iff_getElem?.1 hm
  obtain ⟨r, htame, -⟩ := tame_getElem (tame_ownSteps i) hj
  exact cycle_memories htame hc hu.1 hu.2.1 hu.2.2

/-- An instruction is never refused. -/
theorem runFrom_not_refused (own : List MicroStep) (n : Nat) (s : State) (q : Refusal) : runFrom own n s ≠ .refused q := by
  induction n generalizing s with
  | zero => intro h; cases h
  | succ n ih =>
    unfold runFrom
    split
    · intro h; cases h
    · split
      · exact ih _
      · intro h; cases h
      · rename_i hc
        intro h
        unfold cycle at hc
        split at hc
        · cases hc
        · split at hc <;> cases hc

theorem exec_not_refused (i : Instr) (s : State) (q : Refusal) : exec i s ≠ .refused q := by
  rw [exec_eq, runSteps]
  split
  · intro h; cases h
  · exact runFrom_not_refused _ _ _ _

/-! ## FETCH -/

/-- Everything FETCH does to a running machine, when it answers a next state (40_sequencer.md R132). -/
theorem fetchCycle_next {s t : State} (h : fetchCycle s = .next t) :
    s.halted = none ∧ ∃ v u, busRead s.cpu.pc (afterPpu 1 s) = .ok (v, u) ∧
      t = { u with cpu := if (afterPpu 1 s).pending = .none then { s.cpu with pc := s.cpu.pc + 1#16, ir := v, cursor := 0 }
                          else { s.cpu with ir := 0x00#8, cursor := 0 } } := by
  unfold fetchCycle at h
  split at h
  · cases h
  · rename_i hh
    refine ⟨hh, ?_⟩
    split at h
    · rename_i w k hp
      cases h
      rcases perform_cases hp with ⟨a, effect, v, u, hx, hb, he⟩ | ⟨a, v, effect, u, hx, -, -⟩
      · cases hx
        rw [ppuShare_eq, afterPpu_cpu] at hb
        have hc := (busRead_frame hb).1
        rw [afterPpu_cpu] at hc
        refine ⟨v, u, hb, ?_⟩
        rw [← hc]
        simp only [Prod.mk.injEq] at he
        rw [← he.1, ppuShare_eq]
        cases (afterPpu 1 s).pending <;> rfl
      · cases hx
    · cases h

/-- The state FETCH leaves. -/
theorem fetchCycle_ok {s u : State} {v : Byte} (hh : s.halted = none) (hb : busRead s.cpu.pc (afterPpu 1 s) = .ok (v, u)) :
    fetchCycle s = .next { u with
      cpu := if (afterPpu 1 s).pending = .none then { s.cpu with pc := s.cpu.pc + 1#16, ir := v, cursor := 0 }
             else { s.cpu with ir := 0x00#8, cursor := 0 } } := by
  have hc := (busRead_frame hb).1
  rw [afterPpu_cpu] at hc
  have hp : perform (fetchStep (ppuShare s)) (ppuShare s) = .ok ({ u with
      cpu := if (afterPpu 1 s).pending = .none then { s.cpu with pc := s.cpu.pc + 1#16, ir := v, cursor := 0 }
             else { s.cpu with ir := 0x00#8, cursor := 0 } }, 0) := by
    refine (perform_read (v := v) (t := u) (by rw [ppuShare_eq, afterPpu_cpu]; exact hb)).trans ?_
    rw [← hc, ppuShare_eq]
    cases (afterPpu 1 s).pending <;> rfl
  unfold fetchCycle
  rw [hh, hp]

theorem fetchCycle_error {s : State} {f : Fault} (hh : s.halted = none)
    (hb : busRead s.cpu.pc (afterPpu 1 s) = .error f) : fetchCycle s = .fault f := by
  have hp : perform (fetchStep (ppuShare s)) (ppuShare s) = .error f := by
    simp only [fetchStep, perform, ppuShare_eq, afterPpu_cpu, hb]
  unfold fetchCycle
  rw [hh, hp]

/-- FETCH with nothing pending installs the byte it reads. -/
theorem fetchCycle_fetched {s t : State} {b : Byte} (hh : s.halted = none) (hq : (afterPpu 1 s).pending = .none)
    (hb : busRead s.cpu.pc (afterPpu 1 s) = .ok (b, t)) : fetchCycle s = .next (fetched b t) := by
  have hc := (busRead_frame hb).1
  rw [afterPpu_cpu] at hc
  rw [fetchCycle_ok hh hb, if_pos hq, fetched, hc]

/-- FETCH with an interrupt pending installs 0x00 and keeps `PC`. -/
theorem fetchCycle_interrupt {s t : State} {b : Byte} (hh : s.halted = none) (hq : (afterPpu 1 s).pending ≠ .none)
    (hb : busRead s.cpu.pc (afterPpu 1 s) = .ok (b, t)) : fetchCycle s = .next (fetchedInterrupt t) := by
  have hc := (busRead_frame hb).1
  rw [afterPpu_cpu] at hc
  rw [fetchCycle_ok hh hb, if_neg hq, fetchedInterrupt, hc]

/-- FETCH keeps the launch constants, the canonical forms and the running machine, and leaves an instruction at its first
own step. -/
theorem fetchCycle_frame {s t : State} (h : fetchCycle s = .next t) :
    t.halted = none ∧ t.rom = s.rom ∧ t.ram = s.ram ∧ t.cpu.cursor = 0 := by
  obtain ⟨hh, v, u, hb, rfl⟩ := fetchCycle_next h
  obtain ⟨-, -, h3, h4, h5⟩ := busRead_frame hb
  refine ⟨by simp [h3, hh], by simp [h5], by simp [h4], ?_⟩
  simp only; split <;> rfl

theorem fetchCycle_ppuInv {s t : State} (h : fetchCycle s = .next t) (hi : s.ppu.Inv) : t.ppu.Inv := by
  obtain ⟨-, v, u, hb, ht⟩ := fetchCycle_next h
  have hp : t.ppu = u.ppu := by rw [ht]
  rw [hp]
  exact busRead_inv hb (afterPpu_inv 1 hi)

theorem fetchCycle_not_refused (s : State) (q : Refusal) : fetchCycle s ≠ .refused q := by
  unfold fetchCycle
  split
  · intro h; cases h
  · split <;> intro h <;> cases h

/-! ## Decoding at the step -/

theorem decodeIn_mem {l : List Byte} {b : Byte} (h : b ∈ l) : decodeIn l b = decodeOpcode b := by simp [decodeIn, h]

theorem decodeIn_not_mem {l : List Byte} {b : Byte} (h : b ∉ l) : decodeIn l b = .ill b := by simp [decodeIn, h]

/-- The instruction of a decoded list is the first byte's. -/
theorem decode_instr {b : Byte} {more : List Byte} {d : Decoded} (h : decode (b :: more) = .ok d) :
    d.instr = decodeOpcode b := by
  unfold decode at h
  simp only at h
  split at h
  · cases h
  · cases h; rfl

/-! ## step -/

theorem step_boundary {s : State} (hh : s.halted = none) (hb : atBoundary s = true) :
    step s = match fetchCycle s with
      | .next t => exec (installed t) t
      | .fault f => .fault f
      | .refused r => .refused r := by
  unfold step; rw [hh]; simp only [hb, if_true] <;> rfl

theorem step_inside {s : State} (hh : s.halted = none) (hb : atBoundary s = false) :
    step s = exec (installed s) s := by
  unfold step; rw [hh]; simp [hb]

/-- Everything `step` does when it answers a next state: a FETCH and the instruction it installed, or the rest of the
instruction the machine was inside. -/
theorem step_cases {s t : State} (h : step s = .next t) :
    s.halted = none ∧
      ((atBoundary s = true ∧ ∃ u, fetchCycle s = .next u ∧ exec (installed u) u = .next t) ∨
       (atBoundary s = false ∧ exec (installed s) s = .next t)) := by
  have hh : s.halted = none := by
    cases hs : s.halted with
    | none => rfl
    | some f => unfold step at h; rw [hs] at h; cases h
  refine ⟨hh, ?_⟩
  cases hb : atBoundary s with
  | true =>
    rw [step_boundary hh hb] at h
    refine .inl ⟨rfl, ?_⟩
    cases hf : fetchCycle s with
    | next u => rw [hf] at h; exact ⟨u, rfl, h⟩
    | fault f => rw [hf] at h; cases h
    | refused q => rw [hf] at h; cases h
  | false =>
    rw [step_inside hh hb] at h
    exact .inr ⟨rfl, h⟩

theorem step_not_refused (s : State) (q : Refusal) : step s ≠ .refused q := by
  intro h
  unfold step at h
  split at h
  · cases h
  · split at h
    · split at h
      · exact exec_not_refused _ _ _ h
      · cases h
      · rename_i hf
        exact fetchCycle_not_refused _ _ hf
    · exact exec_not_refused _ _ _ h

/-! ## The spec's own tick -/

theorem installed_congr {s t : State} (hr : t.rom = s.rom) (hi : t.cpu.ir = s.cpu.ir) : installed t = installed s := by
  rw [installed, installed, hr, hi]

theorem installed_ppuShare (s : State) : installed (ppuShare s) = installed s :=
  installed_congr (by rw [ppuShare_eq, afterPpu_rom]) (by rw [ppuShare_eq, afterPpu_cpu])

theorem currentStep_ppuShare (s : State) : currentStep (ppuShare s) = currentStep s := by
  rw [currentStep, installed_ppuShare, ppuShare_eq, afterPpu_cpu, currentStep]

theorem currentStep_eq_none {s : State} : currentStep s = none ↔ atBoundary s = true := by
  simp [currentStep, atBoundary]

/-- `tick` on an own step. -/
theorem tick_own {s : State} {m : MicroStep} (hh : s.halted = none) (hm : currentStep s = some m) :
    tick s = match cycle m s with
      | .next t => t
      | .fault f => { ppuShare s with halted := some f }
      | .refused _ => s := by
  unfold tick cpuTick
  rw [currentStep_ppuShare, hm, cycle_running hh]
  have : (ppuShare s).halted = none := by rw [ppuShare_eq, afterPpu_halted, hh]
  rw [this]
  dsimp only
  rcases perform (m (ppuShare s)) (ppuShare s) with f | ⟨t, k⟩ <;> rfl

/-- `tick` on FETCH. -/
theorem tick_fetch {s : State} (hh : s.halted = none) (hm : atBoundary s = true) :
    tick s = match fetchCycle s with
      | .next t => t
      | .fault f => { ppuShare s with halted := some f }
      | .refused _ => s := by
  unfold tick cpuTick
  rw [currentStep_ppuShare, currentStep_eq_none.2 hm]
  have : (ppuShare s).halted = none := by rw [ppuShare_eq, afterPpu_halted, hh]
  rw [this]
  unfold fetchCycle
  rw [hh]
  dsimp only
  rcases perform (fetchStep (ppuShare s)) (ppuShare s) with f | ⟨t, k⟩ <;> rfl

/-- A halted machine does nothing more (60_exceptions.md R343). -/
theorem tick_halted {s : State} {f : Fault} (hh : s.halted = some f) : tick s = s := by
  unfold tick
  rw [ppuShare, ppuTicks_of_halted hh]
  unfold cpuTick
  rw [hh]

theorem ticks_succ (n : Nat) (s : State) : ticks (n + 1) s = ticks n (tick s) := rfl

theorem ticks_add (m n : Nat) (s : State) : ticks (m + n) s = ticks n (ticks m s) := by
  induction m generalizing s with
  | zero => simp [ticks]
  | succ m ih => rw [Nat.succ_add, ticks_succ, ticks_succ, ih]

end Sys2Proof.Machine
end

