-- ==== Sys2Proof/Laws/Frame.lean ====
section
/-! SUPPORT. What every run of a sequence leaves alone in the CPU, class by class: a part `φ` of the CPU that the hook keeps is
kept by the whole sequence. -/

namespace Sys2Proof.Machine

variable {α : Type} {φ : Cpu → α}

/-- A part of the CPU that depends on none of `PC`, the latch and the cursor. -/
abbrev Blind (φ : Cpu → α) : Prop := ∀ (c : Cpu) pc l k, φ (c.move pc l k) = φ c

/-- A part of the CPU that does not depend on `S` either. -/
abbrev BlindS (φ : Cpu → α) : Prop := Blind φ ∧ ∀ (c : Cpu) sp, φ { c with s := sp } = φ c

/-- An access whose effect keeps `φ`. -/
def Access.Holds (φ : Cpu → α) : Access → Prop
  | .read _ effect => ∀ v u, φ (effect v u).1.cpu = φ u.cpu
  | .write _ _ effect => ∀ u, φ (effect u).1.cpu = φ u.cpu
  | .raise _ => True

/-- A step whose effect keeps `φ`, from every state. -/
def StepHolds (φ : Cpu → α) (m : MicroStep) : Prop := ∀ s, (m s).Holds φ

/-- A sequence each of whose steps keeps `φ`. -/
def SeqHolds (φ : Cpu → α) (own : List MicroStep) : Prop := ∀ m ∈ own, StepHolds φ m

theorem seqHolds_nil : SeqHolds φ [] := fun _ h => by cases h

theorem seqHolds_cons {m : MicroStep} {own : List MicroStep} (h : StepHolds φ m) (hr : SeqHolds φ own) :
    SeqHolds φ (m :: own) := by
  intro x hx
  rcases List.mem_cons.1 hx with rfl | hx
  · exact h
  · exact hr x hx

/-- One system step keeps what its step's effect keeps. -/
theorem cycle_holds {m : MicroStep} {s t : State} (hφ : Blind φ) (hm : StepHolds φ m) (h : cycle m s = .next t) :
    φ t.cpu = φ s.cpu := by
  obtain ⟨-, u, k, hp, rfl⟩ := cycle_next h
  have hc : φ (advanceCursor k u).cpu = φ u.cpu := hφ u.cpu _ _ _
  rw [hc]
  have hs : (ppuShare s).cpu = s.cpu := by rw [ppuShare_eq, afterPpu_cpu]
  have hx := hm (ppuShare s)
  rcases perform_cases hp with ⟨a, effect, v, w, he, hb, hw⟩ | ⟨a, v, effect, w, he, hb, hw⟩ <;> rw [he] at hx
  · have := hx v w
    rw [hw] at this
    rw [this, (busRead_frame hb).1, hs]
  · have := hx w
    rw [hw] at this
    rw [this, (busWrite_frame hb).1, hs]

/-- An instruction keeps what every one of its steps keeps. -/
theorem exec_holds {i : Instr} {s t : State} (hφ : Blind φ) (hi : SeqHolds φ (ownSteps i)) (h : exec i s = .next t) :
    φ t.cpu = φ s.cpu := by
  rw [exec_eq] at h
  refine runSteps_keep (P := fun u => φ u.cpu = φ s.cpu) ?_ rfl h
  intro m hm u w hu hc
  rw [cycle_holds hφ (hi m hm) hc, hu]

/-! ## By class -/

theorem holds_readSkip {addr : Cpu → Word} {effect : Byte → Cpu → Cpu} {skip : Byte → Cpu → Nat}
    (h : ∀ v c, φ (effect v c) = φ c) : StepHolds φ (readSkip addr effect skip) := fun _ v u => h v u.cpu

theorem holds_readStep {addr : Cpu → Word} {effect : Byte → Cpu → Cpu} (h : ∀ v c, φ (effect v c) = φ c) :
    StepHolds φ (readStep addr effect) := fun _ v u => h v u.cpu

theorem holds_dummyStep {addr : Cpu → Word} {effect : Cpu → Cpu} (h : ∀ c, φ (effect c) = φ c) :
    StepHolds φ (dummyStep addr effect) := fun _ _ u => h u.cpu

theorem holds_writeStep {addr : Cpu → Word} {value : Cpu → Byte} {effect : Cpu → Cpu} (h : ∀ c, φ (effect c) = φ c) :
    StepHolds φ (writeStep addr value effect) := fun _ u => h u.cpu

theorem holds_absT1 (hφ : Blind φ) : StepHolds φ absT1 := holds_readStep fun _ c => hφ c _ _ _
theorem holds_absT2 (hφ : Blind φ) : StepHolds φ absT2 := holds_readStep fun _ c => hφ c _ _ _
theorem holds_zpT1 (hφ : Blind φ) : StepHolds φ zpT1 := holds_readStep fun _ c => hφ c _ _ _
theorem holds_zpiT2 (hφ : Blind φ) (idx : Cpu → Byte) : StepHolds φ (zpiT2 idx) := holds_dummyStep fun c => hφ c _ _ _
theorem holds_abiReadT2 (hφ : Blind φ) (idx : Cpu → Byte) : StepHolds φ (abiReadT2 idx) :=
  holds_readSkip fun _ c => hφ c _ _ _
theorem holds_abiWriteT2 (hφ : Blind φ) (idx : Cpu → Byte) : StepHolds φ (abiWriteT2 idx) :=
  holds_readStep fun _ c => hφ c _ _ _
theorem holds_crossDummy (hφ : Blind φ) : StepHolds φ crossDummy := holds_dummyStep fun c => hφ c _ _ _
theorem holds_writeDummy (hφ : Blind φ) (idx : Cpu → Byte) : StepHolds φ (writeDummy idx) :=
  holds_dummyStep fun c => by unfold carryIfBelow; split <;> exact hφ c _ _ _
theorem holds_izyT1 (hφ : Blind φ) : StepHolds φ izyT1 := holds_readStep fun _ c => hφ c _ _ _
theorem holds_izyT2 (hφ : Blind φ) : StepHolds φ izyT2 := holds_readStep fun _ c => hφ c _ _ _
theorem holds_izyReadT3 (hφ : Blind φ) : StepHolds φ izyReadT3 := holds_readSkip fun _ c => hφ c _ _ _
theorem holds_izyWriteT3 (hφ : Blind φ) : StepHolds φ izyWriteT3 := holds_readStep fun _ c => hφ c _ _ _

theorem holds_seqImp {effect : Cpu → Cpu} (h : ∀ c, φ (effect c) = φ c) : SeqHolds φ (seqImp effect) :=
  seqHolds_cons (holds_dummyStep h) seqHolds_nil

/-- A class R sequence keeps what its hook keeps. -/
theorem holds_seqRead (hφ : Blind φ) {e : Byte → Cpu → Cpu} (h : ∀ v c, φ (e v c) = φ c) (m : RMode) :
    SeqHolds φ (seqRead m e) := by
  have hd (v : Byte) (c : Cpu) : φ (setData v c) = φ c := hφ c _ _ _
  have he (addr : Cpu → Word) : StepHolds φ (execRead addr e) := holds_readStep fun v c => (h v _).trans (hd v c)
  cases m
  case imm => exact seqHolds_cons (holds_readStep fun v c => (h v _).trans ((hd v _).trans (hφ c _ _ _))) seqHolds_nil
  case zp => exact seqHolds_cons (holds_zpT1 hφ) (seqHolds_cons (he _) seqHolds_nil)
  case zpx => exact seqHolds_cons (holds_zpT1 hφ) (seqHolds_cons (holds_zpiT2 hφ _) (seqHolds_cons (he _) seqHolds_nil))
  case zpy => exact seqHolds_cons (holds_zpT1 hφ) (seqHolds_cons (holds_zpiT2 hφ _) (seqHolds_cons (he _) seqHolds_nil))
  case abs => exact seqHolds_cons (holds_absT1 hφ) (seqHolds_cons (holds_absT2 hφ) (seqHolds_cons (he _) seqHolds_nil))
  case abx => exact seqHolds_cons (holds_absT1 hφ) (seqHolds_cons (holds_abiReadT2 hφ _)
      (seqHolds_cons (holds_crossDummy hφ) (seqHolds_cons (he _) seqHolds_nil)))
  case aby => exact seqHolds_cons (holds_absT1 hφ) (seqHolds_cons (holds_abiReadT2 hφ _)
      (seqHolds_cons (holds_crossDummy hφ) (seqHolds_cons (he _) seqHolds_nil)))
  case izy => exact seqHolds_cons (holds_izyT1 hφ) (seqHolds_cons (holds_izyT2 hφ) (seqHolds_cons (holds_izyReadT3 hφ)
      (seqHolds_cons (holds_crossDummy hφ) (seqHolds_cons (he _) seqHolds_nil))))

/-- A class W sequence keeps every part of the CPU but `PC`, the latch and the cursor. -/
theorem holds_seqWrite (hφ : Blind φ) (value : Cpu → Byte) (m : WMode) : SeqHolds φ (seqWrite m value) := by
  have he (addr : Cpu → Word) : StepHolds φ (writeStep addr value id) := holds_writeStep fun _ => rfl
  cases m
  case zp => exact seqHolds_cons (holds_zpT1 hφ) (seqHolds_cons (he _) seqHolds_nil)
  case zpx => exact seqHolds_cons (holds_zpT1 hφ) (seqHolds_cons (holds_zpiT2 hφ _) (seqHolds_cons (he _) seqHolds_nil))
  case zpy => exact seqHolds_cons (holds_zpT1 hφ) (seqHolds_cons (holds_zpiT2 hφ _) (seqHolds_cons (he _) seqHolds_nil))
  case abs => exact seqHolds_cons (holds_absT1 hφ) (seqHolds_cons (holds_absT2 hφ) (seqHolds_cons (he _) seqHolds_nil))
  case abx => exact seqHolds_cons (holds_absT1 hφ) (seqHolds_cons (holds_abiWriteT2 hφ _)
      (seqHolds_cons (holds_writeDummy hφ _) (seqHolds_cons (he _) seqHolds_nil)))
  case aby => exact seqHolds_cons (holds_absT1 hφ) (seqHolds_cons (holds_abiWriteT2 hφ _)
      (seqHolds_cons (holds_writeDummy hφ _) (seqHolds_cons (he _) seqHolds_nil)))
  case izy => exact seqHolds_cons (holds_izyT1 hφ) (seqHolds_cons (holds_izyT2 hφ) (seqHolds_cons (holds_izyWriteT3 hφ)
      (seqHolds_cons (holds_writeDummy hφ _) (seqHolds_cons (he _) seqHolds_nil))))

theorem holds_modifySteps (hφ : Blind φ) {f : Modify} (h : ∀ v (c : Cpu), φ { c with p := (f v c.p).2 } = φ c)
    (addr : Cpu → Word) : SeqHolds φ (modifySteps addr f) := by
  have hm (c : Cpu) : φ (applyModify f c) = φ c := (h c.latch.data (setData (f c.latch.data c.p).1 c)).trans (hφ c _ _ _)
  exact seqHolds_cons (holds_readStep fun _ c => hφ c _ _ _)
    (seqHolds_cons (holds_writeStep hm) (seqHolds_cons (holds_writeStep fun _ => rfl) seqHolds_nil))

/-- A class M sequence keeps what its flags keep; its accumulator form, what `A` and the flags together keep. -/
theorem holds_seqModify (hφ : Blind φ) {f : Modify} (h : ∀ v (c : Cpu), φ { c with p := (f v c.p).2 } = φ c)
    (m : MMode) (hacc : m = .acc → ∀ c : Cpu, φ { c with a := (f c.a c.p).1, p := (f c.a c.p).2 } = φ c) :
    SeqHolds φ (seqModify m f) := by
  cases m
  case acc => exact seqHolds_cons (holds_dummyStep fun c => hacc rfl c) seqHolds_nil
  case zp => exact seqHolds_cons (holds_zpT1 hφ) (holds_modifySteps hφ h _)
  case zpx => exact seqHolds_cons (holds_zpT1 hφ) (seqHolds_cons (holds_zpiT2 hφ _) (holds_modifySteps hφ h _))
  case abs => exact seqHolds_cons (holds_absT1 hφ) (seqHolds_cons (holds_absT2 hφ) (holds_modifySteps hφ h _))
  case abx => exact seqHolds_cons (holds_absT1 hφ) (seqHolds_cons (holds_abiWriteT2 hφ _)
      (seqHolds_cons (holds_writeDummy hφ _) (holds_modifySteps hφ h _)))

/-! ## Control flow and the stack -/

theorem holds_seqRel (hφ : Blind φ) (cond : Flags → Bool) : SeqHolds φ (seqRel cond) :=
  seqHolds_cons (holds_readSkip fun _ c => hφ c _ _ _) (seqHolds_cons (holds_readSkip fun _ c => hφ c _ _ _)
    (seqHolds_cons (holds_dummyStep fun c => hφ c _ _ _) seqHolds_nil))

theorem holds_seqJmp (hφ : Blind φ) : SeqHolds φ seqJmp :=
  seqHolds_cons (holds_absT1 hφ) (seqHolds_cons (holds_readStep fun _ c => hφ c _ _ _) seqHolds_nil)

theorem holds_pushStep (hφ : BlindS φ) (value : Cpu → Byte) : StepHolds φ (pushStep value) :=
  holds_writeStep fun c => hφ.2 c _

theorem holds_seqJsr (hφ : BlindS φ) : SeqHolds φ seqJsr :=
  seqHolds_cons (holds_absT1 hφ.1) (seqHolds_cons (holds_dummyStep fun _ => rfl) (seqHolds_cons (holds_pushStep hφ _)
    (seqHolds_cons (holds_pushStep hφ _) (seqHolds_cons (holds_readStep fun _ c => hφ.1 c _ _ _) seqHolds_nil))))

theorem holds_seqRts (hφ : BlindS φ) : SeqHolds φ seqRts :=
  seqHolds_cons (holds_dummyStep fun _ => rfl) (seqHolds_cons (holds_dummyStep fun c => hφ.2 c _)
    (seqHolds_cons (holds_readStep fun _ c => (hφ.2 _ _).trans (hφ.1 c _ _ _))
      (seqHolds_cons (holds_readStep fun _ c => hφ.1 c _ _ _)
        (seqHolds_cons (holds_dummyStep fun c => hφ.1 c _ _ _) seqHolds_nil))))

theorem holds_seqPush (hφ : BlindS φ) (value : Cpu → Byte) : SeqHolds φ (seqPush value) :=
  seqHolds_cons (holds_dummyStep fun _ => rfl) (seqHolds_cons (holds_pushStep hφ _) seqHolds_nil)

theorem holds_seqPull (hφ : BlindS φ) {effect : Byte → Cpu → Cpu} (h : ∀ v c, φ (effect v c) = φ c) :
    SeqHolds φ (seqPull effect) :=
  seqHolds_cons (holds_dummyStep fun _ => rfl) (seqHolds_cons (holds_dummyStep fun c => hφ.2 c _)
    (seqHolds_cons (holds_readStep h) seqHolds_nil))

/-- The return from interrupt keeps what neither `S` nor the seven flags are part of. -/
theorem holds_seqRti (hφ : BlindS φ) (h : ∀ v (c : Cpu), φ { c with p := ungroup v } = φ c) : SeqHolds φ seqRti :=
  seqHolds_cons (holds_dummyStep fun _ => rfl) (seqHolds_cons (holds_dummyStep fun c => hφ.2 c _)
    (seqHolds_cons (holds_readStep fun v c => (hφ.2 _ _).trans (h v c))
      (seqHolds_cons (holds_readStep fun _ c => (hφ.2 _ _).trans (hφ.1 c _ _ _))
        (seqHolds_cons (holds_readStep fun _ c => hφ.1 c _ _ _) seqHolds_nil))))

theorem holds_entryPush (hφ : BlindS φ) {effect : Cpu → Cpu} (h : ∀ c, φ (effect c) = φ c)
    (value : Pending → Cpu → Byte) : StepHolds φ (entryPush value effect) := by
  intro s
  unfold entryPush
  split
  · exact fun _ u => (h _).trans (hφ.2 u.cpu _)
  all_goals exact fun u => (h _).trans (hφ.2 u.cpu _)

/-- The interrupt sequence keeps what neither `S` nor `I` is part of. -/
theorem holds_seqInt (hφ : BlindS φ) (h : ∀ c : Cpu, φ { c with p := { c.p with i := true } } = φ c) :
    SeqHolds φ seqInt := by
  refine seqHolds_cons ?_ (seqHolds_cons (holds_entryPush hφ (fun _ => rfl) _)
    (seqHolds_cons (holds_entryPush hφ (fun _ => rfl) _) (seqHolds_cons (holds_entryPush hφ h _)
      (seqHolds_cons (fun _ _ u => hφ.1 u.cpu _ _ _) (seqHolds_cons (fun _ _ u => hφ.1 u.cpu _ _ _) seqHolds_nil)))))
  intro s v u
  simp only
  split
  · exact hφ.1 u.cpu _ _ _
  all_goals rfl

theorem holds_seqIll (b : Byte) : SeqHolds φ (seqIll b) := seqHolds_cons (fun _ => trivial) seqHolds_nil

end Sys2Proof.Machine
end

