-- ==== Sys2Proof/Laws/PerInstr.lean ====
section
/-! SUPPORT. Families of statements about the instruction as syntax, one lemma a constructor (LAWS.json). -/

namespace Sys2Proof.Laws.RoundTrip

/-- No illegal byte is a byte of the opcode table. -/
theorem illegal_not_in_table :
    ((illegalBytes.map BitVec.toNat).all fun n =>
      (opcodeTable.map fun p => p.1.toNat).all fun k => !(Nat.beq n k)) = true := by decide +kernel

/-- The opcode table has no row for an illegal byte (30_encoding.md R103, R104). -/
theorem lookup_illegal {b : Byte} (h : illegalBytes.contains b = true) : opcodeTable.lookup b = none := by
  rw [List.lookup_eq_none_iff]
  intro p hp
  have h1 := List.all_eq_true.1 illegal_not_in_table b.toNat (List.mem_map_of_mem (by simpa using h))
  have h2 := List.all_eq_true.1 h1 p.1.toNat (List.mem_map_of_mem (f := fun p : Byte × Instr => p.1.toNat) hp)
  rw [bne_iff_ne]
  rintro rfl
  simp at h2

/-- A well-formed instruction has an opcode byte, and the decoder reads that byte as the instruction (30_encoding.md R103,
R104, against the byte each instruction's own rule gives it). -/
def Statement (i : Instr) : Prop := wellFormed i = true → ∃ b, opcodeOf i = some b ∧ decodeOpcode b = i

/-- A decidable form of the statement. -/
theorem of_decide {i : Instr}
    (h : wellFormed i = true → (opcodeOf i).any (fun b => decide (decodeOpcode b = i)) = true) : Statement i := by
  intro hw
  have hb := h hw
  cases ho : opcodeOf i with
  | none => rw [ho] at hb; cases hb
  | some b => rw [ho] at hb; exact ⟨b, rfl, of_decide_eq_true hb⟩

theorem lda (m : RMode) : Statement (.lda m) := of_decide (by cases m <;> decide)
theorem ldx (m : RMode) : Statement (.ldx m) := of_decide (by cases m <;> decide)
theorem ldy (m : RMode) : Statement (.ldy m) := of_decide (by cases m <;> decide)
theorem sta (m : WMode) : Statement (.sta m) := of_decide (by cases m <;> decide)
theorem stx (m : WMode) : Statement (.stx m) := of_decide (by cases m <;> decide)
theorem sty (m : WMode) : Statement (.sty m) := of_decide (by cases m <;> decide)
theorem tax : Statement .tax := of_decide (by decide)
theorem tay : Statement .tay := of_decide (by decide)
theorem txa : Statement .txa := of_decide (by decide)
theorem tya : Statement .tya := of_decide (by decide)
theorem tsx : Statement .tsx := of_decide (by decide)
theorem txs : Statement .txs := of_decide (by decide)
theorem adc (m : RMode) : Statement (.adc m) := of_decide (by cases m <;> decide)
theorem sbc (m : RMode) : Statement (.sbc m) := of_decide (by cases m <;> decide)
theorem and (m : RMode) : Statement (.and m) := of_decide (by cases m <;> decide)
theorem ora (m : RMode) : Statement (.ora m) := of_decide (by cases m <;> decide)
theorem eor (m : RMode) : Statement (.eor m) := of_decide (by cases m <;> decide)
theorem cmp (m : RMode) : Statement (.cmp m) := of_decide (by cases m <;> decide)
theorem cpx (m : RMode) : Statement (.cpx m) := of_decide (by cases m <;> decide)
theorem cpy (m : RMode) : Statement (.cpy m) := of_decide (by cases m <;> decide)
theorem bit (m : RMode) : Statement (.bit m) := of_decide (by cases m <;> decide)
theorem asl (m : MMode) : Statement (.asl m) := of_decide (by cases m <;> decide)
theorem lsr (m : MMode) : Statement (.lsr m) := of_decide (by cases m <;> decide)
theorem rol (m : MMode) : Statement (.rol m) := of_decide (by cases m <;> decide)
theorem ror (m : MMode) : Statement (.ror m) := of_decide (by cases m <;> decide)
theorem inc (m : MMode) : Statement (.inc m) := of_decide (by cases m <;> decide)
theorem dec (m : MMode) : Statement (.dec m) := of_decide (by cases m <;> decide)
theorem inx : Statement .inx := of_decide (by decide)
theorem iny : Statement .iny := of_decide (by decide)
theorem dex : Statement .dex := of_decide (by decide)
theorem dey : Statement .dey := of_decide (by decide)
theorem bpl : Statement .bpl := of_decide (by decide)
theorem bmi : Statement .bmi := of_decide (by decide)
theorem bvc : Statement .bvc := of_decide (by decide)
theorem bvs : Statement .bvs := of_decide (by decide)
theorem bcc : Statement .bcc := of_decide (by decide)
theorem bcs : Statement .bcs := of_decide (by decide)
theorem bne : Statement .bne := of_decide (by decide)
theorem beq : Statement .beq := of_decide (by decide)
theorem jmp : Statement .jmp := of_decide (by decide)
theorem jsr : Statement .jsr := of_decide (by decide)
theorem rts : Statement .rts := of_decide (by decide)
theorem pha : Statement .pha := of_decide (by decide)
theorem pla : Statement .pla := of_decide (by decide)
theorem php : Statement .php := of_decide (by decide)
theorem plp : Statement .plp := of_decide (by decide)
theorem clc : Statement .clc := of_decide (by decide)
theorem sec : Statement .sec := of_decide (by decide)
theorem cli : Statement .cli := of_decide (by decide)
theorem sei : Statement .sei := of_decide (by decide)
theorem clv : Statement .clv := of_decide (by decide)
theorem cld : Statement .cld := of_decide (by decide)
theorem sed : Statement .sed := of_decide (by decide)
theorem nop : Statement .nop := of_decide (by decide)
theorem brk : Statement .brk := of_decide (by decide)
theorem rti : Statement .rti := of_decide (by decide)
theorem ill (b : Byte) : Statement (.ill b) := fun h =>
  ⟨b, if_pos h, by rw [decodeOpcode, lookup_illegal h]⟩

end Sys2Proof.Laws.RoundTrip
end

