-- ==== Sys2Proof/Tests/Slice0.lean ====
section
/-! SUPPORT. The model's own tests: ill-formed terms refused, the opcode table, one or two steps of every instruction (expected
values: the rows of 95_test_vectors.md named by each test's comment), and a witness for the hypotheses of every statement. -/

namespace Sys2Proof.Tests

open Sys2Proof Sys2Proof.Machine

set_option Elab.async false

/-! ## WellFormed: a term each check refuses -/

theorem test_illformed_full : [Instr.lda .zpy, .adc .zpy, .sbc .zpy, .and .zpy, .ora .zpy, .eor .zpy, .cmp .zpy].all
    (fun i => !wellFormed i) = true := by decide
theorem test_illformed_ldx : [Instr.ldx .zpx, .ldx .abx, .ldx .izy].all (fun i => !wellFormed i) = true := by decide
theorem test_illformed_ldy : [Instr.ldy .zpy, .ldy .aby, .ldy .izy].all (fun i => !wellFormed i) = true := by decide
theorem test_illformed_cpx_cpy : [Instr.cpx .zpx, .cpy .abx, .cpx .izy].all (fun i => !wellFormed i) = true := by decide
theorem test_illformed_bit : [Instr.bit .imm, .bit .zpx].all (fun i => !wellFormed i) = true := by decide
theorem test_illformed_sta : wellFormed (.sta .zpy) = false := by decide
theorem test_illformed_stx : [Instr.stx .zpx, .stx .aby].all (fun i => !wellFormed i) = true := by decide
theorem test_illformed_sty : [Instr.sty .zpy, .sty .abx].all (fun i => !wellFormed i) = true := by decide
theorem test_illformed_inc_dec : [Instr.inc .acc, .dec .acc].all (fun i => !wellFormed i) = true := by decide
theorem test_illformed_ill : wellFormed (.ill 0xA9#8) = false := by decide

/-! ## Decoding: words written out from the table of 30_encoding.md R103 -/

/-- Every listed word decodes to its well-formed instruction, whose encoding begins with the word's opcode byte. -/
def decodes (l : List (Nat × Nat × Instr)) : Bool :=
  l.all fun (n, w, i) => decodeTableWord n w == some i && wellFormed i && opcodeOf i == some (BitVec.ofNat 8 w)

/-- The opcode bytes of 41_load_store_transfer.md, each with operand bytes 0x34 and 0x12 above it. -/
theorem test_decode_loads_stores_transfers :
    (decodes
     [(16, 0x34A5, .lda .zp), (16, 0x34A9, .lda .imm), (24, 0x1234AD, .lda .abs), (16, 0x34B1, .lda .izy),
      (16, 0x34B5, .lda .zpx), (24, 0x1234B9, .lda .aby), (24, 0x1234BD, .lda .abx), (16, 0x34A2, .ldx .imm),
      (16, 0x34A6, .ldx .zp), (24, 0x1234AE, .ldx .abs), (16, 0x34B6, .ldx .zpy), (24, 0x1234BE, .ldx .aby)] &&
     decodes
     [(16, 0x34A0, .ldy .imm), (16, 0x34A4, .ldy .zp), (24, 0x1234AC, .ldy .abs), (16, 0x34B4, .ldy .zpx),
      (24, 0x1234BC, .ldy .abx), (16, 0x3485, .sta .zp), (24, 0x12348D, .sta .abs), (16, 0x3491, .sta .izy),
      (16, 0x3495, .sta .zpx), (24, 0x123499, .sta .aby), (24, 0x12349D, .sta .abx), (16, 0x3486, .stx .zp)] &&
     decodes
     [(24, 0x12348E, .stx .abs), (16, 0x3496, .stx .zpy), (16, 0x3484, .sty .zp), (24, 0x12348C, .sty .abs),
      (16, 0x3494, .sty .zpx), (8, 0xAA, .tax), (8, 0xA8, .tay), (8, 0x8A, .txa), (8, 0x98, .tya), (8, 0xBA, .tsx),
      (8, 0x9A, .txs)]) = true := by decide +kernel

/-- The opcode bytes of 42_arith_logic.md, each with operand bytes 0x34 and 0x12 above it. -/
theorem test_decode_arithmetic_logic :
    (decodes
     [(16, 0x3465, .adc .zp), (16, 0x3469, .adc .imm), (24, 0x12346D, .adc .abs), (16, 0x3471, .adc .izy),
      (16, 0x3475, .adc .zpx), (24, 0x123479, .adc .aby), (24, 0x12347D, .adc .abx), (16, 0x34E5, .sbc .zp),
      (16, 0x34E9, .sbc .imm), (24, 0x1234ED, .sbc .abs), (16, 0x34F1, .sbc .izy), (16, 0x34F5, .sbc .zpx)] &&
     decodes
     [(24, 0x1234F9, .sbc .aby), (24, 0x1234FD, .sbc .abx), (16, 0x3425, .and .zp), (16, 0x3429, .and .imm),
      (24, 0x12342D, .and .abs), (16, 0x3431, .and .izy), (16, 0x3435, .and .zpx), (24, 0x123439, .and .aby),
      (24, 0x12343D, .and .abx), (16, 0x3405, .ora .zp), (16, 0x3409, .ora .imm), (24, 0x12340D, .ora .abs)] &&
     decodes
     [(16, 0x3411, .ora .izy), (16, 0x3415, .ora .zpx), (24, 0x123419, .ora .aby), (24, 0x12341D, .ora .abx),
      (16, 0x3445, .eor .zp), (16, 0x3449, .eor .imm), (24, 0x12344D, .eor .abs), (16, 0x3451, .eor .izy),
      (16, 0x3455, .eor .zpx), (24, 0x123459, .eor .aby), (24, 0x12345D, .eor .abx), (16, 0x34C5, .cmp .zp)] &&
     decodes
     [(16, 0x34C9, .cmp .imm), (24, 0x1234CD, .cmp .abs), (16, 0x34D1, .cmp .izy), (16, 0x34D5, .cmp .zpx),
      (24, 0x1234D9, .cmp .aby), (24, 0x1234DD, .cmp .abx), (16, 0x34E0, .cpx .imm), (16, 0x34E4, .cpx .zp),
      (24, 0x1234EC, .cpx .abs), (16, 0x34C0, .cpy .imm), (16, 0x34C4, .cpy .zp), (24, 0x1234CC, .cpy .abs)] &&
     decodes
     [(16, 0x3424, .bit .zp), (24, 0x12342C, .bit .abs)]) = true := by decide +kernel

/-- The opcode bytes of 43_shift_incdec.md, each with operand bytes 0x34 and 0x12 above it. -/
theorem test_decode_shifts_counts :
    (decodes
     [(16, 0x3406, .asl .zp), (8, 0x0A, .asl .acc), (24, 0x12340E, .asl .abs), (16, 0x3416, .asl .zpx),
      (24, 0x12341E, .asl .abx), (16, 0x3446, .lsr .zp), (8, 0x4A, .lsr .acc), (24, 0x12344E, .lsr .abs),
      (16, 0x3456, .lsr .zpx), (24, 0x12345E, .lsr .abx), (16, 0x3426, .rol .zp), (8, 0x2A, .rol .acc)] &&
     decodes
     [(24, 0x12342E, .rol .abs), (16, 0x3436, .rol .zpx), (24, 0x12343E, .rol .abx), (16, 0x3466, .ror .zp),
      (8, 0x6A, .ror .acc), (24, 0x12346E, .ror .abs), (16, 0x3476, .ror .zpx), (24, 0x12347E, .ror .abx),
      (16, 0x34E6, .inc .zp), (24, 0x1234EE, .inc .abs), (16, 0x34F6, .inc .zpx), (24, 0x1234FE, .inc .abx)] &&
     decodes
     [(16, 0x34C6, .dec .zp), (24, 0x1234CE, .dec .abs), (16, 0x34D6, .dec .zpx), (24, 0x1234DE, .dec .abx),
      (8, 0xE8, .inx), (8, 0xC8, .iny), (8, 0xCA, .dex), (8, 0x88, .dey)]) = true := by decide +kernel

/-- The opcode bytes of 44_branch_jump.md, each with operand bytes 0x34 and 0x12 above it. -/
theorem test_decode_control_flow :
    (decodes
     [(16, 0x3410, .bpl), (16, 0x3430, .bmi), (16, 0x3450, .bvc), (16, 0x3470, .bvs), (16, 0x3490, .bcc),
      (16, 0x34B0, .bcs), (16, 0x34D0, .bne), (16, 0x34F0, .beq), (24, 0x12344C, .jmp), (24, 0x123420, .jsr),
      (8, 0x60, .rts)]) = true := by decide +kernel

/-- The opcode bytes of 45_stack_flag_system.md, each with operand bytes 0x34 and 0x12 above it. -/
theorem test_decode_stack_flags_system :
    (decodes
     [(8, 0x48, .pha), (8, 0x68, .pla), (8, 0x08, .php), (8, 0x28, .plp), (8, 0x18, .clc), (8, 0x38, .sec),
      (8, 0x58, .cli), (8, 0x78, .sei), (8, 0xB8, .clv), (8, 0xD8, .cld), (8, 0xF8, .sed), (8, 0xEA, .nop)] &&
     decodes
     [(8, 0x00, .brk), (8, 0x40, .rti)]) = true := by decide +kernel

/-- The 114 bytes of R104 decode to their own illegal row. -/
theorem test_decode_illegal (b : Byte) (h : illegalBytes.contains b = true) : decodeOpcode b = .ill b := by
  rw [decodeOpcode, Laws.RoundTrip.lookup_illegal h]

theorem test_table_sizes : opcodeTable.length = 142 ∧ illegalBytes.length = 114 := by decide +kernel

theorem test_decode_truncated : decode [0xAD#8, 0x34#8] = .error (.truncated (.lda .abs) 1) ∧ decode [] = .error .noByte := by
  decide

/-! ## Single steps -/

/-- The vectors of the test image (95_test_vectors.md section 0): NMI 0x9000, Reset 0x8000, IRQ and BRK 0x9100. -/
def vectors : List Byte := [0x00#8, 0x90#8, 0x00#8, 0x80#8, 0x00#8, 0x91#8]

/-- The start of a single-instruction vector (95_test_vectors.md section 0), at an instruction boundary, with the PPU where its
ticks do nothing but advance. -/
def scene (pc : Word) (bytes : List Byte) (ram : Memory) (cpu : Cpu → Cpu) (ppu : Ppu → Ppu) : State :=
  pokePrg pc bytes (pokePrg 0xFFFA#16 vectors
    { State.reset with
      pending := .none, ram := ram, cpu := cpu { State.reset.cpu with s := 0xFD#8, pc := pc },
      ppu := ppu { State.reset.ppu with scanline := 240, dot := 1 } })

/-- The state in which FETCH leaves the machine, the operand bytes at 0x8000. -/
def inside (operands : List Byte) (ram : Memory) (cpu : Cpu → Cpu) : State :=
  scene 0x8000#16 operands ram (fun c => { cpu c with cursor := 0 }) id

/-- What a step's next state satisfies. -/
def after (s : State) (want : State → Bool) : Bool :=
  match step s with
  | .next t => want t
  | .fault _ => false
  | .refused _ => false

/-- The flags in the order `NVDIZC` of the vectors. -/
def flags (t : State) : BitVec 6 :=
  let p := t.cpu.p
  BitVec.ofBool p.n ++ BitVec.ofBool p.v ++ BitVec.ofBool p.d ++ BitVec.ofBool p.i ++ BitVec.ofBool p.z ++ BitVec.ofBool p.c

theorem test_lda_1 : -- LDA ($20),Y
    after (scene 0x8000#16 [0xB1#8, 0x20#8] [(0x020, 0xF0#8), (0x021, 0x02#8), (0x310, 0xC3#8)]
        (fun c => { c with y := 0x20#8 }) id) (fun t =>
      t.ppu.dot == 19 && t.cpu.a == 0xC3#8 && flags t == 0b100000#6) = true := by decide +kernel

theorem test_lda_2 : -- LDA $2002
    after (scene 0x8000#16 [0xAD#8, 0x02#8, 0x20#8] [] id
        (fun p => { p with vblank := true, wlatch := .second })) (fun t =>
      t.ppu.dot == 13 && t.cpu.a == 0x80#8 && t.ppu.vblank == false && t.ppu.wlatch == .first &&
      flags t == 0b100000#6) = true := by decide +kernel

theorem test_ldx_1 : -- LDX $F0,Y
    after (scene 0x8000#16 [0xB6#8, 0xF0#8] [(0x001, 0x44#8)] (fun c => { c with y := 0x11#8 }) id) (fun t =>
      t.ppu.dot == 13 && t.cpu.x == 0x44#8 && flags t == 0b000000#6) = true := by decide +kernel

theorem test_ldy_1 : -- LDY $0200,X
    after (scene 0x8000#16 [0xBC#8, 0x00#8, 0x02#8] [(0x2FF, 0x90#8)] (fun c => { c with x := 0xFF#8 }) id) (fun t =>
      t.ppu.dot == 13 && t.cpu.y == 0x90#8 && flags t == 0b100000#6) = true := by decide +kernel

theorem test_sta_1 : -- STA $02FF,X
    after (scene 0x8000#16 [0x9D#8, 0xFF#8, 0x02#8] [] (fun c => { c with a := 0x31#8, x := 0x01#8 }) id) (fun t =>
      t.ppu.dot == 16 && cellRead t.ram 0x300 == 0x31#8) = true := by decide +kernel

theorem test_sta_2 : -- STA ($20),Y
    after (scene 0x8000#16 [0x91#8, 0x20#8] [(0x020, 0xFF#8), (0x021, 0x02#8)]
        (fun c => { c with a := 0x35#8, y := 0x01#8 }) id) (fun t =>
      t.ppu.dot == 19 && cellRead t.ram 0x300 == 0x35#8) = true := by decide +kernel

theorem test_stx_1 : -- STX $FF,Y
    after (scene 0x8000#16 [0x96#8, 0xFF#8] [] (fun c => { c with x := 0x78#8, y := 0x02#8 }) id) (fun t =>
      t.ppu.dot == 13 && cellRead t.ram 0x001 == 0x78#8) = true := by decide +kernel

theorem test_sty_1 : -- STY $FF,X
    after (scene 0x8000#16 [0x94#8, 0xFF#8] [] (fun c => { c with y := 0x7B#8, x := 0x01#8 }) id) (fun t =>
      t.ppu.dot == 13 && cellRead t.ram 0x000 == 0x7B#8) = true := by decide +kernel

theorem test_tax_1 : -- TAX
    after (scene 0x8000#16 [0xAA#8] [] (fun c => { c with a := 0x80#8 }) id) (fun t =>
      t.ppu.dot == 7 && t.cpu.a == 0x80#8 && t.cpu.x == 0x80#8 && flags t == 0b100000#6) = true := by decide +kernel

theorem test_tay_1 : -- TAY
    after (scene 0x8000#16 [0xA8#8] [] (fun c => { c with a := 0x00#8, y := 0x01#8 }) id) (fun t =>
      t.ppu.dot == 7 && t.cpu.a == 0x00#8 && t.cpu.y == 0x00#8 && flags t == 0b000010#6) = true := by decide +kernel

theorem test_txa_1 : -- TXA
    after (scene 0x8000#16 [0x8A#8] [] (fun c => { c with x := 0x7F#8, a := 0xFF#8 }) id) (fun t =>
      t.ppu.dot == 7 && t.cpu.a == 0x7F#8 && t.cpu.x == 0x7F#8 && flags t == 0b000000#6) = true := by decide +kernel

theorem test_tya_1 : -- TYA
    after (scene 0x8000#16 [0x98#8] [] (fun c => { c with y := 0xFF#8 }) id) (fun t =>
      t.ppu.dot == 7 && t.cpu.a == 0xFF#8 && t.cpu.y == 0xFF#8 && flags t == 0b100000#6) = true := by decide +kernel

theorem test_tsx_1 : -- TSX
    after (scene 0x8000#16 [0xBA#8] [] (fun c => { c with s := 0x00#8, x := 0x01#8 }) id) (fun t =>
      t.ppu.dot == 7 && t.cpu.x == 0x00#8 && t.cpu.s == 0x00#8 && flags t == 0b000010#6) = true := by decide +kernel

theorem test_txs_1 : -- TXS
    after (scene 0x8000#16 [0x9A#8] [] (fun c => { c with x := 0x00#8, p := { c.p with n := true } }) id) (fun t =>
      t.ppu.dot == 7 && t.cpu.x == 0x00#8 && t.cpu.s == 0x00#8 && flags t == 0b100000#6) = true := by decide +kernel

theorem test_adc_1 : -- ADC #$90
    after (scene 0x8000#16 [0x69#8, 0x90#8] [] (fun c => { c with a := 0xD0#8 }) id) (fun t =>
      t.ppu.dot == 7 && t.cpu.a == 0x60#8 && flags t == 0b010001#6) = true := by decide +kernel

theorem test_adc_2 : -- ADC $02FF,X
    after (scene 0x8000#16 [0x7D#8, 0xFF#8, 0x02#8] [(0x300, 0x01#8)] (fun c => { c with a := 0x01#8, x := 0x01#8 })
        id) (fun t =>
      t.ppu.dot == 16 && t.cpu.a == 0x02#8 && flags t == 0b000000#6) = true := by decide +kernel

theorem test_sbc_1 : -- SBC #$B0
    after (scene 0x8000#16 [0xE9#8, 0xB0#8] [] (fun c => { c with a := 0x50#8, p := { c.p with c := true } })
        id) (fun t =>
      t.ppu.dot == 7 && t.cpu.a == 0xA0#8 && flags t == 0b110000#6) = true := by decide +kernel

theorem test_sbc_2 : -- SBC ($20),Y
    after (scene 0x8000#16 [0xF1#8, 0x20#8] [(0x020, 0xF8#8), (0x021, 0x02#8), (0x308, 0x01#8)]
        (fun c => { c with a := 0x00#8, y := 0x10#8, p := { c.p with c := true } }) id) (fun t =>
      t.ppu.dot == 19 && t.cpu.a == 0xFF#8 && flags t == 0b100000#6) = true := by decide +kernel

theorem test_and_1 : -- AND ($20),Y
    after (scene 0x8000#16 [0x31#8, 0x20#8] [(0x021, 0x03#8), (0x301, 0x0F#8)]
        (fun c => { c with a := 0x3C#8, y := 0x01#8 }) id) (fun t =>
      t.ppu.dot == 16 && t.cpu.a == 0x0C#8 && flags t == 0b000000#6) = true := by decide +kernel

theorem test_ora_1 : -- ORA $0200,Y
    after (scene 0x8000#16 [0x19#8, 0x00#8, 0x02#8] [(0x202, 0x30#8)] (fun c => { c with a := 0x0F#8, y := 0x02#8 })
        id) (fun t =>
      t.ppu.dot == 13 && t.cpu.a == 0x3F#8 && flags t == 0b000000#6) = true := by decide +kernel

theorem test_eor_1 : -- EOR $10,X
    after (scene 0x8000#16 [0x55#8, 0x10#8] [(0x000, 0x55#8)] (fun c => { c with a := 0xAA#8, x := 0xF0#8 })
        id) (fun t =>
      t.ppu.dot == 13 && t.cpu.a == 0xFF#8 && flags t == 0b100000#6) = true := by decide +kernel

theorem test_cmp_1 : -- CMP #$01
    after (scene 0x8000#16 [0xC9#8, 0x01#8] [] (fun c => { c with a := 0x00#8 }) id) (fun t =>
      t.ppu.dot == 7 && t.cpu.a == 0x00#8 && flags t == 0b100000#6) = true := by decide +kernel

theorem test_cmp_2 : -- CMP $0200,X
    after (scene 0x8000#16 [0xDD#8, 0x00#8, 0x02#8] [(0x203, 0x10#8)] (fun c => { c with a := 0x10#8, x := 0x03#8 })
        id) (fun t =>
      t.ppu.dot == 13 && t.cpu.a == 0x10#8 && flags t == 0b000011#6) = true := by decide +kernel

theorem test_cpx_1 : -- CPX $10
    after (scene 0x8000#16 [0xE4#8, 0x10#8] [(0x010, 0x06#8)] (fun c => { c with x := 0x05#8 }) id) (fun t =>
      t.ppu.dot == 10 && t.cpu.x == 0x05#8 && flags t == 0b100000#6) = true := by decide +kernel

theorem test_cpy_1 : -- CPY $0200
    after (scene 0x8000#16 [0xCC#8, 0x00#8, 0x02#8] [(0x200, 0x01#8)] (fun c => { c with y := 0xFF#8 }) id) (fun t =>
      t.ppu.dot == 13 && t.cpu.y == 0xFF#8 && flags t == 0b100001#6) = true := by decide +kernel

theorem test_bit_1 : -- BIT $10
    after (scene 0x8000#16 [0x24#8, 0x10#8] [(0x010, 0xC0#8)] (fun c => { c with a := 0x01#8 }) id) (fun t =>
      t.ppu.dot == 10 && t.cpu.a == 0x01#8 && flags t == 0b110010#6) = true := by decide +kernel

theorem test_asl_1 : -- ASL $10
    after (scene 0x8000#16 [0x06#8, 0x10#8] [(0x010, 0xC0#8)] id id) (fun t =>
      t.ppu.dot == 16 && cellRead t.ram 0x010 == 0x80#8 && flags t == 0b100001#6) = true := by decide +kernel

theorem test_asl_2 : -- ASL A
    after (scene 0x8000#16 [0x0A#8] [] (fun c => { c with a := 0x81#8 }) id) (fun t =>
      t.ppu.dot == 7 && t.cpu.a == 0x02#8 && flags t == 0b000001#6) = true := by decide +kernel

theorem test_lsr_1 : -- LSR $0200,X
    after (scene 0x8000#16 [0x5E#8, 0x00#8, 0x02#8] [(0x2FF, 0xFF#8)] (fun c => { c with x := 0xFF#8 }) id) (fun t =>
      t.ppu.dot == 22 && cellRead t.ram 0x2FF == 0x7F#8 && flags t == 0b000001#6) = true := by decide +kernel

theorem test_lsr_2 : -- LSR A
    after (scene 0x8000#16 [0x4A#8] [] (fun c => { c with a := 0x80#8, p := { c.p with c := true } }) id) (fun t =>
      t.ppu.dot == 7 && t.cpu.a == 0x40#8 && flags t == 0b000000#6) = true := by decide +kernel

theorem test_rol_1 : -- ROL $10,X
    after (scene 0x8000#16 [0x36#8, 0x10#8] [(0x000, 0x01#8)] (fun c => { c with x := 0xF0#8 }) id) (fun t =>
      t.ppu.dot == 19 && cellRead t.ram 0x000 == 0x02#8 && flags t == 0b000000#6) = true := by decide +kernel

theorem test_rol_2 : -- ROL A
    after (scene 0x8000#16 [0x2A#8] [] (fun c => { c with a := 0x40#8, p := { c.p with c := true } }) id) (fun t =>
      t.ppu.dot == 7 && t.cpu.a == 0x81#8 && flags t == 0b100000#6) = true := by decide +kernel

theorem test_ror_1 : -- ROR $02FF,X
    after (scene 0x8000#16 [0x7E#8, 0xFF#8, 0x02#8] [(0x300, 0x01#8)] (fun c => { c with x := 0x01#8 }) id) (fun t =>
      t.ppu.dot == 22 && cellRead t.ram 0x300 == 0x00#8 && flags t == 0b000011#6) = true := by decide +kernel

theorem test_ror_2 : -- ROR A
    after (scene 0x8000#16 [0x6A#8] [] (fun c => { c with a := 0x02#8, p := { c.p with c := true } }) id) (fun t =>
      t.ppu.dot == 7 && t.cpu.a == 0x81#8 && flags t == 0b100000#6) = true := by decide +kernel

theorem test_inc_1 : -- INC $0200
    after (scene 0x8000#16 [0xEE#8, 0x00#8, 0x02#8] [(0x200, 0xFE#8)] id id) (fun t =>
      t.ppu.dot == 19 && cellRead t.ram 0x200 == 0xFF#8 && flags t == 0b100000#6) = true := by decide +kernel

theorem test_inc_2 : -- INC $10
    after (scene 0x8000#16 [0xE6#8, 0x10#8] [(0x010, 0xFF#8)] (fun c => { c with p := { c.p with c := true } })
        id) (fun t =>
      t.ppu.dot == 16 && cellRead t.ram 0x010 == 0x00#8 && flags t == 0b000011#6) = true := by decide +kernel

theorem test_dec_1 : -- DEC $10
    after (scene 0x8000#16 [0xC6#8, 0x10#8] [] id id) (fun t =>
      t.ppu.dot == 16 && cellRead t.ram 0x010 == 0xFF#8 && flags t == 0b100000#6) = true := by decide +kernel

theorem test_inx_1 : -- INX
    after (scene 0x8000#16 [0xE8#8] [] (fun c => { c with x := 0xFF#8, p := { c.p with c := true } }) id) (fun t =>
      t.ppu.dot == 7 && t.cpu.x == 0x00#8 && flags t == 0b000011#6) = true := by decide +kernel

theorem test_iny_1 : -- INY
    after (scene 0x8000#16 [0xC8#8] [] (fun c => { c with y := 0x7F#8 }) id) (fun t =>
      t.ppu.dot == 7 && t.cpu.y == 0x80#8 && flags t == 0b100000#6) = true := by decide +kernel

theorem test_dex_1 : -- DEX
    after (scene 0x8000#16 [0xCA#8] [] (fun c => { c with x := 0x00#8 }) id) (fun t =>
      t.ppu.dot == 7 && t.cpu.x == 0xFF#8 && flags t == 0b100000#6) = true := by decide +kernel

theorem test_dey_1 : -- DEY
    after (scene 0x8000#16 [0x88#8] [] (fun c => { c with y := 0x80#8 }) id) (fun t =>
      t.ppu.dot == 7 && t.cpu.y == 0x7F#8 && flags t == 0b000000#6) = true := by decide +kernel

theorem test_beq_1 : -- BEQ +2
    after (scene 0x80FD#16 [0xF0#8, 0x02#8] [] (fun c => { c with p := { c.p with z := true } }) id) (fun t =>
      t.ppu.dot == 13 && t.cpu.pc == 0x8101#16) = true := by decide +kernel

theorem test_bne_1 : -- BNE -128
    after (scene 0x8100#16 [0xD0#8, 0x80#8] [] id id) (fun t =>
      t.ppu.dot == 13 && t.cpu.pc == 0x8082#16) = true := by decide +kernel

theorem test_bcc_1 : -- BCC +4
    after (scene 0xFFFD#16 [0x90#8, 0x04#8] [] id id) (fun t =>
      t.ppu.dot == 13 && t.cpu.pc == 0x0003#16) = true := by decide +kernel

theorem test_bpl_1 : -- BPL +16
    after (scene 0x8000#16 [0x10#8, 0x10#8] [] id id) (fun t =>
      t.ppu.dot == 10 && t.cpu.pc == 0x8012#16) = true := by decide +kernel

theorem test_bmi_1 : -- BMI +16
    after (scene 0x8000#16 [0x30#8, 0x10#8] [] (fun c => { c with p := { c.p with n := true } }) id) (fun t =>
      t.ppu.dot == 10 && t.cpu.pc == 0x8012#16) = true := by decide +kernel

theorem test_bvc_1 : -- BVC +16
    after (scene 0x8000#16 [0x50#8, 0x10#8] [] id id) (fun t =>
      t.ppu.dot == 10 && t.cpu.pc == 0x8012#16) = true := by decide +kernel

theorem test_bvs_1 : -- BVS +16
    after (scene 0x8000#16 [0x70#8, 0x10#8] [] (fun c => { c with p := { c.p with v := true } }) id) (fun t =>
      t.ppu.dot == 10 && t.cpu.pc == 0x8012#16) = true := by decide +kernel

theorem test_bcs_1 : -- BCS +16
    after (scene 0x8000#16 [0xB0#8, 0x10#8] [] (fun c => { c with p := { c.p with c := true } }) id) (fun t =>
      t.ppu.dot == 10 && t.cpu.pc == 0x8012#16) = true := by decide +kernel

theorem test_beq_2 : -- BEQ +16
    after (scene 0x8000#16 [0xF0#8, 0x10#8] [] id id) (fun t =>
      t.ppu.dot == 7 && t.cpu.pc == 0x8002#16) = true := by decide +kernel

theorem test_jmp_1 : -- JMP $1234
    after (scene 0x8000#16 [0x4C#8, 0x34#8, 0x12#8] [] id id) (fun t =>
      t.ppu.dot == 10 && t.cpu.pc == 0x1234#16 && t.cpu.s == 0xFD#8 &&
      flags t == 0b000000#6) = true := by decide +kernel

theorem test_jsr_1 : -- JSR $1234
    after (scene 0x80FE#16 [0x20#8, 0x34#8, 0x12#8] [] id id) (fun t =>
      t.ppu.dot == 19 && t.cpu.pc == 0x1234#16 && t.cpu.s == 0xFB#8 && cellRead t.ram 0x1FD == 0x81#8 &&
      cellRead t.ram 0x1FC == 0x00#8) = true := by decide +kernel

theorem test_rts_1 : -- RTS
    after (scene 0x8000#16 [0x60#8] [(0x1FC, 0xFF#8), (0x1FD, 0x80#8)] (fun c => { c with s := 0xFB#8 }) id) (fun t =>
      t.ppu.dot == 19 && t.cpu.pc == 0x8100#16 && t.cpu.s == 0xFD#8) = true := by decide +kernel

theorem test_pha_1 : -- PHA
    after (scene 0x8000#16 [0x48#8] [] (fun c => { c with a := 0x42#8, s := 0x00#8 }) id) (fun t =>
      t.ppu.dot == 10 && t.cpu.s == 0xFF#8 && cellRead t.ram 0x100 == 0x42#8) = true := by decide +kernel

theorem test_pla_1 : -- PLA
    after (scene 0x8000#16 [0x68#8] [(0x100, 0x7F#8)] (fun c => { c with s := 0xFF#8 }) id) (fun t =>
      t.ppu.dot == 13 && t.cpu.a == 0x7F#8 && t.cpu.s == 0x00#8 && flags t == 0b000000#6) = true := by decide +kernel

theorem test_php_1 : -- PHP
    after (scene 0x8000#16 [0x08#8] [] (fun c => { c with p := { c.p with c := true, b := true } }) id) (fun t =>
      t.ppu.dot == 10 && t.cpu.s == 0xFC#8 && cellRead t.ram 0x1FD == 0x31#8 && t.cpu.p.b == true &&
      flags t == 0b000001#6) = true := by decide +kernel

theorem test_plp_1 : -- PLP
    after (scene 0x8000#16 [0x28#8] [(0x1FE, 0xC3#8)] id id) (fun t =>
      t.ppu.dot == 13 && t.cpu.s == 0xFE#8 && t.cpu.p.b == false && flags t == 0b110011#6) = true := by decide +kernel

theorem test_clc_1 : -- CLC
    after (scene 0x8000#16 [0x18#8] [] (fun c => { c with p := { c.p with c := true } }) id) (fun t =>
      t.ppu.dot == 7 && t.cpu.p.b == false && flags t == 0b000000#6) = true := by decide +kernel

theorem test_sec_1 : -- SEC
    after (scene 0x8000#16 [0x38#8] []
        (fun c => { c with p := { c.p with n := true, v := true, d := true, i := true, z := true } }) id) (fun t =>
      t.ppu.dot == 7 && t.cpu.p.b == false && flags t == 0b111111#6) = true := by decide +kernel

theorem test_cli_1 : -- CLI
    after (scene 0x8000#16 [0x58#8] [] (fun c => { c with p := { c.p with i := true } }) id) (fun t =>
      t.ppu.dot == 7 && t.cpu.p.b == false && flags t == 0b000000#6) = true := by decide +kernel

theorem test_sei_1 : -- SEI
    after (scene 0x8000#16 [0x78#8] [] id id) (fun t =>
      t.ppu.dot == 7 && t.cpu.p.b == false && flags t == 0b000100#6) = true := by decide +kernel

theorem test_clv_1 : -- CLV
    after (scene 0x8000#16 [0xB8#8] [] (fun c => { c with p := { c.p with v := true } }) id) (fun t =>
      t.ppu.dot == 7 && t.cpu.p.b == false && flags t == 0b000000#6) = true := by decide +kernel

theorem test_cld_1 : -- CLD
    after (scene 0x8000#16 [0xD8#8] [] (fun c => { c with p := { c.p with d := true } }) id) (fun t =>
      t.ppu.dot == 7 && t.cpu.p.b == false && flags t == 0b000000#6) = true := by decide +kernel

theorem test_sed_1 : -- SED
    after (scene 0x8000#16 [0xF8#8] [] id id) (fun t =>
      t.ppu.dot == 7 && t.cpu.p.b == false && flags t == 0b001000#6) = true := by decide +kernel

theorem test_nop_1 : -- NOP
    after (scene 0x8000#16 [0xEA#8] [] id id) (fun t =>
      t.ppu.dot == 7 && t.cpu.pc == 0x8001#16 && t.cpu.a == 0x00#8 && t.cpu.x == 0x00#8 && t.cpu.y == 0x00#8 &&
      t.cpu.s == 0xFD#8 && flags t == 0b000000#6) = true := by decide +kernel

theorem test_brk_1 : -- BRK
    after (scene 0x8000#16 [0x00#8, 0xFF#8] [] (fun c => { c with s := 0x01#8 }) id) (fun t =>
      t.ppu.dot == 22 && t.cpu.pc == 0x9100#16 && t.cpu.s == 0xFE#8 && cellRead t.ram 0x101 == 0x80#8 &&
      cellRead t.ram 0x100 == 0x02#8 && cellRead t.ram 0x1FF == 0x30#8 && t.cpu.p.b == false &&
      flags t == 0b000100#6) = true := by decide +kernel

theorem test_rti_1 : -- RTI
    after (scene 0x8000#16 [0x40#8] [(0x100, 0xCD#8), (0x101, 0xAB#8), (0x1FF, 0xDB#8)]
        (fun c => { c with s := 0xFE#8 }) id) (fun t =>
      t.ppu.dot == 19 && t.cpu.pc == 0xABCD#16 && t.cpu.s == 0x01#8 && t.cpu.p.b == true &&
      flags t == 0b111011#6) = true := by decide +kernel

/-- A result is a next state. -/
def isNext (r : Result) : Bool :=
  match r with
  | .next _ => true
  | .fault _ => false
  | .refused _ => false

theorem of_isNext {r : Result} (h : isNext r = true) : ∃ t, r = .next t := by
  cases r with
  | next t => exact ⟨t, rfl⟩
  | fault f => cases h
  | refused q => cases h

/-- The fault of a result. -/
def faultOf (r : Result) : Option Fault :=
  match r with
  | .next _ => none
  | .fault f => some f
  | .refused _ => none

theorem of_faultOf {r : Result} {f : Fault} (h : faultOf r = some f) : r = .fault f := by
  cases r with
  | next t => cases h
  | fault g => cases h; rfl
  | refused q => cases h

/-- A read the bus answers, a write the bus takes. -/
def isOk {α : Type} (r : Except Fault α) : Bool :=
  match r with
  | .ok _ => true
  | .error _ => false

theorem of_isOk {α : Type} {r : Except Fault α} (h : isOk r = true) : ∃ x, r = .ok x := by
  cases r with
  | ok x => exact ⟨x, rfl⟩
  | error f => cases h

/-- The state `exec` answers, or the start where it answers none. -/
def answer (i : Instr) (s : State) : State :=
  match exec i s with
  | .next t => t
  | .fault _ => s
  | .refused _ => s

theorem answer_eq {i : Instr} {s : State} (h : isNext (exec i s) = true) : exec i s = .next (answer i s) := by
  obtain ⟨t, ht⟩ := of_isNext h
  rw [answer, ht]

theorem read_eq {a : Word} {s : State} {v : Byte} (h : plain a = true) (hv : peek s a = v) : busRead a s = .ok (v, s) := by
  rw [busRead_plain s h, hv]


/-- A whole-machine fault (`.byte $02`; `LDA $4018`; `STA $8000`). -/
theorem test_ill_1 : step (scene 0x8000#16 [0x02#8] [] id id) = .fault (.illegalOpcode 0x02#8) :=
  of_faultOf (by decide +kernel)

theorem test_read_hole : step (scene 0x8000#16 [0xAD#8, 0x18#8, 0x40#8] [] id id) = .fault (.busFault 0x4018#16) :=
  of_faultOf (by decide +kernel)

theorem test_write_prg : step (scene 0x8000#16 [0x8D#8, 0x00#8, 0x80#8] [] id id) = .fault (.busFault 0x8000#16) :=
  of_faultOf (by decide +kernel)

/-- 95_test_vectors.md 2.8, sequence A: the source's PPUADDR example. -/
theorem test_ppuaddr_example :
    (match (busWrite 0x2006#16 0x23#8 State.reset).bind fun s => (busWrite 0x2006#16 0xC0#8 s).bind (busWrite 0x2007#16 0x55#8) with
      | .ok t => t.ppu.vramAddr == 0x23C1#14 && cellRead t.ppu.vram 0x3C0 == 0x55#8
      | .error _ => false) = true := by decide +kernel

/-- 95_test_vectors.md 2.10: dots 0 and 4 of scanline 0, tile 01 in column 0. -/
theorem test_render :
    let s : State := { State.reset with
      ppu := { State.reset.ppu with vram := [(0, 0x01#8)] }, rom := { State.reset.rom with chr := [(0x10, 0xF0#8), (0x18, 0xCC#8)] } }
    cellRead (ppuTick s).ppu.fb 0 = 3#2 ∧
      cellRead (ppuTick { s with ppu := { s.ppu with dot := 4 } }).ppu.fb 4 = 2#2 := by decide +kernel

/-! ## The encoded words where `step` fetches: the host's probe -/

/-- From reset, the very next step runs the placed instruction. -/
theorem test_withFetchWord : after (State.reset.withFetchWord 16 0x5AA9) (fun t => t.cpu.a == 0x5A#8) = true := by
  decide +kernel

/-! ## Witnesses: a concrete state and operands that meet the hypotheses of each statement -/

theorem test_witness_DecodeOfEncodeIsTheInstruction :
    wellFormed (.lda .abs) = true ∧ [0x34#8, 0x12#8].length = (Instr.lda .abs).operandBytes := by decide

/-- In every form, reads before the operand are plain and the operand is readable; with and without a page crossing. -/
def ReadWitness (i : RMode → Instr) : Prop :=
  (∃ m, wellFormed (i m) = true) ∧
  (∀ m, ∃ (s t : State) (v : Byte), Fetched s ∧ (∀ a ∈ readAddrs m s, plain a = true) ∧
    busRead (readEa m s) (afterPpu (readTicks m s) s) = .ok (v, t)) ∧
  ∀ m, m = .abx ∨ m = .aby ∨ m = .izy → ∃ (s t : State) (v : Byte), Fetched s ∧ (∀ a ∈ readAddrs m s, plain a = true) ∧
    readTicks m s = (i m).format.operandBytes + 2 + (if m = .izy then 2 else 0) ∧
    busRead (readEa m s) (afterPpu (readTicks m s) s) = .ok (v, t)

/-- Operand 0x0210, or zero-page pointer 0x10 to 0x0000; nothing crosses. -/
def flat : State := inside [0x10#8, 0x02#8] [] id

/-- Operand 0x02FF, or zero-page pointer 0xFF to 0x01FF, with both indexes 1: every indexed form crosses. -/
def crossing : State := inside [0xFF#8, 0x02#8] [(0x00, 0x01#8), (0xFF, 0xFF#8)] fun c => { c with x := 0x01#8, y := 0x01#8 }

theorem flat_read (m : RMode) : ∃ (s t : State) (v : Byte), Fetched s ∧ (∀ a ∈ readAddrs m s, plain a = true) ∧
    busRead (readEa m s) (afterPpu (readTicks m s) s) = .ok (v, t) :=
  ⟨flat, _, _, ⟨rfl, rfl⟩, List.all_eq_true.1 (by cases m <;> decide +kernel), busRead_plain _ (by cases m <;> decide +kernel)⟩

theorem crossing_read (m : RMode) (n : Nat) (h : readTicks m crossing = n) :
    ∃ (s t : State) (v : Byte), Fetched s ∧ (∀ a ∈ readAddrs m s, plain a = true) ∧ readTicks m s = n ∧
      busRead (readEa m s) (afterPpu (readTicks m s) s) = .ok (v, t) :=
  ⟨crossing, _, _, ⟨rfl, rfl⟩, List.all_eq_true.1 (by cases m <;> decide +kernel), h, busRead_plain _ (by cases m <;> decide +kernel)⟩

theorem read_witness (i : RMode → Instr) (m : RMode) (hw : wellFormed (i m) = true)
    (h2 : (i .abx).format.operandBytes = 2 ∧ (i .aby).format.operandBytes = 2 ∧ (i .izy).format.operandBytes = 1) :
    ReadWitness i := by
  refine ⟨⟨m, hw⟩, flat_read, ?_⟩
  rintro m (rfl | rfl | rfl)
  · rw [h2.1]; exact crossing_read .abx _ (by decide +kernel)
  · rw [h2.2.1]; exact crossing_read .aby _ (by decide +kernel)
  · rw [h2.2.2]; exact crossing_read .izy _ (by decide +kernel)

theorem test_witness_LoadsComplete : ReadWitness .lda ∧ ReadWitness .ldx ∧ ReadWitness .ldy :=
  ⟨read_witness _ .zp rfl ⟨rfl, rfl, rfl⟩, read_witness _ .zp rfl ⟨rfl, rfl, rfl⟩, read_witness _ .zp rfl ⟨rfl, rfl, rfl⟩⟩

theorem test_witness_LogicCompletes : ReadWitness .and ∧ ReadWitness .ora ∧ ReadWitness .eor :=
  ⟨read_witness _ .zp rfl ⟨rfl, rfl, rfl⟩, read_witness _ .zp rfl ⟨rfl, rfl, rfl⟩, read_witness _ .zp rfl ⟨rfl, rfl, rfl⟩⟩

theorem test_witness_AddAndSubtractComplete : ReadWitness .adc ∧ ReadWitness .sbc :=
  ⟨read_witness _ .zp rfl ⟨rfl, rfl, rfl⟩, read_witness _ .zp rfl ⟨rfl, rfl, rfl⟩⟩

theorem test_witness_ComparesAndBitTestComplete : ReadWitness .cmp ∧ ReadWitness .cpx ∧ ReadWitness .cpy ∧ ReadWitness .bit :=
  ⟨read_witness _ .zp rfl ⟨rfl, rfl, rfl⟩, read_witness _ .zp rfl ⟨rfl, rfl, rfl⟩, read_witness _ .zp rfl ⟨rfl, rfl, rfl⟩,
    read_witness _ .zp rfl ⟨rfl, rfl, rfl⟩⟩

/-- In every form, a store to RAM and a store to a PPU port. -/
def WriteWitness (i : WMode → Instr) (value : Cpu → Byte) : Prop :=
  (∃ m, wellFormed (i m) = true) ∧
  ∀ m, ∃ s t : State, Fetched s ∧ (∀ a ∈ writeAddrs m s, plain a = true) ∧
    busWrite (writeEa m s) (value s.cpu) (afterPpu (writeTicks m) s) = .ok t

theorem write_witness (i : WMode → Instr) (value : Cpu → Byte) (hw : wellFormed (i .zp) = true) : WriteWitness i value :=
  ⟨⟨.zp, hw⟩, fun m => ⟨crossing, _, ⟨rfl, rfl⟩, List.all_eq_true.1 (by cases m <;> decide +kernel),
    busWrite_ram _ _ (by cases m <;> decide +kernel)⟩⟩

theorem test_witness_StoresComplete :
    WriteWitness .sta (fun c => c.a) ∧ WriteWitness .stx (fun c => c.x) ∧ WriteWitness .sty (fun c => c.y) :=
  ⟨write_witness _ _ rfl, write_witness _ _ rfl, write_witness _ _ rfl⟩

/-- The store of an absolute form to a PPU port and to the stub range is taken. -/
theorem test_witness_StoresComplete_ports :
    writeEa .abs (inside [0x00#8, 0x20#8] [] id) = 0x2000#16 ∧ writeEa .abs (inside [0x17#8, 0x40#8] [] id) = 0x4017#16 := by
  decide +kernel

/-- In every memory form, the three accesses of a modify are taken. -/
def ModifyWitness (i : MMode → Instr) (f : Byte → Flags → Byte × Flags) : Prop :=
  (∃ m, m ≠ .acc ∧ wellFormed (i m) = true) ∧
  ∀ m, m ≠ .acc → ∃ (s t1 t2 t3 : State) (v : Byte), Fetched s ∧ (∀ a ∈ modifyAddrs m s, plain a = true) ∧
    busRead (modifyEa m s) (afterPpu (modifyTicks m) s) = .ok (v, t1) ∧
    busWrite (modifyEa m s) v (afterPpu 1 t1) = .ok t2 ∧ busWrite (modifyEa m s) (f v s.cpu.p).1 (afterPpu 1 t2) = .ok t3

theorem modify_witness (i : MMode → Instr) (f) (hw : wellFormed (i .zp) = true) : ModifyWitness i f := by
  refine ⟨⟨.zp, by decide, hw⟩, fun m hm => ⟨crossing, _, _, _, _, ⟨rfl, rfl⟩, List.all_eq_true.1 (by cases m <;> decide +kernel),
    busRead_plain _ (by cases m <;> first | exact absurd rfl hm | decide +kernel),
    busWrite_ram _ _ (by cases m <;> first | exact absurd rfl hm | decide +kernel),
    busWrite_ram _ _ (by cases m <;> first | exact absurd rfl hm | decide +kernel)⟩⟩

theorem test_witness_MemoryModifiesComplete :
    ModifyWitness .asl aslSpec ∧ ModifyWitness .lsr lsrSpec ∧ ModifyWitness .rol rolSpec ∧ ModifyWitness .ror rorSpec ∧
      ModifyWitness .inc incSpec ∧ ModifyWitness .dec decSpec :=
  ⟨modify_witness _ _ rfl, modify_witness _ _ rfl, modify_witness _ _ rfl, modify_witness _ _ rfl, modify_witness _ _ rfl,
    modify_witness _ _ rfl⟩

/-- The hypotheses of the one-step instructions, at a RAM address, in PRG and at a PPU port: those of
AccumulatorShiftsComplete, TransfersAndCountsComplete and FlagInstructionsAndNopComplete. -/
theorem test_witness_ImpliedCompletes :
    ∀ pc ∈ [0x0000#16, 0x1FFF#16, 0x2002#16, 0x4017#16, 0x8000#16, 0xFFFF#16], ∃ (s t : State) (v : Byte),
      s.cpu.pc = pc ∧ Fetched s ∧ busRead s.cpu.pc (afterPpu 1 s) = .ok (v, t) := by
  intro pc hpc
  refine ⟨{ flat with cpu := { flat.cpu with pc := pc } }, ?_⟩
  have h : isOk (busRead pc (afterPpu 1 { flat with cpu := { flat.cpu with pc := pc } })) = true := by
    fin_cases hpc <;> decide +kernel
  obtain ⟨⟨v, t⟩, h⟩ := of_isOk h
  exact ⟨t, v, rfl, ⟨rfl, rfl⟩, h⟩

/-- A branch not taken, taken in the page, and taken across a page. -/
theorem test_witness_BranchesComplete :
    (Fetched flat ∧ (∀ a ∈ branchReads flat false, plain a = true) ∧ branchTicks flat false = 1) ∧
    ((∀ a ∈ branchReads flat true, plain a = true) ∧ branchTicks flat true = 2) ∧
    (let s := inside [0x80#8] [] id
     Fetched s ∧ (∀ a ∈ branchReads s true, plain a = true) ∧ branchTicks s true = 3) :=
  ⟨⟨⟨rfl, rfl⟩, List.all_eq_true.1 (by decide +kernel), by decide +kernel⟩,
    ⟨List.all_eq_true.1 (by decide +kernel), by decide +kernel⟩,
    ⟨⟨rfl, rfl⟩, List.all_eq_true.1 (by decide +kernel), by decide +kernel⟩⟩

/-- Both outcomes of each of the four condition flags are met. -/
theorem test_witness_BranchesComplete_flags :
    let p := flat.cpu.p
    let q : Flags := { p with n := true, v := true, z := true, c := true }
    p.n = false ∧ q.n = true ∧ p.v = false ∧ q.v = true ∧ p.c = false ∧ q.c = true ∧ p.z = false ∧ q.z = true := by
  decide +kernel

/-- The hypotheses of JumpCompletes, CallCompletes, StackInstructionsComplete, ReturnFromInterruptCompletes,
IllegalInstructionStops and EntryConsultsPendingAtEachStep. -/
theorem test_witness_fetched_plain :
    Fetched flat ∧ plain flat.cpu.pc = true ∧ plain (flat.cpu.pc + 1#16) = true := by
  unfold Fetched; decide +kernel

theorem test_witness_ReturnCompletes :
    ∃ (s t : State) (v : Byte), Fetched s ∧ plain s.cpu.pc = true ∧ busRead (returnAddr s) (afterPpu 5 s) = .ok (v, t) :=
  ⟨flat, _, _, ⟨rfl, rfl⟩, by decide +kernel, busRead_plain _ (by decide +kernel)⟩

theorem test_witness_BreakCompletes :
    Fetched flat ∧ plain flat.cpu.pc = true ∧ (afterPpu 6 flat).pending = .none := by
  unfold Fetched; decide +kernel

/-- A vertical blank that begins while the sequence runs: no request at step 1, an NMI at step 4. -/
theorem test_witness_EntryConsultsPendingAtEachStep :
    let s : State := { flat with ppu := { flat.ppu with scanline := 240, dot := 335, nmiEnable := true } }
    Fetched s ∧ plain s.cpu.pc = true ∧ (afterPpu 1 s).pending = .none ∧ (afterPpu 4 s).pending = .nmi := by
  unfold Fetched; decide +kernel

/-- A boundary with NMI, and one with IRQ, pending for the whole entry. -/
theorem test_witness_HardwareInterruptEntry :
    ∀ q ∈ [Pending.nmi, .irq], let s : State := { scene 0x8000#16 [] [] id id with pending := q }
      s.halted = none ∧ atBoundary s = true ∧ (∀ n ∈ [1, 2, 3, 4, 5, 6, 7], (afterPpu n s).pending = q) ∧
        0x00#8 ∈ s.rom.implemented ∧ plain s.cpu.pc = true := by decide +kernel

theorem test_witness_ResetSequenceFromLaunch :
    0x00#8 ∈ ({} : Launch).implemented ∧ plain ({} : Launch).resetPC = true := by decide +kernel

/-- The state with an instruction after its FETCH again. -/
def reopen (t : State) : State := { t with cpu := { t.cpu with cursor := 0 } }

theorem reopen_ram (t : State) : (reopen t).ram = t.ram := rfl
theorem reopen_cpu (t : State) : (reopen t).cpu = { t.cpu with cursor := 0 } := rfl
theorem reopen_s (t : State) : (reopen t).cpu.s = t.cpu.s := rfl
theorem reopen_cursor (t : State) : (reopen t).cpu.cursor = 0 := rfl

theorem test_witness_ReturnFromInterruptUndoesBreak :
    ∃ t u : State, Fetched flat ∧ flat.ram.wf ∧ plain flat.cpu.pc = true ∧ (afterPpu 6 flat).pending = .none ∧
      exec .brk flat = .next t ∧ plain t.cpu.pc = true ∧ u.halted = none ∧ u.ram = t.ram ∧
      u.cpu = { t.cpu with cursor := 0 } :=
  ⟨answer .brk flat, reopen (answer .brk flat), ⟨rfl, rfl⟩, by decide +kernel, by decide +kernel, by decide +kernel,
    answer_eq (by decide +kernel), by decide +kernel, by decide +kernel, reopen_ram _, reopen_cpu _⟩

theorem test_witness_ReturnUndoesCall :
    ∃ t u : State, Fetched flat ∧ flat.ram.wf ∧ plain flat.cpu.pc = true ∧ plain (flat.cpu.pc + 1#16) = true ∧
      exec .jsr flat = .next t ∧ Fetched u ∧ u.ram = t.ram ∧ u.cpu.s = t.cpu.s ∧ plain u.cpu.pc = true :=
  ⟨answer .jsr flat, reopen (answer .jsr flat), ⟨rfl, rfl⟩, by decide +kernel, by decide +kernel, by decide +kernel,
    answer_eq (by decide +kernel), ⟨by decide +kernel, reopen_cursor _⟩, reopen_ram _, reopen_s _, by decide +kernel⟩

/-- A boundary before `LDA #$5A`. -/
def before : State := scene 0x8000#16 [0xA9#8, 0x5A#8] [] id id

theorem test_witness_StepRunsTheDecodedInstruction :
    before.halted = none ∧ atBoundary before = true ∧ (afterPpu 1 before).pending = .none ∧
      busRead before.cpu.pc (afterPpu 1 before) = .ok (0xA9#8, afterPpu 1 before) ∧ 0xA9#8 ∈ before.rom.implemented ∧
      decode [0xA9#8, 0x5A#8] = .ok { instr := .lda .imm, operands := [0x5A#8], rest := [] } :=
  ⟨rfl, by decide +kernel, by decide +kernel, read_eq (by decide +kernel) (by decide +kernel), by decide +kernel,
    by decide +kernel⟩

theorem test_witness_StepTakesThePendingInterrupt :
    let s : State := { before with pending := .irq }
    s.halted = none ∧ atBoundary s = true ∧ (afterPpu 1 s).pending ≠ .none ∧
      busRead s.cpu.pc (afterPpu 1 s) = .ok (0xA9#8, afterPpu 1 s) ∧ 0x00#8 ∈ s.rom.implemented :=
  ⟨rfl, by decide +kernel, by decide +kernel, read_eq (by decide +kernel) (by decide +kernel), by decide +kernel⟩

/-- A byte that is not implemented, and the two ends of the hole. -/
theorem test_witness_FetchFatals :
    (let s := scene 0x8000#16 [0x02#8] [] id id
     s.halted = none ∧ atBoundary s = true ∧ (afterPpu 1 s).pending = .none ∧
       busRead s.cpu.pc (afterPpu 1 s) = .ok (0x02#8, afterPpu 1 s) ∧ 0x02#8 ∉ s.rom.implemented) ∧
    (∀ pc ∈ [0x4018#16, 0x7FFF#16], let s := scene pc [] [] id id
     s.halted = none ∧ atBoundary s = true ∧ unmappedRead s.cpu.pc) := by
  refine ⟨⟨rfl, by decide +kernel, by decide +kernel, read_eq (by decide +kernel) (by decide +kernel), by decide +kernel⟩, ?_⟩
  intro pc hpc
  unfold unmappedRead
  fin_cases hpc <;> exact ⟨rfl, by decide +kernel, by decide +kernel⟩

/-- From a boundary, and from inside an instruction (also for LaunchConstantsNeverChange and StoredBreakFlagIsUnobservable). -/
theorem test_witness_StepIsTicksToTheNextBoundary :
    (∃ t, step before = .next t) ∧
      ∃ t, step { before with cpu := { before.cpu with ir := 0xA5#8, cursor := 1 } } = .next t :=
  ⟨of_isNext (by decide +kernel), of_isNext (by decide +kernel)⟩

/-- A faulting step (also for StoredBreakFlagIsUnobservable). -/
theorem test_witness_FaultingStepIsTicksToTheFatalTick :
    (scene 0x8000#16 [0x02#8] [] id id).halted = none ∧
      step (scene 0x8000#16 [0x02#8] [] id id) = .fault (.illegalOpcode 0x02#8) :=
  ⟨rfl, of_faultOf (by decide +kernel)⟩

theorem test_witness_FatalIsTerminal :
    ({ before with halted := some (.busFault 0x4018#16) } : State).halted = some (.busFault 0x4018#16) := rfl

theorem test_witness_FatalTickChangesOnlyHalted :
    (scene 0x4018#16 [] [] id id).halted = none ∧
      (tick (scene 0x4018#16 [] [] id id)).halted = some (.busFault 0x4018#16) := ⟨rfl, by decide +kernel⟩

/-- A load from the hole stops with the address read. -/
theorem test_witness_OnlyTheTwoFatalClassesStopAnInstruction :
    let s := inside [0x18#8, 0x40#8] [] id
    s.halted = none ∧ stores (.lda .abs) = false ∧ exec (.lda .abs) s = .fault (.busFault 0x4018#16) :=
  ⟨rfl, rfl, of_faultOf (by decide +kernel)⟩

/-- A state before an instruction meets the invariant, and its step completes. -/
theorem test_witness_InvariantIsKept : before.Inv ∧ ∃ t, step before = .next t := by
  refine ⟨⟨rfl, by decide +kernel, by decide +kernel, by decide +kernel, by decide +kernel, ?_⟩,
    of_isNext (by decide +kernel)⟩
  refine ⟨by decide +kernel, by decide +kernel, by decide +kernel, by decide +kernel, by decide +kernel, ?_, fun b h => h⟩
  intro b hb
  fin_cases hb <;> decide +kernel

/-- NOP names no flag, no register and no store; LDA, STA and CMP name some: FlagsOutsideTheTableAreUnchanged,
RegistersNotWrittenAreUnchanged and NonStoringInstructionsLeaveMemory. -/
theorem test_witness_frames :
    (∃ t, exec .nop flat = .next t) ∧ wellFormed .nop = true ∧ stores .nop = false ∧
      writesNZ .nop = false ∧ writesV .nop = false ∧ writesB .nop = false ∧ writesD .nop = false ∧ writesI .nop = false ∧
      writesC .nop = false ∧ writesA .nop = false ∧ writesX .nop = false ∧ writesY .nop = false ∧ writesS .nop = false ∧
      (∃ t, exec (.cmp .zp) flat = .next t) ∧ writesA (.cmp .zp) = false ∧ writesV (.cmp .zp) = false :=
  ⟨of_isNext (by decide +kernel), rfl, rfl, rfl, rfl, rfl, rfl, rfl, rfl, rfl, rfl, rfl, rfl, of_isNext (by decide +kernel),
    rfl, rfl⟩

/-- Stores to the two ends of the RAM window. -/
theorem test_witness_StoresToRamChangeOneByte :
    ∀ bytes ∈ [[0x00#8, 0x00#8], [0xFF#8, 0x1F#8]], let s := inside bytes [] id
      Fetched s ∧ s.ram.wf ∧ (∀ a ∈ writeAddrs .abs s, plain a = true) ∧ (writeEa .abs s).toNat < 0x2000 ∧
        ∃ t, exec (.sta .abs) s = .next t := by
  intro bytes hb
  fin_cases hb <;>
    exact ⟨⟨rfl, rfl⟩, by decide +kernel, List.all_eq_true.1 (by decide +kernel), by decide +kernel,
      of_isNext (by decide +kernel)⟩

theorem test_witness_ModifiesOfRamChangeOneByte :
    ∀ bytes ∈ [[0x00#8, 0x00#8], [0xFF#8, 0x1F#8]], let s := inside bytes [] id
      MMode.abs ≠ .acc ∧ Fetched s ∧ s.ram.wf ∧ (∀ a ∈ modifyAddrs .abs s, plain a = true) ∧
        (modifyEa .abs s).toNat < 0x2000 ∧ ∃ t, exec (.inc .abs) s = .next t := by
  intro bytes hb
  fin_cases hb <;>
    exact ⟨by decide, ⟨rfl, rfl⟩, by decide +kernel, List.all_eq_true.1 (by decide +kernel), by decide +kernel,
      of_isNext (by decide +kernel)⟩

theorem test_witness_PushesStoreOnlyOnTheStack :
    Fetched flat ∧ (∃ t, exec .pha flat = .next t) ∧ (∃ t, exec .php flat = .next t) ∧ (∃ t, exec .jsr flat = .next t) ∧
      ∃ t, exec .brk flat = .next t :=
  ⟨⟨rfl, rfl⟩, of_isNext (by decide +kernel), of_isNext (by decide +kernel), of_isNext (by decide +kernel),
    of_isNext (by decide +kernel)⟩

theorem test_witness_StackWrapsAfter257Pushes :
    let s := scene 0x8000#16 [0x48#8] [] (fun c => { c with s := 0xFF#8 }) id
    s.halted = none ∧ plain s.cpu.pc = true ∧ s.cpu.s = 0xFF#8 := by decide +kernel

/-- An address at each end of each window of the bus maps, and a power-of-two image size. -/
theorem test_witness_BusMaps :
    isPow2 State.reset.rom.prgSize ∧
      (0x0000#16).toNat < 0x2000 ∧ (0x1FFF#16).toNat < 0x2000 ∧ 0x2000 ≤ (0x2000#16).toNat ∧ (0x3FFF#16).toNat < 0x4000 ∧
      0x4000 ≤ (0x4000#16).toNat ∧ (0x4017#16).toNat ≤ 0x4017 ∧ unmappedRead 0x4018#16 ∧ unmappedRead 0x7FFF#16 ∧
      unmappedWrite 0x4018#16 ∧ unmappedWrite 0xFFFF#16 ∧ 0x8000 ≤ (0x8000#16).toNat ∧ 0x8000 ≤ (0xFFFF#16).toNat := by
  unfold unmappedRead unmappedWrite; decide

/-- PPU positions at the edges of the frame: the dot's wrap, the scanline's two kinds of wrap. -/
theorem test_witness_PositionAdvancesModuloTheFrame :
    ∀ pos ∈ [(0, 0), (0, 339), (0, 340), (261, 340)], let s : State := { flat with
        ppu := { flat.ppu with scanline := pos.1, dot := pos.2 } }
      s.halted = none ∧ s.ppu.dot ≤ 340 ∧ s.ppu.scanline ≤ 261 := by decide +kernel

/-- The positions of the vertical blank, and their neighbours. -/
theorem test_witness_VerticalBlankAndNmi :
    (∀ pos ∈ [(241, 0), (241, 1), (241, 2), (261, 1), (261, 2)], let s : State := { flat with
        ppu := { flat.ppu with scanline := pos.1, dot := pos.2, nmiEnable := true } }
      s.halted = none) ∧
    (let s : State := { flat with ppu := { flat.ppu with scanline := 241, dot := 1, nmiEnable := true } }
     (ppuTick s).pending = .nmi ∧ (ppuTick s).ppu.vblank = true) := by decide +kernel

theorem test_witness_FrameEventOncePerFrame :
    (let s : State := { flat with ppu := { flat.ppu with scanline := 240, dot := 0 } }
     s.halted = none ∧ (ppuTick s).ppu.frames = 1) ∧ flat.ppu.scanline = 240 ∧ flat.ppu.dot = 1 := by decide +kernel

/-- The four corners of the visible area, and the position right of it. -/
theorem test_witness_VisibleTickRendersOnePixel :
    (∀ pos ∈ [(0, 0), (0, 255), (239, 0), (239, 255)], let s : State := { flat with
        ppu := { flat.ppu with scanline := pos.1, dot := pos.2 } }
      s.halted = none ∧ s.ppu.fb.wf ∧ isPow2 s.rom.chrSize ∧ s.ppu.scanline ≤ 239 ∧ s.ppu.dot ≤ 255) ∧
    ¬ (0 ≤ 239 ∧ 256 ≤ 255) := by decide +kernel

/-- The two end mirrors of each port: ControlPortWrite, StatusPortRead, AddressPortWrites, DataPortWrite,
UnlistedPortAccesses. -/
theorem test_witness_Ports :
    (∀ p ∈ [0, 1, 2, 3, 4, 5, 6, 7],
      (0x2000 ≤ (BitVec.ofNat 16 (0x2000 + p)).toNat ∧ (BitVec.ofNat 16 (0x2000 + p)).toNat % 8 = p) ∧
        (BitVec.ofNat 16 (0x3FF8 + p)).toNat < 0x4000 ∧ (BitVec.ofNat 16 (0x3FF8 + p)).toNat % 8 = p) ∧
    State.reset.ppu.vram.wf ∧ State.reset.ppu.wlatch = .first := by decide +kernel

theorem test_witness_AddressPortWrites :
    ∃ t u, State.reset.ppu.wlatch = .first ∧ busWrite 0x2006#16 0x23#8 State.reset = .ok t ∧
      busWrite 0x2006#16 0xC0#8 t = .ok u :=
  ⟨_, _, rfl, rfl, rfl⟩

/-- The three indexed stores that make the dummy read, each with an uncorrected address of 0x2002 (`STA $2000,X` with `X = 2`:
95_test_vectors.md 2.2; `STA $2000,Y`; and `STA ($00),Y` with the pointer 0x2000). -/
def dummyAtStatus : State :=
  inside [0x00#8, 0x20#8] [(0x01, 0x20#8)] fun c => { c with a := 0xFF#8, x := 0x02#8, y := 0x02#8 }

theorem test_witness_IndexedStoreDummyReadTouchesTheStatusPort :
    (∀ m ∈ [WMode.abx, .aby, .izy],
      Fetched dummyAtStatus ∧ plain dummyAtStatus.cpu.pc = true ∧ plain (dummyAtStatus.cpu.pc + 1#16) = true ∧
      storeDummy m dummyAtStatus = some 0x2002#16 ∧
      ∃ t, busWrite (writeEa m dummyAtStatus) dummyAtStatus.cpu.a
        (afterPpu 1 { afterPpu (writeTicks m - 1) dummyAtStatus with
          ppu := { (afterPpu (writeTicks m - 1) dummyAtStatus).ppu with vblank := false, wlatch := .first } }) = .ok t) := by
  intro m hm
  fin_cases hm <;>
    exact ⟨⟨rfl, rfl⟩, by decide +kernel, by decide +kernel, by decide +kernel, of_isOk (by decide +kernel)⟩

end Sys2Proof.Tests
end

section
/-! PROOF. Each bus pattern of 40_sequencer.md R157 is the one its sequence makes, and what the patterns say: how long a
sequence is, which instructions write, and which one raises. -/

namespace Sys2Proof.Machine

/-! ## The pattern of a class -/

theorem seqRead_kinds (m : RMode) (e : Byte → Cpu → Cpu) (s : State) (q : Pending) :
    (seqRead m e).map (fun x => (x s).kind) = busPattern (.lda m) q := by cases m <;> rfl

theorem seqWrite_kinds (m : WMode) (value : Cpu → Byte) (s : State) (q : Pending) :
    (seqWrite m value).map (fun x => (x s).kind) = busPattern (.sta m) q := by cases m <;> rfl

theorem seqModify_kinds (m : MMode) (f : Modify) (s : State) (q : Pending) :
    (seqModify m f).map (fun x => (x s).kind) = busPattern (.asl m) q := by cases m <;> rfl

/-- A push of the interrupt sequence writes, but during Reset it reads (60_exceptions.md R350). -/
theorem entryPush_kind (value : Pending → Cpu → Byte) (effect : Cpu → Cpu) (s : State) :
    (entryPush value effect s).kind = if s.pending = .reset then .read else .write := by
  unfold entryPush
  cases s.pending <;> rfl

theorem seqInt_kinds (s : State) : seqInt.map (fun x => (x s).kind) = busPattern .brk s.pending := by
  simp only [seqInt, List.map, entryPush_kind]
  rfl

/-- Every sequence has the bus pattern of the table, in every state (40_sequencer.md R157). -/
theorem ownSteps_kinds (i : Instr) (s : State) :
    (ownSteps i).map (fun x => (x s).kind) = busPattern i s.pending := by
  cases i
  case brk => exact seqInt_kinds s
  case lda m | ldx m | ldy m | adc m | sbc m | and m | ora m | eor m | cmp m | cpx m | cpy m | bit m =>
    exact seqRead_kinds m _ s s.pending
  case sta m | stx m | sty m => exact seqWrite_kinds m _ s s.pending
  case asl m | lsr m | rol m | ror m | inc m | dec m => exact seqModify_kinds m _ s s.pending
  all_goals rfl

theorem kind_mem_busPattern {i : Instr} {x : MicroStep} (hx : x ∈ ownSteps i) (s : State) :
    (x s).kind ∈ busPattern i s.pending := by
  rw [← ownSteps_kinds]
  exact List.mem_map_of_mem (f := fun x : MicroStep => (x s).kind) hx

/-! ## What the patterns say -/

theorem busPattern_length_le (i : Instr) (q : Pending) : (busPattern i q).length ≤ 6 := by
  cases i
  case lda m | ldx m | ldy m | adc m | sbc m | and m | ora m | eor m | cmp m | cpx m | cpy m | bit m |
      sta m | stx m | sty m | asl m | lsr m | rol m | ror m | inc m | dec m =>
    cases m <;> simp [busPattern]
  all_goals simp [busPattern]

/-- An instruction has at most six own steps (40_sequencer.md R157). -/
theorem ownSteps_length_le (i : Instr) : (ownSteps i).length ≤ 6 := by
  have h := busPattern_length_le i State.reset.pending
  rwa [← ownSteps_kinds, List.length_map] at h

/-- An instruction that stores nothing writes in none of its steps. -/
theorem write_not_mem_busPattern {i : Instr} (h : stores i = false) (q : Pending) : .write ∉ busPattern i q := by
  cases i
  case lda m | ldx m | ldy m | adc m | sbc m | and m | ora m | eor m | cmp m | cpx m | cpy m | bit m =>
    cases m <;> simp [busPattern]
  case asl m | lsr m | rol m | ror m =>
    obtain rfl : m = .acc := by simpa [stores] using h
    simp [busPattern]
  case sta | stx | sty | inc | dec | pha | php | jsr | brk => simp [stores] at h
  all_goals simp [busPattern]

/-- A step without a bus access is that of an illegal byte (40_sequencer.md R134). -/
theorem eq_ill_of_nothing_mem_busPattern {i : Instr} {q : Pending} (h : .nothing ∈ busPattern i q) : ∃ b, i = .ill b := by
  cases i
  case ill b => exact ⟨b, rfl⟩
  case lda m | ldx m | ldy m | adc m | sbc m | and m | ora m | eor m | cmp m | cpx m | cpy m | bit m |
      sta m | stx m | sty m | asl m | lsr m | rol m | ror m | inc m | dec m =>
    cases m <;> simp [busPattern] at h
  case brk => simp only [busPattern] at h; split at h <;> simp at h
  all_goals simp [busPattern] at h

end Sys2Proof.Machine
end

section
/-! PROOF. The invariant, and what stops an instruction (O34, O33). -/

namespace Sys2Proof.Machine

/-! ## The invariant (10_state.md R28, R30, R32, R33, R38; 40_sequencer.md R135) -/

/-- FETCH keeps the invariant: whatever it installs, the cursor is at 0. -/
theorem fetchCycle_stateInv {s t : State} (hs : s.Inv) (h : fetchCycle s = .next t) : t.Inv := by
  obtain ⟨-, -, hwf, hbelow, hppu, hrom⟩ := hs
  obtain ⟨hhalt, hrom', hram, hcur⟩ := fetchCycle_frame h
  refine ⟨hhalt, by rw [hcur]; exact Nat.zero_le _, ?_, ?_, fetchCycle_ppuInv h hppu, ?_⟩
  · rwa [hram]
  · rwa [hram]
  · rwa [hrom']

/-- The installed instruction keeps the invariant: it ends with the cursor just past its own steps. -/
theorem exec_installed_stateInv {s t : State} (hs : s.Inv) (h : exec (installed s) s = .next t) : t.Inv := by
  obtain ⟨-, hcur, hwf, hbelow, hppu, hrom⟩ := hs
  obtain ⟨-, hrom', hir, hhalt, hend⟩ := exec_next h
  obtain ⟨hwf', hbelow', hppu'⟩ := exec_memories h hwf hbelow hppu
  refine ⟨hhalt, ?_, hwf', hbelow', hppu', ?_⟩
  · rw [installed_congr hrom' hir]
    exact (hend hcur).le
  · rwa [hrom']

/-- Settles O34: FETCH and the installed instruction each keep the invariant. -/
theorem invariantIsKept : Obligations.InvariantIsKept := by
  intro s t hs h
  obtain ⟨-, ⟨-, u, hf, he⟩ | ⟨-, he⟩⟩ := step_cases h
  · exact exec_installed_stateInv (fetchCycle_stateInv hs hf) he
  · exact exec_installed_stateInv hs he

/-! ## What stops an instruction (60_exceptions.md R340, R341, R342) -/

/-- A run that faults does so in one of its steps, on a machine that was running before it. -/
theorem runFrom_fault_step {own : List MicroStep} (hown : TameList own) (n : Nat) {s : State} {f : Fault}
    (hh : s.halted = none) (h : runFrom own n s = .fault f) :
    ∃ m ∈ own, ∃ u, u.halted = none ∧ cycle m u = .fault f := by
  induction n generalizing s with
  | zero => cases h
  | succ n ih =>
    unfold runFrom at h
    split at h
    · cases h
    · rename_i m hm
      split at h
      · rename_i u hu
        obtain ⟨r, hr, -⟩ := tame_getElem hown hm
        obtain ⟨-, hhu, -⟩ := cycle_tame hr hu
        exact ih hhu h
      · rename_i g hg
        cases h
        exact ⟨m, List.mem_of_getElem? hm, s, hh, hg⟩
      · cases h

/-- A step of a sequence that raises is the one of an illegal byte, and raises that byte. -/
theorem raise_mem_ownSteps {i : Instr} {m : MicroStep} {s : State} {f : Fault} (hm : m ∈ ownSteps i)
    (hr : m s = .raise f) : ∃ b, i = .ill b ∧ f = .illegalOpcode b := by
  have hk := kind_mem_busPattern hm s
  rw [hr] at hk
  obtain ⟨b, rfl⟩ := eq_ill_of_nothing_mem_busPattern hk
  obtain rfl := List.mem_singleton.1 hm
  cases hr
  exact ⟨b, rfl, rfl⟩

/-- Everything an instruction can fault by on a running machine: a bus access outside RAM, ports and stub, which is a read in
the hole where the instruction stores nothing, or its own illegal byte. -/
theorem exec_fault {i : Instr} {s : State} {f : Fault} (hh : s.halted = none) (h : exec i s = .fault f) :
    (∃ a, f = .busFault a ∧ unmappedWrite a ∧ (stores i = false → unmappedRead a)) ∨
      ∃ b, i = .ill b ∧ f = .illegalOpcode b := by
  rw [exec_eq, runSteps_running hh] at h
  obtain ⟨m, hm, u, hu, hc⟩ := runFrom_fault_step (tame_ownSteps i) _ hh h
  rcases cycle_fault hu hc with ⟨a, rfl, ha, hk⟩ | hr
  · refine .inl ⟨a, rfl, ha, fun hst => ?_⟩
    rcases hk with ⟨-, hread⟩ | hwrite
    · exact hread
    · exact absurd (hwrite ▸ kind_mem_busPattern hm (ppuShare u)) (write_not_mem_busPattern hst _)
  · exact .inr (raise_mem_ownSteps hm hr)

/-- Settles O33: what an instruction can fault by, and that nothing is refused. -/
theorem onlyTheTwoFatalClassesStopAnInstruction : Obligations.OnlyTheTwoFatalClassesStopAnInstruction := by
  refine ⟨fun i s hh => ?_, fun i s a hh hst h => ?_, step_not_refused⟩
  · cases he : exec i s with
    | next t => exact .inl ⟨t, rfl⟩
    | fault f =>
      rcases exec_fault hh he with ⟨a, rfl, ha, -⟩ | ⟨b, rfl, rfl⟩
      · exact .inr (.inl ⟨a, rfl, ha⟩)
      · exact .inr (.inr ⟨b, rfl, rfl⟩)
    | refused r => exact absurd he (exec_not_refused i s r)
  · rcases exec_fault hh h with ⟨a', hf, -, hread⟩ | ⟨b, -, hf⟩
    · cases hf
      exact hread hst
    · cases hf

end Sys2Proof.Machine
end

section
/-! PROOF. `step` against the spec's own tick (O29, O30): each own step of a run is one system step of `ticks`. -/

namespace Sys2Proof.Machine

/-! ## A run of own steps, in system steps -/

/-- One system step inside the installed instruction: either the run goes on after the tick, with the same instruction
installed and the cursor moved on, or the tick is the fatal one and the run answers its fault. -/
theorem runFrom_tick {s : State} (n : Nat) (hh : s.halted = none) (hb : atBoundary s = false) :
    (runFrom (ownSteps (installed s)) (n + 1) s = runFrom (ownSteps (installed (tick s))) n (tick s) ∧
      (tick s).halted = none ∧ installed (tick s) = installed s ∧ s.cpu.cursor + 1 ≤ (tick s).cpu.cursor) ∨
    ∃ f, runFrom (ownSteps (installed s)) (n + 1) s = .fault f ∧ (tick s).halted = some f := by
  obtain ⟨m, hm⟩ : ∃ m, currentStep s = some m :=
    Option.ne_none_iff_exists'.1 fun hnone => by simp [currentStep_eq_none.1 hnone] at hb
  rw [tick_own hh hm]
  rcases hp : perform (m (ppuShare s)) (ppuShare s) with f | ⟨u, k⟩
  · have hc := cycle_error hh hp
    rw [hc]
    exact .inr ⟨f, runFrom_fault n hm hc, rfl⟩
  · have hc := cycle_ok hh hp
    obtain ⟨r, hr, -⟩ := tame_getElem (tame_ownSteps _) hm
    obtain ⟨hrom, hhalt, hir, hcur, -⟩ := cycle_tame hr hc
    have hi : installed (advanceCursor k u) = installed s := installed_congr hrom hir
    rw [hc]
    exact .inl ⟨by rw [runFrom_next n hm hc, hi], hhalt, hi, hcur⟩

/-- A run that has the system steps to reach the boundary, and answers `t`, is the system steps up to the first boundary. -/
theorem runFrom_next_ticks (n : Nat) {s t : State} (hh : s.halted = none)
    (hn : (ownSteps (installed s)).length ≤ s.cpu.cursor + n)
    (h : runFrom (ownSteps (installed s)) n s = .next t) :
    ∃ k ≤ n, ticks k s = t ∧ atBoundary t = true ∧ ∀ j < k, atBoundary (ticks j s) = false := by
  induction n generalizing s with
  | zero =>
    cases h
    exact ⟨0, le_rfl, rfl, decide_eq_true hn, by simp⟩
  | succ n ih =>
    cases hb : atBoundary s with
    | true =>
      rw [runFrom_done _ (currentStep_eq_none.2 hb)] at h
      cases h
      exact ⟨0, Nat.zero_le _, rfl, hb, by simp⟩
    | false =>
      rcases runFrom_tick n hh hb with ⟨hr, hh', hi, hc⟩ | ⟨f, hr, -⟩ <;> rw [hr] at h
      · obtain ⟨k, hk, ht, hbt, hj⟩ := ih hh' (by rw [hi]; omega) h
        exact ⟨k + 1, by omega, ht, hbt, Nat.forall_lt_succ_left.2 ⟨hb, hj⟩⟩
      · cases h

/-- A run that faults is the system steps up to the first state that is halted. -/
theorem runFrom_fault_ticks (n : Nat) {s : State} {f : Fault} (hh : s.halted = none)
    (h : runFrom (ownSteps (installed s)) n s = .fault f) :
    ∃ k, 1 ≤ k ∧ k ≤ n ∧ (ticks k s).halted = some f ∧ ∀ j < k, (ticks j s).halted = none := by
  induction n generalizing s with
  | zero => cases h
  | succ n ih =>
    cases hb : atBoundary s with
    | true =>
      rw [runFrom_done _ (currentStep_eq_none.2 hb)] at h
      cases h
    | false =>
      rcases runFrom_tick n hh hb with ⟨hr, hh', -, -⟩ | ⟨g, hr, hg⟩ <;> rw [hr] at h
      · obtain ⟨k, -, hk, hf, hj⟩ := ih hh' h
        exact ⟨k + 1, by omega, by omega, hf, Nat.forall_lt_succ_left.2 ⟨hh, hj⟩⟩
      · cases h
        exact ⟨1, le_rfl, by omega, hg, Nat.forall_lt_succ_left.2 ⟨hh, by simp⟩⟩

/-! ## The installed instruction, in system steps -/

/-- The rest of the installed instruction is at most six system steps, up to the first boundary. -/
theorem exec_installed_ticks {s t : State} (h : exec (installed s) s = .next t) :
    ∃ k ≤ 6, ticks k s = t ∧ atBoundary t = true ∧ ∀ j < k, atBoundary (ticks j s) = false := by
  have hh := (exec_next h).1
  rw [exec_eq, runSteps_running hh] at h
  obtain ⟨k, hk, hrest⟩ := runFrom_next_ticks _ hh (Nat.le_add_left _ _) h
  exact ⟨k, hk.trans (ownSteps_length_le _), hrest⟩

/-- Where the installed instruction faults, it does so in at most six system steps. -/
theorem exec_installed_fault_ticks {s : State} {f : Fault} (hh : s.halted = none)
    (h : exec (installed s) s = .fault f) :
    ∃ k, 1 ≤ k ∧ k ≤ 6 ∧ (ticks k s).halted = some f ∧ ∀ j < k, (ticks j s).halted = none := by
  rw [exec_eq, runSteps_running hh] at h
  obtain ⟨k, hk1, hk, hrest⟩ := runFrom_fault_ticks _ hh h
  exact ⟨k, hk1, hk.trans (ownSteps_length_le _), hrest⟩

/-! ## `step`, in system steps -/

/-- Settles O29: the system step of FETCH, where the step starts at a boundary, and those of the installed instruction. -/
theorem stepIsTicksToTheNextBoundary : Obligations.StepIsTicksToTheNextBoundary := by
  intro s t h
  obtain ⟨hh, ⟨hb, u, hf, he⟩ | ⟨hb, he⟩⟩ := step_cases h
  · have htick : tick s = u := by rw [tick_fetch hh hb, hf]
    obtain ⟨k, hk, ht, hbt, hj⟩ := exec_installed_ticks he
    refine ⟨k + 1, by omega, by omega, by rwa [ticks_succ, htick], hbt, fun j hj1 hjk => ?_⟩
    obtain ⟨i, rfl⟩ := Nat.exists_eq_add_of_le' hj1
    rw [ticks_succ, htick]
    exact hj i (by omega)
  · obtain ⟨k, hk, ht, hbt, hj⟩ := exec_installed_ticks he
    have hk0 : k ≠ 0 := by
      rintro rfl
      obtain rfl : s = t := ht
      simp [hbt] at hb
    exact ⟨k, by omega, by omega, ht, hbt, fun j _ => hj j⟩

/-- Everything a step that faults on a running machine does: FETCH faults, or the instruction it installed does, or the rest
of the instruction the machine was inside. -/
theorem step_fault_cases {s : State} {f : Fault} (hh : s.halted = none) (h : step s = .fault f) :
    (atBoundary s = true ∧
      (fetchCycle s = .fault f ∨ ∃ u, fetchCycle s = .next u ∧ exec (installed u) u = .fault f)) ∨
    exec (installed s) s = .fault f := by
  cases hb : atBoundary s with
  | false =>
    rw [step_inside hh hb] at h
    exact .inr h
  | true =>
    rw [step_boundary hh hb] at h
    cases hf : fetchCycle s with
    | next u => rw [hf] at h; exact .inl ⟨rfl, .inr ⟨u, rfl, h⟩⟩
    | fault g => rw [hf] at h; cases h; exact .inl ⟨rfl, .inl rfl⟩
    | refused q => exact absurd hf (fetchCycle_not_refused s q)

/-- Settles O30: the fatal tick is FETCH's own, or one of the installed instruction's. -/
theorem faultingStepIsTicksToTheFatalTick : Obligations.FaultingStepIsTicksToTheFatalTick := by
  intro s f hh h
  rcases step_fault_cases hh h with ⟨hb, hf | ⟨u, hf, he⟩⟩ | he
  · have htick : (tick s).halted = some f := by rw [tick_fetch hh hb, hf]
    exact ⟨1, le_rfl, by omega, htick, Nat.forall_lt_succ_left.2 ⟨hh, by simp⟩⟩
  · have htick : tick s = u := by rw [tick_fetch hh hb, hf]
    obtain ⟨k, -, hk, hhalt, hj⟩ := exec_installed_fault_ticks (fetchCycle_frame hf).1 he
    rw [← htick] at hhalt hj
    exact ⟨k + 1, by omega, by omega, hhalt, Nat.forall_lt_succ_left.2 ⟨hh, hj⟩⟩
  · obtain ⟨k, hk1, hk, hrest⟩ := exec_installed_fault_ticks hh he
    exact ⟨k, hk1, by omega, hrest⟩

end Sys2Proof.Machine
end

section
/-! PROOF. The stored `B` is read by nothing (O44): no step's access depends on it, and every effect answers, from two states
that differ in `B` alone, two states that differ in `B` alone. -/

namespace Sys2Proof.Machine

/-- The CPU with the stored `B` replaced. -/
def Cpu.withB (b : Bool) (c : Cpu) : Cpu := { c with p := { c.p with b := b } }

/-- What is computed from the CPU does not depend on `B`. -/
abbrev BlindValue {α : Type} (g : Cpu → α) : Prop := ∀ c b, g (c.withB b) = g c

/-- A change of the CPU that depends on `B` in `B` alone: it keeps `B`, or sets it from elsewhere. -/
abbrev BlindEffect (f : Cpu → Cpu) : Prop := ∀ c b, ∃ b', f (c.withB b) = (f c).withB b'

theorem BlindEffect.comp {f g : Cpu → Cpu} (hg : BlindEffect g) (hf : BlindEffect f) : BlindEffect fun c => g (f c) := by
  intro c b
  obtain ⟨b₁, h₁⟩ := hf c b
  obtain ⟨b₂, h₂⟩ := hg (f c) b₁
  exact ⟨b₂, (congrArg g h₁).trans h₂⟩

theorem blindEffect_id : BlindEffect id := fun _ b => ⟨b, rfl⟩

/-- An access whose effect depends on `B` in `B` alone. -/
def Access.BlindToB : Access → Prop
  | .read _ effect => ∀ v (u : State) b, ∃ b', effect v (u.withB b) = ((effect v u).1.withB b', (effect v u).2)
  | .write _ _ effect => ∀ (u : State) b, ∃ b', effect (u.withB b) = ((effect u).1.withB b', (effect u).2)
  | .raise _ => True

/-- A step that makes the same access whatever `B` is, with an effect that depends on `B` in `B` alone. -/
def StepBlind (m : MicroStep) : Prop := ∀ s : State, (∀ b, m (s.withB b) = m s) ∧ (m s).BlindToB

/-- A sequence of such steps. -/
def SeqBlind (own : List MicroStep) : Prop := ∀ m ∈ own, StepBlind m

theorem seqBlind_nil : SeqBlind [] := List.forall_mem_nil _

theorem seqBlind_cons {m : MicroStep} {own : List MicroStep} (h : StepBlind m) (hr : SeqBlind own) :
    SeqBlind (m :: own) := List.forall_mem_cons.2 ⟨h, hr⟩

/-! ## The forms of a step -/

variable {addr : Cpu → Word} {value : Cpu → Byte}

theorem onCpu_blind {f : Cpu → Cpu} (hf : BlindEffect f) (u : State) (b : Bool) :
    ∃ b', (u.withB b).onCpu f = (u.onCpu f).withB b' := by
  obtain ⟨b', h⟩ := hf u.cpu b
  exact ⟨b', congrArg (fun c => { u with cpu := c }) h⟩

theorem stepBlind_readSkip {effect : Byte → Cpu → Cpu} {skip : Byte → Cpu → Nat} (ha : BlindValue addr)
    (he : ∀ v, BlindEffect (effect v)) (hk : ∀ v, BlindValue (skip v)) : StepBlind (readSkip addr effect skip) := by
  refine fun s => ⟨fun b => congrArg (Access.read · _) (ha s.cpu b), fun v u b => ?_⟩
  obtain ⟨b', h⟩ := onCpu_blind (he v) u b
  exact ⟨b', Prod.ext h (hk v u.cpu b)⟩

theorem stepBlind_readStep {effect : Byte → Cpu → Cpu} (ha : BlindValue addr) (he : ∀ v, BlindEffect (effect v)) :
    StepBlind (readStep addr effect) :=
  stepBlind_readSkip (skip := fun _ _ => 0) ha he fun _ _ _ => rfl

theorem stepBlind_dummyStep {effect : Cpu → Cpu} (ha : BlindValue addr) (he : BlindEffect effect) :
    StepBlind (dummyStep addr effect) :=
  stepBlind_readStep ha fun _ => he

theorem stepBlind_writeStep {effect : Cpu → Cpu} (ha : BlindValue addr) (hv : BlindValue value)
    (he : BlindEffect effect) : StepBlind (writeStep addr value effect) := by
  refine fun s => ⟨fun b => congrArg₂ (Access.write · · _) (ha s.cpu b) (hv s.cpu b), fun u b => ?_⟩
  obtain ⟨b', h⟩ := onCpu_blind he u b
  exact ⟨b', congrArg (·, 0) h⟩

/-! ## Every step of every sequence -/

variable {idx : Cpu → Byte}

theorem stepBlind_zpT1 : StepBlind zpT1 := stepBlind_readStep (fun _ _ => rfl) fun _ _ b => ⟨b, rfl⟩
theorem stepBlind_absT1 : StepBlind absT1 := stepBlind_readStep (fun _ _ => rfl) fun _ _ b => ⟨b, rfl⟩
theorem stepBlind_absT2 : StepBlind absT2 := stepBlind_readStep (fun _ _ => rfl) fun _ _ b => ⟨b, rfl⟩
theorem stepBlind_izyT1 : StepBlind izyT1 := stepBlind_readStep (fun _ _ => rfl) fun _ _ b => ⟨b, rfl⟩
theorem stepBlind_izyT2 : StepBlind izyT2 := stepBlind_readStep (fun _ _ => rfl) fun _ _ b => ⟨b, rfl⟩
theorem stepBlind_izyReadT3 : StepBlind izyReadT3 :=
  stepBlind_readSkip (fun _ _ => rfl) (fun _ _ b => ⟨b, rfl⟩) fun _ _ _ => rfl
theorem stepBlind_izyWriteT3 : StepBlind izyWriteT3 := stepBlind_readStep (fun _ _ => rfl) fun _ _ b => ⟨b, rfl⟩
theorem stepBlind_crossDummy : StepBlind crossDummy := stepBlind_dummyStep (fun _ _ => rfl) fun _ b => ⟨b, rfl⟩

theorem blindValue_x : BlindValue Cpu.x := fun _ _ => rfl
theorem blindValue_y : BlindValue Cpu.y := fun _ _ => rfl

theorem stepBlind_zpiT2 (hi : BlindValue idx) : StepBlind (zpiT2 idx) :=
  stepBlind_dummyStep (fun _ _ => rfl) fun c b => ⟨b, by rw [hi c b]; rfl⟩

theorem stepBlind_abiReadT2 (hi : BlindValue idx) : StepBlind (abiReadT2 idx) :=
  stepBlind_readSkip (fun _ _ => rfl) (fun _ c b => ⟨b, by rw [hi c b]; rfl⟩) fun _ c b => by rw [hi c b]; rfl

theorem stepBlind_abiWriteT2 (hi : BlindValue idx) : StepBlind (abiWriteT2 idx) :=
  stepBlind_readStep (fun _ _ => rfl) fun _ c b => ⟨b, by rw [hi c b]; rfl⟩

theorem stepBlind_writeDummy (hi : BlindValue idx) : StepBlind (writeDummy idx) := by
  refine stepBlind_dummyStep (fun _ _ => rfl) fun c b => ⟨b, ?_⟩
  rw [hi c b]
  exact (apply_ite (Cpu.withB b) (c.latch.lo.toNat < (idx c).toNat) (carryHi c) c).symm

theorem stepBlind_execRead {e : Byte → Cpu → Cpu} (ha : BlindValue addr) (he : ∀ v, BlindEffect (e v)) :
    StepBlind (execRead addr e) :=
  stepBlind_readStep ha fun v => (he v).comp (f := setData v) fun _ b => ⟨b, rfl⟩

/-- A class M hook that reads no `B`: its byte does not depend on it, its flags do so in `B` alone. -/
abbrev BlindModify (f : Modify) : Prop :=
  ∀ v (p : Flags) (b : Bool), f v { p with b := b } = ((f v p).1, { (f v p).2 with b := b })

theorem seqBlind_modifySteps {f : Modify} (ha : BlindValue addr) (hf : BlindModify f) :
    SeqBlind (modifySteps addr f) := by
  have happly : BlindEffect (applyModify f) := fun c b => ⟨b, by
    have h := hf c.latch.data c.p b
    simp only [applyModify, Cpu.withB, h]; rfl⟩
  exact seqBlind_cons (stepBlind_readStep ha fun _ _ b => ⟨b, rfl⟩)
    (seqBlind_cons (stepBlind_writeStep ha (fun _ _ => rfl) happly)
      (seqBlind_cons (stepBlind_writeStep ha (fun _ _ => rfl) blindEffect_id) seqBlind_nil))

theorem seqBlind_seqImp {effect : Cpu → Cpu} (he : BlindEffect effect) : SeqBlind (seqImp effect) :=
  seqBlind_cons (stepBlind_dummyStep (fun _ _ => rfl) he) seqBlind_nil

theorem seqBlind_seqRead {e : Byte → Cpu → Cpu} (he : ∀ v, BlindEffect (e v)) (m : RMode) : SeqBlind (seqRead m e) := by
  have hzp : SeqBlind [execRead atZeroPageLo e] := seqBlind_cons (stepBlind_execRead (fun _ _ => rfl) he) seqBlind_nil
  have hlatch : SeqBlind [execRead atLatch e] := seqBlind_cons (stepBlind_execRead (fun _ _ => rfl) he) seqBlind_nil
  cases m
  case imm =>
    exact seqBlind_cons (stepBlind_readStep (fun _ _ => rfl) fun v =>
      (he v).comp (f := fun c => setData v (incPc c)) fun _ b => ⟨b, rfl⟩) seqBlind_nil
  case zp => exact seqBlind_cons stepBlind_zpT1 hzp
  case zpx => exact seqBlind_cons stepBlind_zpT1 (seqBlind_cons (stepBlind_zpiT2 blindValue_x) hzp)
  case zpy => exact seqBlind_cons stepBlind_zpT1 (seqBlind_cons (stepBlind_zpiT2 blindValue_y) hzp)
  case abs => exact seqBlind_cons stepBlind_absT1 (seqBlind_cons stepBlind_absT2 hlatch)
  case abx =>
    exact seqBlind_cons stepBlind_absT1 (seqBlind_cons (stepBlind_abiReadT2 blindValue_x)
      (seqBlind_cons stepBlind_crossDummy hlatch))
  case aby =>
    exact seqBlind_cons stepBlind_absT1 (seqBlind_cons (stepBlind_abiReadT2 blindValue_y)
      (seqBlind_cons stepBlind_crossDummy hlatch))
  case izy =>
    exact seqBlind_cons stepBlind_izyT1 (seqBlind_cons stepBlind_izyT2 (seqBlind_cons stepBlind_izyReadT3
      (seqBlind_cons stepBlind_crossDummy hlatch)))

theorem seqBlind_seqWrite (hv : BlindValue value) (m : WMode) : SeqBlind (seqWrite m value) := by
  have hzp : SeqBlind [writeStep atZeroPageLo value id] :=
    seqBlind_cons (stepBlind_writeStep (fun _ _ => rfl) hv blindEffect_id) seqBlind_nil
  have hlatch : SeqBlind [writeStep atLatch value id] :=
    seqBlind_cons (stepBlind_writeStep (fun _ _ => rfl) hv blindEffect_id) seqBlind_nil
  cases m
  case zp => exact seqBlind_cons stepBlind_zpT1 hzp
  case zpx => exact seqBlind_cons stepBlind_zpT1 (seqBlind_cons (stepBlind_zpiT2 blindValue_x) hzp)
  case zpy => exact seqBlind_cons stepBlind_zpT1 (seqBlind_cons (stepBlind_zpiT2 blindValue_y) hzp)
  case abs => exact seqBlind_cons stepBlind_absT1 (seqBlind_cons stepBlind_absT2 hlatch)
  case abx =>
    exact seqBlind_cons stepBlind_absT1 (seqBlind_cons (stepBlind_abiWriteT2 blindValue_x)
      (seqBlind_cons (stepBlind_writeDummy blindValue_x) hlatch))
  case aby =>
    exact seqBlind_cons stepBlind_absT1 (seqBlind_cons (stepBlind_abiWriteT2 blindValue_y)
      (seqBlind_cons (stepBlind_writeDummy blindValue_y) hlatch))
  case izy =>
    exact seqBlind_cons stepBlind_izyT1 (seqBlind_cons stepBlind_izyT2 (seqBlind_cons stepBlind_izyWriteT3
      (seqBlind_cons (stepBlind_writeDummy blindValue_y) hlatch)))

theorem seqBlind_seqModify {f : Modify} (hf : BlindModify f) (m : MMode) : SeqBlind (seqModify m f) := by
  have hzp := seqBlind_modifySteps (addr := atZeroPageLo) (fun _ _ => rfl) hf
  have hlatch := seqBlind_modifySteps (addr := atLatch) (fun _ _ => rfl) hf
  have hacc : BlindEffect (modifyA f) := fun c b => ⟨b, by
    have h := hf c.a c.p b
    simp only [modifyA, Cpu.withB, h]⟩
  cases m
  case acc => exact seqBlind_seqImp hacc
  case zp => exact seqBlind_cons stepBlind_zpT1 hzp
  case zpx => exact seqBlind_cons stepBlind_zpT1 (seqBlind_cons (stepBlind_zpiT2 blindValue_x) hzp)
  case abs => exact seqBlind_cons stepBlind_absT1 (seqBlind_cons stepBlind_absT2 hlatch)
  case abx =>
    exact seqBlind_cons stepBlind_absT1 (seqBlind_cons (stepBlind_abiWriteT2 blindValue_x)
      (seqBlind_cons (stepBlind_writeDummy blindValue_x) hlatch))

/-! ## Control flow, the stack and the interrupt sequence -/

/-- A dummy read at `PC`, the first step of the stack sequences. -/
theorem stepBlind_dummyPc : StepBlind (dummyStep atPc id) := stepBlind_dummyStep (fun _ _ => rfl) blindEffect_id

theorem stepBlind_prePull : StepBlind prePullStep := stepBlind_dummyStep (fun _ _ => rfl) fun _ b => ⟨b, rfl⟩

theorem stepBlind_readStack {effect : Byte → Cpu → Cpu} (he : ∀ v, BlindEffect (effect v)) :
    StepBlind (readStep atStack effect) := stepBlind_readStep (fun _ _ => rfl) he

theorem stepBlind_pushStep (hv : BlindValue value) : StepBlind (pushStep value) :=
  stepBlind_writeStep (fun _ _ => rfl) hv fun _ b => ⟨b, rfl⟩

theorem stepBlind_jumpStep : StepBlind jumpStep := stepBlind_readStep (fun _ _ => rfl) fun _ _ b => ⟨b, rfl⟩

theorem seqBlind_seqRel {cond : Flags → Bool} (hc : BlindValue fun c => cond c.p) : SeqBlind (seqRel cond) := by
  have hskip : ∀ v : Byte, BlindValue fun c => if cond c.p then 0 else 2 :=
    fun _ c b => congrArg (fun t : Bool => if t then 0 else 2) (hc c b)
  exact seqBlind_cons (stepBlind_readSkip (fun _ _ => rfl) (fun _ _ b => ⟨b, rfl⟩) hskip)
    (seqBlind_cons (stepBlind_readSkip (fun _ _ => rfl) (fun _ _ b => ⟨b, rfl⟩) fun _ _ _ => rfl)
      (seqBlind_cons (stepBlind_dummyStep (fun _ _ => rfl) fun _ b => ⟨b, rfl⟩) seqBlind_nil))

theorem seqBlind_seqJsr : SeqBlind seqJsr :=
  seqBlind_cons stepBlind_absT1 (seqBlind_cons (stepBlind_dummyStep (fun _ _ => rfl) blindEffect_id)
    (seqBlind_cons (stepBlind_pushStep fun _ _ => rfl) (seqBlind_cons (stepBlind_pushStep fun _ _ => rfl)
      (seqBlind_cons stepBlind_jumpStep seqBlind_nil))))

theorem seqBlind_seqRts : SeqBlind seqRts :=
  seqBlind_cons stepBlind_dummyPc (seqBlind_cons stepBlind_prePull
    (seqBlind_cons (stepBlind_readStack fun _ _ b => ⟨b, rfl⟩) (seqBlind_cons (stepBlind_readStack fun _ _ b => ⟨b, rfl⟩)
      (seqBlind_cons (stepBlind_dummyStep (fun _ _ => rfl) fun _ b => ⟨b, rfl⟩) seqBlind_nil))))

theorem seqBlind_seqPush (hv : BlindValue value) : SeqBlind (seqPush value) :=
  seqBlind_cons stepBlind_dummyPc (seqBlind_cons (stepBlind_pushStep hv) seqBlind_nil)

theorem seqBlind_seqPull {effect : Byte → Cpu → Cpu} (he : ∀ v, BlindEffect (effect v)) : SeqBlind (seqPull effect) :=
  seqBlind_cons stepBlind_dummyPc (seqBlind_cons stepBlind_prePull (seqBlind_cons (stepBlind_readStack he) seqBlind_nil))

/-- The flags pulled replace `B` too, so the old `B` leaves no trace (10_state.md R25). -/
theorem blindEffect_ungroup (v : Byte) : BlindEffect fun c => { c with p := ungroup v } :=
  fun _ _ => ⟨(ungroup v).b, rfl⟩

theorem seqBlind_seqRti : SeqBlind seqRti :=
  seqBlind_cons stepBlind_dummyPc (seqBlind_cons stepBlind_prePull
    (seqBlind_cons
      (stepBlind_readStack fun v => BlindEffect.comp (g := incS) (fun _ b => ⟨b, rfl⟩) (blindEffect_ungroup v))
      (seqBlind_cons (stepBlind_readStack fun _ _ b => ⟨b, rfl⟩)
        (seqBlind_cons (stepBlind_readStack fun _ _ b => ⟨b, rfl⟩) seqBlind_nil))))

theorem stepBlind_entryPush {value : Pending → Cpu → Byte} {effect : Cpu → Cpu} (hv : ∀ q, BlindValue (value q))
    (he : BlindEffect effect) : StepBlind (entryPush value effect) := by
  have hpush (u : State) (b : Bool) : ∃ b', ((u.withB b).onCpu (fun c => effect (decS c)), 0) =
      ((u.onCpu fun c => effect (decS c)).withB b', 0) :=
    (onCpu_blind (he.comp (f := decS) fun _ b => ⟨b, rfl⟩) u b).imp fun _ h => congrArg (·, 0) h
  intro s
  have hpending (b : Bool) : (s.withB b).pending = s.pending := rfl
  refine ⟨fun b => ?_, ?_⟩
  · simp only [entryPush, hpending]
    cases s.pending
    case reset => rfl
    case none | nmi | irq => exact congrArg (Access.write _ · _) (hv _ s.cpu b)
  · unfold entryPush
    cases s.pending
    case reset => exact fun _ => hpush
    case none | nmi | irq => exact hpush

theorem stepBlind_entryT1 : StepBlind entryT1 := by
  intro s
  refine ⟨fun _ => rfl, fun _ _ b => ⟨b, ?_⟩⟩
  cases s.pending <;> rfl

/-- The interrupt sequence pushes the status byte, of which the stored `B` is no part (10_state.md R24). -/
theorem seqBlind_seqInt : SeqBlind seqInt :=
  seqBlind_cons stepBlind_entryT1 (seqBlind_cons (stepBlind_entryPush (fun _ _ _ => rfl) blindEffect_id)
    (seqBlind_cons (stepBlind_entryPush (fun _ _ _ => rfl) blindEffect_id)
      (seqBlind_cons (stepBlind_entryPush (fun _ _ _ => rfl) fun _ b => ⟨b, rfl⟩)
        (seqBlind_cons (fun _ => ⟨fun _ => rfl, fun _ _ b => ⟨b, rfl⟩⟩)
          (seqBlind_cons (fun _ => ⟨fun _ => rfl, fun _ _ b => ⟨b, rfl⟩⟩) seqBlind_nil)))))

/-- No step of any instruction looks at `B`. -/
theorem seqBlind_ownSteps (i : Instr) : SeqBlind (ownSteps i) := by
  cases i
  case lda m | ldx m | ldy m | adc m | sbc m | and m | ora m | eor m | cmp m | cpx m | cpy m | bit m =>
    exact seqBlind_seqRead (fun _ _ b => ⟨b, rfl⟩) m
  case sta m | stx m | sty m => exact seqBlind_seqWrite (fun _ _ => rfl) m
  case asl m | lsr m | rol m | ror m | inc m | dec m => exact seqBlind_seqModify (fun _ _ _ => rfl) m
  case bpl | bmi | bvc | bvs | bcc | bcs | bne | beq => exact seqBlind_seqRel fun _ _ => rfl
  case jmp => exact seqBlind_cons stepBlind_absT1 (seqBlind_cons stepBlind_jumpStep seqBlind_nil)
  case jsr => exact seqBlind_seqJsr
  case rts => exact seqBlind_seqRts
  case pha | php => exact seqBlind_seqPush fun _ _ => rfl
  case pla => exact seqBlind_seqPull fun _ _ b => ⟨b, rfl⟩
  case plp => exact seqBlind_seqPull blindEffect_ungroup
  case brk => exact seqBlind_seqInt
  case rti => exact seqBlind_seqRti
  case ill b => exact seqBlind_cons (fun _ => ⟨fun _ => rfl, trivial⟩) seqBlind_nil
  all_goals exact seqBlind_seqImp fun _ b => ⟨b, rfl⟩

/-! ## The bus, a system step and a run -/

/-- `B` is a part of the CPU: a state with another CPU in it has that one's `B`. -/
theorem withB_of_cpu {s t : State} (h : t.cpu = s.cpu) (b : Bool) : t.withB b = { t with cpu := s.cpu.withB b } := by
  rw [← h]; rfl

theorem ppuShare_withB (s : State) (b : Bool) : ppuShare (s.withB b) = (ppuShare s).withB b :=
  (afterPpu_with_cpu 1 s (s.cpu.withB b)).trans (withB_of_cpu (afterPpu_cpu 1 s) b).symm

theorem busRead_withB {a : Word} {s t : State} {v : Byte} (b : Bool) (h : busRead a s = .ok (v, t)) :
    busRead a (s.withB b) = .ok (v, t.withB b) := by
  rw [withB_of_cpu (busRead_frame h).1]
  exact busRead_with_cpu_ok (s.cpu.withB b) h

theorem busRead_withB_error {a : Word} {s : State} {f : Fault} (b : Bool) (h : busRead a s = .error f) :
    busRead a (s.withB b) = .error f :=
  (busRead_with_cpu a s (s.cpu.withB b)).trans (by rw [h])

theorem busWrite_withB {a : Word} {v : Byte} {s t : State} (b : Bool) (h : busWrite a v s = .ok t) :
    busWrite a v (s.withB b) = .ok (t.withB b) := by
  rw [withB_of_cpu (busWrite_frame h).1]
  exact busWrite_with_cpu_ok (s.cpu.withB b) h

theorem busWrite_withB_error {a : Word} {v : Byte} {s : State} {f : Fault} (b : Bool) (h : busWrite a v s = .error f) :
    busWrite a v (s.withB b) = .error f :=
  (busWrite_with_cpu a v s (s.cpu.withB b)).trans (by rw [h])

theorem perform_withB_ok {x : Access} {s t : State} {k : Nat} (hx : x.BlindToB) (b : Bool)
    (h : perform x s = .ok (t, k)) : ∃ b', perform x (s.withB b) = .ok (t.withB b', k) := by
  rcases perform_cases h with ⟨a, effect, v, u, rfl, hb, he⟩ | ⟨a, v, effect, u, rfl, hb, he⟩
  · obtain ⟨b', hx⟩ := hx v u b
    rw [he] at hx
    exact ⟨b', (perform_read (busRead_withB b hb)).trans (congrArg _ hx)⟩
  · obtain ⟨b', hx⟩ := hx u b
    rw [he] at hx
    exact ⟨b', (perform_write (busWrite_withB b hb)).trans (congrArg _ hx)⟩

theorem perform_withB_error {x : Access} {s : State} {f : Fault} (b : Bool) (h : perform x s = .error f) :
    perform x (s.withB b) = .error f := by
  rcases perform_fault h with ⟨a, e, rfl, hb⟩ | ⟨a, v, e, rfl, hb⟩ | rfl
  · simp only [perform, busRead_withB_error b hb]
  · simp only [perform, busWrite_withB_error b hb]
  · rfl

/-- A step carried out from two states that differ in `B` alone: the same fault, or the same skip to two such states. -/
theorem perform_withB {m : MicroStep} (hm : StepBlind m) (s : State) (b : Bool) :
    (∃ f, perform (m s) s = .error f ∧ perform (m (s.withB b)) (s.withB b) = .error f) ∨
    ∃ t k b', perform (m s) s = .ok (t, k) ∧ perform (m (s.withB b)) (s.withB b) = .ok (t.withB b', k) := by
  rw [(hm s).1]
  rcases hp : perform (m s) s with f | ⟨t, k⟩
  · exact .inl ⟨f, rfl, perform_withB_error b hp⟩
  · obtain ⟨b', hp'⟩ := perform_withB_ok (hm s).2 b hp
    exact .inr ⟨t, k, b', rfl, hp'⟩

/-- Two outcomes that differ in `B` alone. -/
inductive SameButB : Result → Result → Prop
  | next (t : State) (b : Bool) : SameButB (.next t) (.next (t.withB b))
  | fault (f : Fault) : SameButB (.fault f) (.fault f)
  | refused (q : Refusal) : SameButB (.refused q) (.refused q)

theorem SameButB.of_next {t : State} {r : Result} (h : SameButB (.next t) r) : ∃ b, r = .next (t.withB b) := by
  cases h with
  | next _ b => exact ⟨b, rfl⟩

theorem SameButB.of_fault {f : Fault} {r : Result} (h : SameButB (.fault f) r) : r = .fault f := by
  cases h with
  | fault => rfl

theorem cycle_withB {m : MicroStep} (hm : StepBlind m) (s : State) (b : Bool) :
    SameButB (cycle m s) (cycle m (s.withB b)) := by
  have hhalted : (s.withB b).halted = s.halted := rfl
  simp only [cycle, hhalted, ppuShare_withB]
  cases s.halted with
  | some f => exact .fault f
  | none =>
    rcases perform_withB hm (ppuShare s) b with ⟨f, h, h'⟩ | ⟨t, k, b', h, h'⟩ <;> simp only [h, h']
    · exact .fault f
    · exact .next (advanceCursor k t) b'

theorem stepBlind_fetchStep : StepBlind fetchStep := by
  intro s
  refine ⟨fun _ => rfl, fun _ _ b => ⟨b, ?_⟩⟩
  cases s.pending <;> rfl

theorem fetchCycle_withB (s : State) (b : Bool) : SameButB (fetchCycle s) (fetchCycle (s.withB b)) := by
  have hhalted : (s.withB b).halted = s.halted := rfl
  simp only [fetchCycle, hhalted, ppuShare_withB]
  cases s.halted with
  | some f => exact .fault f
  | none =>
    rcases perform_withB stepBlind_fetchStep (ppuShare s) b with ⟨f, h, h'⟩ | ⟨t, k, b', h, h'⟩ <;> simp only [h, h']
    · exact .fault f
    · exact .next t b'

theorem runFrom_withB {own : List MicroStep} (hown : SeqBlind own) (n : Nat) (s : State) (b : Bool) :
    SameButB (runFrom own n s) (runFrom own n (s.withB b)) := by
  induction n generalizing s b with
  | zero => exact .next s b
  | succ n ih =>
    have hcur : own[(s.withB b).cpu.cursor]? = own[s.cpu.cursor]? := rfl
    cases hm : own[s.cpu.cursor]? with
    | none =>
      rw [runFrom_done _ hm, runFrom_done _ (hcur.trans hm)]
      exact .next s b
    | some m =>
      have hc := cycle_withB (hown m (List.mem_of_getElem? hm)) s b
      simp only [runFrom, hcur, hm]
      generalize cycle m s = r at hc ⊢
      generalize cycle m (s.withB b) = r' at hc ⊢
      cases hc with
      | next t b' => exact ih t b'
      | fault f => exact .fault f
      | refused q => exact .refused q

theorem exec_withB (i : Instr) (s : State) (b : Bool) : SameButB (exec i s) (exec i (s.withB b)) := by
  rw [exec_eq, exec_eq]
  cases hh : s.halted with
  | some f =>
    rw [runSteps_halted hh, runSteps_halted (s := s.withB b) hh]
    exact .fault f
  | none =>
    rw [runSteps_running hh, runSteps_running (s := s.withB b) hh]
    exact runFrom_withB (seqBlind_ownSteps i) _ s b

theorem step_withB (s : State) (b : Bool) : SameButB (step s) (step (s.withB b)) := by
  have hat : atBoundary (s.withB b) = atBoundary s := rfl
  cases hh : s.halted with
  | some f =>
    have hb : (s.withB b).halted = some f := hh
    simp only [step, hh, hb]
    exact .fault f
  | none =>
    cases hb : atBoundary s with
    | false =>
      rw [step_inside hh hb, step_inside (s := s.withB b) hh (hat.trans hb)]
      exact exec_withB (installed s) s b
    | true =>
      rw [step_boundary hh hb, step_boundary (s := s.withB b) hh (hat.trans hb)]
      have hf := fetchCycle_withB s b
      generalize fetchCycle s = r at hf ⊢
      generalize fetchCycle (s.withB b) = r' at hf ⊢
      cases hf with
      | next t b' => exact exec_withB (installed t) t b'
      | fault f => exact .fault f
      | refused q => exact .refused q

/-- Settles O44: a step from two states that differ in `B` alone answers two outcomes that differ in `B` alone. -/
theorem storedBreakFlagIsUnobservable : Obligations.StoredBreakFlagIsUnobservable := by
  intro s b
  have h := step_withB s b
  exact ⟨fun t ht => (ht ▸ h).of_next, fun f hf => (hf ▸ h).of_fault⟩

end Sys2Proof.Machine
end

section
/-! PROOF. What an instruction leaves alone: the flags and registers its rule does not write (O37, O38), the memories and the
PPU's control state where it stores nothing (O39), and the launch constants (O36). -/

namespace Sys2Proof.Machine

/-! ## What an instruction's rule does to the registers and flags -/

/-- The effect of a class M hook: on `A` and the flags in the accumulator form (40_sequencer.md R141), on the flags alone
otherwise (R145). -/
def modifyEffect (f : Modify) (m : MMode) (v : Byte) (c : Cpu) : Cpu :=
  match m with
  | .acc => modifyA f c
  | .zp | .zpx | .abs | .abx => { c with p := (f v c.p).2 }

/-- What an instruction does to `A`, `X`, `Y` and the flags, and `TXS` to `S`; `v` is the byte it reads. The pushes and pulls
move `S` besides. -/
def ruleEffect : Instr → Byte → Cpu → Cpu
  | .lda _ => ldaExec | .ldx _ => ldxExec | .ldy _ => ldyExec
  | .adc _ => adcExec | .sbc _ => sbcExec | .and _ => andExec | .ora _ => oraExec | .eor _ => eorExec
  | .cmp _ => cmpExec | .cpx _ => cpxExec | .cpy _ => cpyExec | .bit _ => bitExec
  | .asl m => modifyEffect aslModify m | .lsr m => modifyEffect lsrModify m
  | .rol m => modifyEffect rolModify m | .ror m => modifyEffect rorModify m
  | .inc m => modifyEffect incModify m | .dec m => modifyEffect decModify m
  | .tax => fun _ => taxExec | .tay => fun _ => tayExec | .txa => fun _ => txaExec | .tya => fun _ => tyaExec
  | .tsx => fun _ => tsxExec | .txs => fun _ => txsExec
  | .inx => fun _ => inxExec | .iny => fun _ => inyExec | .dex => fun _ => dexExec | .dey => fun _ => deyExec
  | .clc => fun _ => clcExec | .sec => fun _ => secExec | .cli => fun _ => cliExec | .sei => fun _ => seiExec
  | .clv => fun _ => clvExec | .cld => fun _ => cldExec | .sed => fun _ => sedExec
  | .pla => fun v c => { c with a := v, p := setNZ v c.p }
  | .plp | .rti => fun v c => { c with p := ungroup v }
  | .brk => fun _ c => { c with p := { c.p with i := true } }
  | .sta _ | .stx _ | .sty _ | .bpl | .bmi | .bvc | .bvs | .bcc | .bcs | .bne | .beq | .jmp | .jsr | .rts | .pha | .php
  | .nop | .ill _ => fun _ c => c

variable {α : Type} {φ : Cpu → α}

theorem seqHolds_modifyEffect (hφ : Blind φ) {f : Modify} {m : MMode} (h : ∀ v c, φ (modifyEffect f m v c) = φ c) :
    SeqHolds φ (seqModify m f) := by
  cases m
  case acc => exact holds_seqImp (h 0#8)
  case zp => exact holds_seqModify hφ h .zp nofun
  case zpx => exact holds_seqModify hφ h .zpx nofun
  case abs => exact holds_seqModify hφ h .abs nofun
  case abx => exact holds_seqModify hφ h .abx nofun

/-- Outside `PC`, the latch and the cursor, an instruction's sequence keeps what its rule keeps, and what does not depend on
`S` where it moves `S`. -/
theorem seqHolds_ownSteps {i : Instr} (hφ : Blind φ) (hS : writesS i = true → ∀ (c : Cpu) sp, φ { c with s := sp } = φ c)
    (h : ∀ v c, φ (ruleEffect i v c) = φ c) : SeqHolds φ (ownSteps i) := by
  cases i
  case lda m | ldx m | ldy m | adc m | sbc m | and m | ora m | eor m | cmp m | cpx m | cpy m | bit m =>
    exact holds_seqRead hφ h m
  case sta m | stx m | sty m => exact holds_seqWrite hφ _ m
  case asl m | lsr m | rol m | ror m | inc m | dec m => exact seqHolds_modifyEffect hφ h
  case bpl | bmi | bvc | bvs | bcc | bcs | bne | beq => exact holds_seqRel hφ _
  case jmp => exact holds_seqJmp hφ
  case jsr => exact holds_seqJsr ⟨hφ, hS rfl⟩
  case rts => exact holds_seqRts ⟨hφ, hS rfl⟩
  case pha | php => exact holds_seqPush ⟨hφ, hS rfl⟩ _
  case pla | plp => exact holds_seqPull ⟨hφ, hS rfl⟩ h
  case rti => exact holds_seqRti ⟨hφ, hS rfl⟩ h
  case brk => exact holds_seqInt ⟨hφ, hS rfl⟩ (h 0#8)
  case ill b => exact holds_seqIll b
  all_goals exact holds_seqImp (h 0#8)

theorem exec_keeps {i : Instr} {s t : State} (hφ : Blind φ)
    (hS : writesS i = true → ∀ (c : Cpu) sp, φ { c with s := sp } = φ c) (h : ∀ v c, φ (ruleEffect i v c) = φ c)
    (he : exec i s = .next t) : φ t.cpu = φ s.cpu :=
  exec_holds hφ (seqHolds_ownSteps hφ hS h) he

/-! ## The rows of the flag table (10_state.md R46) -/

variable {i : Instr} (v : Byte) (c : Cpu)

theorem ruleEffect_nz (h : writesNZ i = false) :
    (ruleEffect i v c).p.n = c.p.n ∧ (ruleEffect i v c).p.z = c.p.z := by
  cases i
  case sta | stx | sty | txs | bpl | bmi | bvc | bvs | bcc | bcs | bne | beq | jmp | jsr | rts | pha | php | clc | sec | cli
      | sei | clv | cld | sed | nop | brk | ill => exact ⟨rfl, rfl⟩
  all_goals cases h

theorem ruleEffect_v (h : writesV i = false) : (ruleEffect i v c).p.v = c.p.v := by
  cases i
  case adc | sbc | bit | clv | plp | rti => cases h
  case asl m | lsr m | rol m | ror m | inc m | dec m => cases m <;> rfl
  all_goals rfl

theorem ruleEffect_b (h : writesB i = false) : (ruleEffect i v c).p.b = c.p.b := by
  cases i
  case plp | rti => cases h
  case asl m | lsr m | rol m | ror m | inc m | dec m => cases m <;> rfl
  all_goals rfl

theorem ruleEffect_d (h : writesD i = false) : (ruleEffect i v c).p.d = c.p.d := by
  cases i
  case sed | cld | plp | rti => cases h
  case asl m | lsr m | rol m | ror m | inc m | dec m => cases m <;> rfl
  all_goals rfl

theorem ruleEffect_i (h : writesI i = false) : (ruleEffect i v c).p.i = c.p.i := by
  cases i
  case sei | cli | plp | rti | brk => cases h
  case asl m | lsr m | rol m | ror m | inc m | dec m => cases m <;> rfl
  all_goals rfl

theorem ruleEffect_c (h : writesC i = false) : (ruleEffect i v c).p.c = c.p.c := by
  cases i
  case adc | sbc | cmp | cpx | cpy | asl | lsr | rol | ror | sec | clc | plp | rti => cases h
  case inc m | dec m => cases m <;> rfl
  all_goals rfl

/-- A flag is no part of `PC`, the latch, the cursor or `S`: one the rule keeps, the instruction keeps. -/
theorem exec_keeps_flag {g : Flags → α} {s t : State} (h : ∀ v c, g (ruleEffect i v c).p = g c.p)
    (he : exec i s = .next t) : g t.cpu.p = g s.cpu.p :=
  exec_keeps (φ := fun c => g c.p) (fun _ _ _ _ => rfl) (fun _ _ _ => rfl) h he

/-- Settles O37: the instruction keeps each flag that its rule keeps, and its row of the table says which those are. -/
theorem flagsOutsideTheTableAreUnchanged : Obligations.FlagsOutsideTheTableAreUnchanged := by
  intro i s t he
  refine ⟨fun h => ⟨?_, ?_⟩, fun h => ?_, fun h => ?_, fun h => ?_, fun h => ?_, fun h => ?_⟩
  · exact exec_keeps_flag (g := Flags.n) (fun v c => (ruleEffect_nz v c h).1) he
  · exact exec_keeps_flag (g := Flags.z) (fun v c => (ruleEffect_nz v c h).2) he
  · exact exec_keeps_flag (g := Flags.v) (fun v c => ruleEffect_v v c h) he
  · exact exec_keeps_flag (g := Flags.b) (fun v c => ruleEffect_b v c h) he
  · exact exec_keeps_flag (g := Flags.d) (fun v c => ruleEffect_d v c h) he
  · exact exec_keeps_flag (g := Flags.i) (fun v c => ruleEffect_i v c h) he
  · exact exec_keeps_flag (g := Flags.c) (fun v c => ruleEffect_c v c h) he

/-! ## The registers (10_state.md R20, R21) -/

/-- The table has no accumulator form of INC and DEC, so theirs do not write `A`. -/
theorem ruleEffect_a (hw : wellFormed i = true) (h : writesA i = false) : (ruleEffect i v c).a = c.a := by
  cases i
  case lda | txa | tya | adc | sbc | and | ora | eor | pla => cases h
  case asl m | lsr m | rol m | ror m =>
    cases m
    case acc => cases h
    all_goals rfl
  case inc m | dec m =>
    cases m
    case acc => cases hw
    all_goals rfl
  all_goals rfl

theorem ruleEffect_x (h : writesX i = false) : (ruleEffect i v c).x = c.x := by
  cases i
  case ldx | tax | tsx | inx | dex => cases h
  case asl m | lsr m | rol m | ror m | inc m | dec m => cases m <;> rfl
  all_goals rfl

theorem ruleEffect_y (h : writesY i = false) : (ruleEffect i v c).y = c.y := by
  cases i
  case ldy | tay | iny | dey => cases h
  case asl m | lsr m | rol m | ror m | inc m | dec m => cases m <;> rfl
  all_goals rfl

theorem ruleEffect_s (h : writesS i = false) : (ruleEffect i v c).s = c.s := by
  cases i
  case txs => cases h
  case asl m | lsr m | rol m | ror m | inc m | dec m => cases m <;> rfl
  all_goals rfl

/-- Settles O38: the instruction keeps each register that its rule keeps, `S` where it also pushes and pulls nothing. -/
theorem registersNotWrittenAreUnchanged : Obligations.RegistersNotWrittenAreUnchanged := by
  intro i s t hw he
  refine ⟨fun h => ?_, fun h => ?_, fun h => ?_, fun h => ?_⟩
  · exact exec_keeps (φ := Cpu.a) (fun _ _ _ _ => rfl) (fun _ _ _ => rfl) (fun v c => ruleEffect_a v c hw h) he
  · exact exec_keeps (φ := Cpu.x) (fun _ _ _ _ => rfl) (fun _ _ _ => rfl) (fun v c => ruleEffect_x v c h) he
  · exact exec_keeps (φ := Cpu.y) (fun _ _ _ _ => rfl) (fun _ _ _ => rfl) (fun v c => ruleEffect_y v c h) he
  · have hS (hs : writesS i = true) : ∀ (c : Cpu) sp, ({ c with s := sp } : Cpu).s = c.s := by simp [h] at hs
    exact exec_keeps (φ := Cpu.s) (fun _ _ _ _ => rfl) hS (fun v c => ruleEffect_s v c h) he

/-! ## Instructions that store nothing (40_sequencer.md R157) -/

/-- What neither a read nor PPU work changes: the memories, the launch constants, the control bits, the VRAM address, and the
write order up to the reset that a status read makes (48_ppu.md R317). -/
structure SameStores (s t : State) : Prop where
  ram : t.ram = s.ram
  rom : t.rom = s.rom
  vram : t.ppu.vram = s.ppu.vram
  nmiEnable : t.ppu.nmiEnable = s.ppu.nmiEnable
  patternHalf : t.ppu.patternHalf = s.ppu.patternHalf
  vramInc32 : t.ppu.vramInc32 = s.ppu.vramInc32
  vramAddr : t.ppu.vramAddr = s.ppu.vramAddr
  wlatch : t.ppu.wlatch = s.ppu.wlatch ∨ t.ppu.wlatch = .first

theorem SameStores.refl (s : State) : SameStores s s := ⟨rfl, rfl, rfl, rfl, rfl, rfl, rfl, .inl rfl⟩

theorem SameStores.trans {s t u : State} (h : SameStores s t) (k : SameStores t u) : SameStores s u where
  ram := k.ram.trans h.ram
  rom := k.rom.trans h.rom
  vram := k.vram.trans h.vram
  nmiEnable := k.nmiEnable.trans h.nmiEnable
  patternHalf := k.patternHalf.trans h.patternHalf
  vramInc32 := k.vramInc32.trans h.vramInc32
  vramAddr := k.vramAddr.trans h.vramAddr
  wlatch := k.wlatch.elim (fun hk => h.wlatch.imp hk.trans hk.trans) .inr

theorem sameStores_ppuShare (s : State) : SameStores s (ppuShare s) := by
  obtain ⟨hvram, hnmi, hhalf, hinc, haddr, hlatch⟩ := afterPpu_kept 1 s
  exact ⟨afterPpu_ram 1 s, afterPpu_rom 1 s, hvram, hnmi, hhalf, hinc, haddr, .inl hlatch⟩

theorem sameStores_of_busRead {a : Word} {s t : State} {v : Byte} (h : busRead a s = .ok (v, t)) : SameStores s t := by
  obtain ⟨-, -, -, hram, hrom⟩ := busRead_frame h
  obtain ⟨hvram, hnmi, hhalf, hinc, haddr, hlatch⟩ := busRead_ppu h
  exact ⟨hram, hrom, hvram, hnmi, hhalf, hinc, haddr, hlatch⟩

theorem sameStores_of_keeps {s t : State} (h : Keeps s t) : SameStores s t := by
  have hp := h.ppu
  exact ⟨h.ram, h.rom, by rw [hp], by rw [hp], by rw [hp], by rw [hp], by rw [hp], .inl (by rw [hp])⟩

theorem sameStores_advanceCursor (k : Nat) (s : State) : SameStores s (advanceCursor k s) :=
  ⟨rfl, rfl, rfl, rfl, rfl, rfl, rfl, .inl rfl⟩

/-- A system step whose own step makes no write. -/
theorem cycle_sameStores {r : Nat} {m : MicroStep} {s t : State} (hm : Tame r m) (hk : (m (ppuShare s)).kind ≠ .write)
    (h : cycle m s = .next t) : SameStores s t := by
  obtain ⟨-, w, k, hp, rfl⟩ := cycle_next h
  refine (sameStores_ppuShare s).trans ?_
  have hx := hm (ppuShare s)
  rcases perform_cases hp with ⟨a, effect, v, u, he, hb, hw⟩ | ⟨a, v, effect, u, he, -, -⟩ <;> rw [he] at hx hk
  · have hkeeps := (hx v u).1
    rw [hw] at hkeeps
    exact ((sameStores_of_busRead hb).trans (sameStores_of_keeps hkeeps)).trans (sameStores_advanceCursor k w)
  · exact absurd rfl hk

theorem exec_sameStores {i : Instr} {s t : State} (hst : stores i = false) (h : exec i s = .next t) :
    SameStores s t := by
  rw [exec_eq] at h
  refine runSteps_keep (P := SameStores s) (fun m hm u w hu hc => ?_) (SameStores.refl s) h
  obtain ⟨j, hj⟩ := List.mem_iff_getElem?.1 hm
  obtain ⟨r, htame, -⟩ := tame_getElem (tame_ownSteps i) hj
  have hkind : (m (ppuShare u)).kind ≠ .write := fun hwrite =>
    write_not_mem_busPattern hst _ (hwrite ▸ kind_mem_busPattern hm (ppuShare u))
  exact hu.trans (cycle_sameStores htame hkind hc)

/-- Settles O39: none of the instruction's steps writes, and a read with its effect keeps all that the statement names. -/
theorem nonStoringInstructionsLeaveMemory : Obligations.NonStoringInstructionsLeaveMemory := by
  intro i s t hst he
  have h := exec_sameStores hst he
  exact ⟨fun a _ => peek_congr h.ram h.rom a, h.ram, h.vram, h.nmiEnable, h.patternHalf, h.vramInc32, h.vramAddr, h.wlatch⟩

/-! ## The launch constants (10_state.md R31, R34, R39) -/

/-- Settles O36: FETCH and the instruction it installs each keep the launch constants. -/
theorem launchConstantsNeverChange : Obligations.LaunchConstantsNeverChange := by
  intro s t h
  obtain ⟨-, ⟨-, u, hf, he⟩ | ⟨-, he⟩⟩ := step_cases h
  · obtain ⟨-, hfetch, -, -⟩ := fetchCycle_frame hf
    obtain ⟨-, hrom, -, -, -⟩ := exec_next he
    exact hrom.trans hfetch
  · obtain ⟨-, hrom, -, -, -⟩ := exec_next he
    exact hrom

end Sys2Proof.Machine
end

section
/-! PROOF. The stack pointer over many pushes (O43), the status byte (O47) and the control port (O54). -/

namespace Sys2Proof.Machine

/-! ## Many pushes (10_state.md R21) -/

/-- One PHA from its state after FETCH takes one from `S`, and leaves `PC` and the running machine. -/
theorem exec_pha {s : State} (hf : Fetched s) (hp : plain s.cpu.pc = true) :
    ∃ t, exec .pha s = .next t ∧ t.halted = none ∧ t.cpu.pc = s.cpu.pc ∧ t.cpu.s = s.cpu.s - 1#8 := by
  have hrun := seqPush_run (value := Cpu.a) (fun _ _ => rfl) hf hp
  exact ⟨_, hrun, (afterPpu_halted 2 s).trans hf.1, rfl, rfl⟩

/-- `n` PHAs take `n` modulo 256 from `S`, with no fault. -/
theorem pushRun_next (n : Nat) {s : State} (hh : s.halted = none) (hp : plain s.cpu.pc = true) :
    ∃ t, pushRun n s = .next t ∧ t.cpu.s = s.cpu.s - BitVec.ofNat 8 n := by
  induction n generalizing s with
  | zero => exact ⟨s, rfl, (BitVec.sub_zero _).symm⟩
  | succ n ih =>
    obtain ⟨t, he, hht, hpc, hs⟩ := exec_pha (s := s.onCpu fun c => { c with cursor := 0 }) ⟨hh, rfl⟩ hp
    obtain ⟨u, hu, hus⟩ := ih hht (by rw [hpc]; exact hp)
    refine ⟨u, by rw [pushRun, he]; exact hu, ?_⟩
    calc u.cpu.s = s.cpu.s - 1#8 - BitVec.ofNat 8 n := by rw [hus, hs]; rfl
      _ = s.cpu.s - BitVec.ofNat 8 (n + 1) := by rw [BitVec.sub_sub, BitVec.add_comm, BitVec.ofNat_add]

/-- Settles O43, as 257 pushes are one modulo 256. -/
theorem stackWrapsAfter257Pushes : Obligations.StackWrapsAfter257Pushes := by
  intro s hh hp hs
  obtain ⟨t, ht, hts⟩ := pushRun_next 257 hh hp
  exact ⟨t, ht, by rw [hts, hs]; rfl⟩

/-! ## The status byte (10_state.md R24, R25) -/

theorem group_toNat (p : Flags) (ctx : PushContext) :
    (group ctx p).toNat = 0x80 * p.n.toNat + 0x40 * p.v.toNat + 0x20 + 0x10 * (bit4 ctx).toNat + 0x08 * p.d.toNat +
      0x04 * p.i.toNat + 0x02 * p.z.toNat + 0x01 * p.c.toNat := by
  obtain ⟨n, v, b, d, i, z, c⟩ := p
  unfold group
  generalize bit4 ctx = x
  revert n v b d i z c x; decide

theorem group_ungroup (q : Byte) (ctx : PushContext) :
    group ctx (ungroup q) = (q &&& 0xCF#8) ||| 0x20#8 ||| (if bit4 ctx then 0x10#8 else 0x00#8) := by
  unfold group
  generalize bit4 ctx = x
  revert q x; decide

theorem ungroup_group (p : Flags) (ctx : PushContext) : ungroup (group ctx p) = { p with b := bit4 ctx } := by
  obtain ⟨n, v, b, d, i, z, c⟩ := p
  unfold group
  generalize bit4 ctx = x
  revert n v b d i z c x; decide

/-- Settles O47: the layout for each context, and the two round trips. -/
theorem statusByteLayoutAndRoundTrip : Obligations.StatusByteLayoutAndRoundTrip :=
  ⟨group_toNat, rfl, rfl, rfl, group_ungroup, ungroup_group⟩

/-! ## The control port (48_ppu.md R316) -/

theorem getLsbD_four_eq (v : Byte) : v.getLsbD 4 = decide (16 ≤ v.toNat % 32) := by revert v; decide

theorem getLsbD_two_eq (v : Byte) : v.getLsbD 2 = decide (4 ≤ v.toNat % 8) := by revert v; decide

/-- A write in the port window is the port's. -/
theorem busWrite_port {a : Word} (v : Byte) (s : State) (h : 0x2000 ≤ a.toNat) (h' : a.toNat < 0x4000) :
    busWrite a v s = .ok (ppuPortWrite (a.toNat % 8) v s) := by
  rw [busWrite, if_neg (by omega), if_pos h', portOf_eq]

/-- Settles O54: the write is port 0's, and the tested bits are those ranges of the byte. -/
theorem controlPortWrite : Obligations.ControlPortWrite := by
  refine ⟨fun a v s h h' hport => ?_, rfl, rfl, rfl⟩
  rw [busWrite_port v s h h', hport, ppuPortWrite, if_pos rfl, ppuCtrlWrite, bit7_eq, getLsbD_four_eq, getLsbD_two_eq]

end Sys2Proof.Machine
end

section
/-! PROOF. The reset sequence from any launch (O23): FETCH and the interrupt entry, with the Reset pending throughout
(60_exceptions.md R350, 70_reset_and_hazards.md R381). -/

namespace Sys2Proof.Machine

/-- PPU work inside a visible scanline moves the dot on, and raises no interrupt. -/
theorem ppuTicks_visible (n : Nat) {s : State} (hh : s.halted = none) (hline : s.ppu.scanline ≤ 239)
    (hdot : s.ppu.dot + n ≤ 340) :
    (ppuTicks n s).ppu.scanline = s.ppu.scanline ∧ (ppuTicks n s).ppu.dot = s.ppu.dot + n ∧
      (ppuTicks n s).pending = s.pending := by
  induction n generalizing s with
  | zero => exact ⟨rfl, rfl, rfl⟩
  | succ n ih =>
    obtain ⟨hd, hl⟩ := ppuAct_position s.rom s.ppu
    have hadv : ppuAdvance (ppuAct s.rom s.ppu) = { ppuAct s.rom s.ppu with dot := s.ppu.dot + 1 } := by
      rw [ppuAdvance, hd, if_pos (by rw [Config.lastDot]; omega)]
    have hq : pendingAfter s.ppu s.pending = s.pending := by
      have hne : s.ppu.scanline ≠ 241 := by omega
      simp [pendingAfter, nmiRaised, hne]
    have htick := ppuTick_of_running hh
    rw [hadv, hq] at htick
    obtain ⟨h1, h2, h3⟩ := ih (s := ppuTick s) (by rw [ppuTick_halted, hh]) (by rw [htick]; exact hl.trans_le hline)
      (by rw [htick]; show s.ppu.dot + 1 + n ≤ 340; omega)
    rw [htick] at h1 h2 h3
    rw [ppuTicks_succ, htick]
    exact ⟨h1.trans hl, h2.trans (by show s.ppu.dot + 1 + n = _; omega), h3⟩

/-- The PPU's first seven system steps after launch (10_state.md R32): 21 dots into scanline 0, with the Reset still pending. -/
theorem afterPpu_launch (l : Launch) :
    (afterPpu 7 (State.launch l)).ppu.scanline = 0 ∧ (afterPpu 7 (State.launch l)).ppu.dot = 21 ∧
      (afterPpu 7 (State.launch l)).pending = .reset := by
  have hticks : afterPpu 7 (State.launch l) = ppuTicks 21 (State.launch l) := rfl
  obtain ⟨hline, hdot, hq⟩ := ppuTicks_visible 21 (s := State.launch l) rfl (Nat.zero_le _) (by show 0 + 21 ≤ 340; omega)
  rw [hticks]
  exact ⟨hline, hdot, hq⟩

theorem afterPpu_launch_pending (l : Launch) {n : Nat} (hn : n ≤ 7) : (afterPpu n (State.launch l)).pending = .reset := by
  obtain ⟨-, -, h⟩ := afterPpu_launch l
  rw [afterPpu_pending_of_later hn (by rw [h]; decide), h]

/-- A launch is an instruction boundary: `ir = 0xEA` is NOP, or illegal where that is not implemented, and either has one own
step (10_state.md R28). -/
theorem atBoundary_launch (l : Launch) : atBoundary (State.launch l) = true := by
  have hir : installed (State.launch l) = decodeIn l.implemented 0xEA#8 := rfl
  have hnop : decodeOpcode 0xEA#8 = .nop := by decide
  rw [atBoundary, hir, decodeIn, hnop]
  split <;> rfl

/-- The CPU between the FETCH of the reset sequence and its T1: the forced byte installed, `PC` kept. -/
def resetCpu (l : Launch) : Cpu := { (State.launch l).cpu with ir := 0x00#8, cursor := 0 }

theorem fetchCycle_launch {l : Launch} (hp : plain l.resetPC = true) :
    fetchCycle (State.launch l) = .next (At (State.launch l) 1 (resetCpu l)) := by
  have hq : (afterPpu 1 (State.launch l)).pending ≠ .none := by rw [afterPpu_launch_pending l (by omega)]; decide
  rw [fetchCycle_interrupt rfl hq (busRead_plain _ hp), fetchedInterrupt, afterPpu_cpu]
  rfl

theorem installed_reset {l : Launch} (hi : 0x00#8 ∈ l.implemented) :
    installed (At (State.launch l) 1 (resetCpu l)) = .brk := by
  rw [installed, at_rom]
  exact (decodeIn_mem hi).trans (by decide)

/-- What an interrupt entry leaves that finds the Reset pending at each of its steps: its pushes store nothing. -/
theorem entered_reset {s : State} {k : Nat} {c : Cpu} {q : Nat → Pending} (hq : ∀ n ≤ 6, q n = .reset) :
    entered (At s k c) q = { afterPpu (k + 6) s with
      pending := .none,
      cpu := { c with
        s := c.s - 3#8, pc := cat (peek s 0xFFFD#16) (peek s 0xFFFC#16), p := { c.p with i := true }, cursor := 6 } } := by
  rw [entered, hq 1 (by omega), hq 2 (by omega), hq 3 (by omega), hq 4 (by omega), hq 5 (by omega), hq 6 (by omega),
    afterPpu_at, peek_at, peek_at, at_ram, ← afterPpu_ram (k + 6) s]
  rfl

/-- Settles O23: FETCH finds the Reset pending, and the entry it installs finds it at each of its steps. -/
theorem resetSequenceFromLaunch : Obligations.ResetSequenceFromLaunch := by
  intro l hi hp
  obtain ⟨hline, hdot, -⟩ := afterPpu_launch l
  refine ⟨?_, afterPpu_ram 7 _, hline, hdot⟩
  have hf : Fetched (At (State.launch l) 1 (resetCpu l)) := ⟨at_halted _ _ _, rfl⟩
  have hq (n : Nat) (hn : n ≤ 6) : (afterPpu n (At (State.launch l) 1 (resetCpu l))).pending = .reset := by
    rw [afterPpu_at, at_pending]
    exact afterPpu_launch_pending l (by omega)
  rw [step_boundary rfl (atBoundary_launch l), fetchCycle_launch hp]
  dsimp only
  rw [installed_reset hi, exec_eq, ownSteps, stepsBrk, seqInt_run hf hp, entered_reset hq]
  -- Both sides hold the same PPU work, which need not be computed.
  generalize afterPpu (1 + 6) (State.launch l) = t
  rfl

end Sys2Proof.Machine
end

section
/-! PROOF. The bus maps (O48, O49) and the bytes that PHA, PHP, JSR and BRK may change (O42). -/

namespace Sys2Proof.Machine

/-! ## The windows of the bus, by the address in integers (20_memory.md R61 to R68) -/

theorem busRead_ram {a : Word} (s : State) (h : a.toNat < 0x2000) :
    busRead a s = .ok (cellRead s.ram (a.toNat % 0x0800), s) := by
  rw [busRead, if_pos h, ramIndex_eq]

theorem busRead_port {a : Word} (s : State) (h : 0x2000 ≤ a.toNat) (h' : a.toNat < 0x4000) :
    busRead a s = .ok (ppuPortRead (a.toNat % 8) s) := by
  rw [busRead, if_neg (by omega), if_pos h', portOf_eq]

theorem busRead_stub {a : Word} (s : State) (h : 0x4000 ≤ a.toNat) (h' : a.toNat ≤ 0x4017) :
    busRead a s = .ok (Config.stubRead s.draws, { s with draws := s.draws + 1 }) := by
  rw [busRead, if_neg (by omega), if_neg (by omega), if_pos h']

theorem busRead_hole {a : Word} (s : State) (h : unmappedRead a) : busRead a s = .error (.busFault a) := by
  obtain ⟨hlo, hhi⟩ := h
  rw [busRead, if_neg (by omega), if_neg (by omega), if_neg (by omega), if_pos hhi]

theorem busRead_prg {a : Word} {s : State} (hsize : isPow2 s.rom.prgSize) (h : 0x8000 ≤ a.toNat) :
    busRead a s = .ok (cellRead s.rom.prg (a.toNat % s.rom.prgSize), s) := by
  rw [busRead, if_neg (by omega), if_neg (by omega), if_neg (by omega), if_neg (by omega), prgIndex, isPow2_and hsize]

theorem busWrite_stub {a : Word} (v : Byte) (s : State) (h : 0x4000 ≤ a.toNat) (h' : a.toNat ≤ 0x4017) :
    busWrite a v s = .ok s := by
  rw [busWrite, if_neg (by omega), if_neg (by omega), if_pos h']

theorem busWrite_unmapped {a : Word} (v : Byte) (s : State) (h : unmappedWrite a) :
    busWrite a v s = .error (.busFault a) := by
  have hlo : 0x4018 ≤ a.toNat := h
  rw [busWrite, if_neg (by omega), if_neg (by omega), if_neg (by omega), ite_self]

/-- Settles O48: one lemma a window, the masks of RAM, ports and PRG being remainders. -/
theorem busReadMap : Obligations.BusReadMap := fun _ s hsize =>
  ⟨busRead_ram s, busRead_port s, fun h h' => ⟨_, _, busRead_stub s h h'⟩, busRead_hole s, busRead_prg hsize⟩

/-- Settles O49: one lemma a window, the hole and PRG faulting alike. -/
theorem busWriteMap : Obligations.BusWriteMap := fun _ v s =>
  ⟨fun h => by rw [busWrite_ram v s h, ramIndex_eq], busWrite_port v s, busWrite_stub v s, busWrite_unmapped v s⟩

/-! ## What a number of pushes changes (20_memory.md R72, 40_sequencer.md R137) -/

/-- `t` comes from `s` by `k` pushes: `S` is `k` lower, RAM has changed at most at the `k` stack bytes from the old `S`
down, and VRAM has not. -/
structure Pushed (k : Nat) (s t : State) : Prop where
  sp : t.cpu.s = s.cpu.s - BitVec.ofNat 8 k
  ram : ∀ j, (∀ i < k, j ≠ (stackAddr (s.cpu.s - BitVec.ofNat 8 i)).toNat) → cellRead t.ram j = cellRead s.ram j
  vram : t.ppu.vram = s.ppu.vram

theorem Pushed.refl (s : State) : Pushed 0 s s := ⟨(BitVec.sub_zero _).symm, fun _ _ => rfl, rfl⟩

/-- Pushes in a row: the later ones start from the `S` that the earlier ones leave. -/
theorem Pushed.trans {k n : Nat} {s t u : State} (h : Pushed k s t) (h' : Pushed n t u) : Pushed (k + n) s u := by
  have hsp (i : Nat) : t.cpu.s - BitVec.ofNat 8 i = s.cpu.s - BitVec.ofNat 8 (k + i) := by
    rw [h.sp, BitVec.sub_sub, BitVec.ofNat_add]
  refine ⟨h'.sp.trans (hsp n), fun j hj => ?_, h'.vram.trans h.vram⟩
  have hlate : cellRead u.ram j = cellRead t.ram j := h'.ram j fun i hi => hsp i ▸ hj (k + i) (by omega)
  exact hlate.trans (h.ram j fun i hi => hj i (by omega))

/-! ## Steps that push, and steps that leave the stack alone -/

/-- An access that takes `k` from `S`: a read, or the write of one push at the top `sp` of the stack. -/
def Access.Pushes (k : Nat) (sp : Byte) : Access → Prop
  | .read _ effect => ∀ v u, (effect v u).1.cpu.s = u.cpu.s - BitVec.ofNat 8 k
  | .write a _ effect => k = 1 ∧ a = stackAddr sp ∧ ∀ u, (effect u).1.cpu.s = u.cpu.s - 1#8
  | .raise _ => True

/-- A step that makes `k` pushes, from every state, and skips nothing. -/
structure StepPushes (k : Nat) (m : MicroStep) : Prop where
  tame : Tame 0 m
  pushes : ∀ s, (m s).Pushes k s.cpu.s

/-- A step that only reads and keeps `S`. -/
theorem stepPushes_of_read {m : MicroStep} (ht : Tame 0 m) (hs : StepHolds Cpu.s m) (hk : ∀ s, (m s).kind = .read) :
    StepPushes 0 m := by
  refine ⟨ht, fun s => ?_⟩
  have hread := hk s
  have hkeep := hs s
  cases hm : m s with
  | read a effect =>
    rw [hm] at hkeep
    exact fun v u => (hkeep v u).trans (BitVec.sub_zero _).symm
  | write | raise => rw [hm] at hread; cases hread

theorem stepPushes_pushStep (value : Cpu → Byte) : StepPushes 1 (pushStep value) :=
  ⟨tame_writeStep fun _ => ⟨rfl, rfl⟩, fun _ => ⟨rfl, rfl, fun _ => rfl⟩⟩

/-- A push of the interrupt entry takes one from `S` whether it writes or, during Reset, reads (60_exceptions.md R350). -/
theorem stepPushes_entryPush {value : Pending → Cpu → Byte} {effect : Cpu → Cpu} (ht : TameCpu effect)
    (hs : ∀ c, (effect c).s = c.s) : StepPushes 1 (entryPush value effect) := by
  refine ⟨tame_entryPush ht, fun s => ?_⟩
  unfold entryPush
  cases s.pending
  case reset => exact fun _ u => hs (decS u.cpu)
  all_goals exact ⟨rfl, rfl, fun u => hs (decS u.cpu)⟩

theorem stepPushes_entryT1 : StepPushes 0 entryT1 := by
  refine stepPushes_of_read (tame_entryT1 0) (fun s v u => ?_) fun _ => rfl
  dsimp only
  cases s.pending <;> rfl

theorem stepPushes_dummyStep (addr : Cpu → Word) : StepPushes 0 (dummyStep addr id) :=
  stepPushes_of_read (tame_dummyStep tameCpu_id) (holds_dummyStep fun _ => rfl) fun _ => rfl

/-- What a system step whose own step makes `k` pushes does. -/
theorem cycle_pushed {k : Nat} {m : MicroStep} {s t : State} (hm : StepPushes k m) (h : cycle m s = .next t) :
    Pushed k s t := by
  obtain ⟨-, w, j, hp, rfl⟩ := cycle_next h
  have hcpu : (ppuShare s).cpu = s.cpu := afterPpu_cpu 1 s
  have hram : (ppuShare s).ram = s.ram := afterPpu_ram 1 s
  obtain ⟨hvram, -⟩ := afterPpu_kept 1 s
  have htame := hm.tame (ppuShare s)
  have hpush := hm.pushes (ppuShare s)
  rcases perform_cases hp with ⟨a, effect, v, u, he, hb, hw⟩ | ⟨a, v, effect, u, he, hb, hw⟩ <;>
    rw [he] at htame hpush
  · obtain ⟨hucpu, -, -, huram, -⟩ := busRead_frame hb
    obtain ⟨huvram, -⟩ := busRead_ppu hb
    obtain rfl : (effect v u).1 = w := by rw [hw]
    obtain ⟨hkeeps, -⟩ := htame v u
    refine ⟨(hpush v u).trans (by rw [hucpu, hcpu]), fun i _ => ?_, ?_⟩
    · rw [advanceCursor_ram, hkeeps.ram, huram, hram]
    · rw [advanceCursor_ppu, hkeeps.ppu, huvram]; exact hvram
  · obtain ⟨rfl, rfl, hs⟩ := hpush
    obtain rfl := Except.ok.inj ((busWrite_stack _ v _).symm.trans hb)
    obtain rfl : (effect _).1 = w := by rw [hw]
    obtain ⟨hkeeps, -⟩ := htame _
    refine ⟨(hs _).trans (by rw [hcpu]), fun i hi => ?_, ?_⟩
    · have hne := hi 0 (by omega)
      rw [BitVec.sub_zero, stackAddr_toNat] at hne
      rw [advanceCursor_ram, hkeeps.ram, hcpu, hram]
      exact cellRead_cellWrite_other _ v hne.symm
    · rw [advanceCursor_ppu, hkeeps.ppu]; exact hvram

/-- A run through the steps `rest` from the cursor on makes at most their pushes. -/
theorem runFrom_pushed {own rest : List MicroStep} {ks : List Nat} (hrest : List.Forall₂ StepPushes ks rest) (n : Nat)
    {s t : State} (hdrop : own.drop s.cpu.cursor = rest) (h : runFrom own n s = .next t) :
    ∃ k ≤ ks.sum, Pushed k s t := by
  induction hrest generalizing n s with
  | nil =>
    rw [runFrom_done n (by rw [← List.head?_drop, hdrop]; rfl)] at h
    cases h
    exact ⟨0, Nat.zero_le _, Pushed.refl _⟩
  | @cons k m ks rest hm _ ih =>
    cases n with
    | zero => cases h; exact ⟨0, Nat.zero_le _, Pushed.refl _⟩
    | succ n =>
      have hstep : own[s.cpu.cursor]? = some m := by rw [← List.head?_drop, hdrop]; rfl
      rw [runFrom, hstep] at h
      dsimp only at h
      split at h
      next u hu =>
        obtain ⟨-, -, -, hge, hle⟩ := cycle_tame hm.tame hu
        have hcursor : u.cpu.cursor = s.cpu.cursor + 1 := by omega
        have hnext : own.drop u.cpu.cursor = rest := by rw [hcursor, ← List.tail_drop, hdrop]; rfl
        obtain ⟨j, hj, hpushed⟩ := ih n hnext h
        exact ⟨k + j, by rw [List.sum_cons]; omega, (cycle_pushed hm hu).trans hpushed⟩
      all_goals cases h

/-! ## The four instructions -/

theorem seqPush_pushes (value : Cpu → Byte) : List.Forall₂ StepPushes [0, 1] (seqPush value) :=
  .cons (stepPushes_dummyStep atPc) (.cons (stepPushes_pushStep value) .nil)

theorem seqJsr_pushes : List.Forall₂ StepPushes [0, 0, 1, 1, 0] seqJsr :=
  .cons (stepPushes_of_read (tame_absT1 0) (holds_absT1 fun _ _ _ _ => rfl) fun _ => rfl)
    (.cons (stepPushes_dummyStep atStack) (.cons (stepPushes_pushStep _) (.cons (stepPushes_pushStep _)
      (.cons (stepPushes_of_read (tame_readStep fun _ _ => ⟨rfl, rfl⟩) (holds_readStep fun _ _ => rfl) fun _ => rfl)
        .nil))))

theorem seqInt_pushes : List.Forall₂ StepPushes [0, 1, 1, 1, 0, 0] seqInt :=
  .cons stepPushes_entryT1 (.cons (stepPushes_entryPush tameCpu_id fun _ => rfl)
    (.cons (stepPushes_entryPush tameCpu_id fun _ => rfl)
      (.cons (stepPushes_entryPush (fun _ => ⟨rfl, rfl⟩) fun _ => rfl)
        (.cons (stepPushes_of_read (tame_entryT5 0) (fun _ _ _ => rfl) fun _ => rfl)
          (.cons (stepPushes_of_read (tame_entryT6 0) (fun _ _ _ => rfl) fun _ => rfl) .nil)))))

/-- An instruction run from its FETCH makes at most the pushes of its steps. -/
theorem exec_pushed {i : Instr} {ks : List Nat} {s t : State} (hi : List.Forall₂ StepPushes ks (ownSteps i))
    (hf : Fetched s) (h : exec i s = .next t) : ∃ k ≤ ks.sum, Pushed k s t := by
  rw [exec_eq, runSteps_running hf.1] at h
  exact runFrom_pushed hi _ (by rw [hf.2, List.drop_zero]) h

/-- The plain bytes that pushes leave: PRG, and RAM but for the mirrors of the pushed stack bytes (20_memory.md R63). -/
theorem Pushed.peek_eq {k : Nat} {s t : State} (h : Pushed k s t) (hrom : t.rom = s.rom) {a : Word}
    (ha : a.toNat < 0x2000 → ∀ i < k, a.toNat % 2048 ≠ (stackAddr (s.cpu.s - BitVec.ofNat 8 i)).toNat) :
    peek t a = peek s a := by
  unfold peek
  split
  next hlt => rw [ramIndex_eq]; exact h.ram _ (ha hlt)
  next => rw [hrom]

/-- Settles O42: the instruction makes at most the pushes of its sequence, 1, 1, 2 and 3. -/
theorem pushesStoreOnlyOnTheStack : Obligations.PushesStoreOnlyOnTheStack := by
  intro i n s t hf hi he
  have hpushed : ∃ k ≤ n, Pushed k s t := by
    rcases hi with ⟨rfl, rfl⟩ | ⟨rfl, rfl⟩ | ⟨rfl, rfl⟩ | ⟨rfl, rfl⟩
    · exact exec_pushed (seqPush_pushes _) hf he
    · exact exec_pushed (seqPush_pushes _) hf he
    · exact exec_pushed seqJsr_pushes hf he
    · exact exec_pushed seqInt_pushes hf he
  obtain ⟨k, hk, h⟩ := hpushed
  obtain ⟨-, hrom, -⟩ := exec_next he
  exact ⟨fun a _ ha => h.peek_eq hrom fun hlt j hj => ha hlt j (by omega), h.vram⟩

end Sys2Proof.Machine
end

section
/-! PROOF. The decoder against the encoder and the table (O1, O2, O3). -/

namespace Sys2Proof

/-! ## One instruction and its opcode byte (30_encoding.md R103, R104) -/

open Laws.RoundTrip in
/-- Each well-formed instruction has an opcode byte, and the decoder reads that byte as the instruction. -/
theorem roundTrip : ∀ i : Instr, Statement i
  | .lda m => lda m | .ldx m => ldx m | .ldy m => ldy m | .sta m => sta m | .stx m => stx m | .sty m => sty m
  | .tax => tax | .tay => tay | .txa => txa | .tya => tya | .tsx => tsx | .txs => txs
  | .adc m => adc m | .sbc m => sbc m | .and m => Laws.RoundTrip.and m | .ora m => ora m | .eor m => eor m
  | .cmp m => cmp m | .cpx m => cpx m | .cpy m => cpy m | .bit m => bit m
  | .asl m => asl m | .lsr m => lsr m | .rol m => rol m | .ror m => ror m | .inc m => inc m | .dec m => dec m
  | .inx => inx | .iny => iny | .dex => dex | .dey => dey
  | .bpl => bpl | .bmi => bmi | .bvc => bvc | .bvs => bvs | .bcc => bcc | .bcs => bcs | .bne => bne | .beq => beq
  | .jmp => jmp | .jsr => jsr | .rts => rts
  | .pha => pha | .pla => pla | .php => php | .plp => plp
  | .clc => clc | .sec => sec | .cli => cli | .sei => sei | .clv => clv | .cld => cld | .sed => sed
  | .nop => nop | .brk => brk | .rti => rti
  | .ill b => ill b

/-! ## Operand bytes (30_encoding.md R100, R110) -/

/-- The decoder splits the bytes after an opcode where the operand bytes of its instruction end. -/
theorem decode_operands {b : Byte} {operands : List Byte} (rest : List Byte)
    (h : operands.length = (decodeOpcode b).operandBytes) :
    decode (b :: (operands ++ rest)) = .ok { instr := decodeOpcode b, operands := operands, rest := rest } := by
  have hlong : ¬ (operands ++ rest).length < operands.length := by rw [List.length_append]; omega
  simp only [decode, ← h, if_neg hlong, List.take_left, List.drop_left]

/-- Settles O1: the instruction's opcode byte decodes to it, and its operand bytes are those the decoder takes. -/
theorem decodeOfEncodeIsTheInstruction : Obligations.DecodeOfEncodeIsTheInstruction := by
  intro i operands rest hw hlen
  obtain ⟨b, hb, rfl⟩ := roundTrip i hw
  rw [encode, hb]
  exact decode_operands rest hlen

/-! ## Every byte (30_encoding.md R103, R104) -/

/-- Each row of the decoder's table is well-formed and has the byte that the encoder gives its instruction. -/
theorem opcodeTable_row : ∀ p ∈ opcodeTable, wellFormed p.2 = true ∧ opcodeOf p.2 = some p.1 := by decide +kernel

/-- The bytes of the table and those of the listing of R104 are the 256 bytes, each once. -/
theorem opcodes_perm_range : ((defaultImplemented ++ illegalBytes).map BitVec.toNat).Perm (List.range 256) := by
  decide +kernel

theorem mem_defaultImplemented_or_illegalBytes (b : Byte) : b ∈ defaultImplemented ∨ b ∈ illegalBytes := by
  obtain ⟨c, hc, hcb⟩ := List.mem_map.1 (opcodes_perm_range.mem_iff.2 (List.mem_range.2 b.isLt))
  obtain rfl : c = b := BitVec.eq_of_toNat_eq hcb
  exact List.mem_append.1 hc

theorem lookup_mem {b : Byte} {i : Instr} (h : opcodeTable.lookup b = some i) : (b, i) ∈ opcodeTable := by
  obtain ⟨l₁, l₂, ht, -⟩ := List.lookup_eq_some_iff.1 h
  rw [ht]
  exact List.mem_append_right l₁ List.mem_cons_self

theorem mem_illegalBytes_of_lookup {b : Byte} (h : opcodeTable.lookup b = none) : b ∈ illegalBytes := by
  refine (mem_defaultImplemented_or_illegalBytes b).resolve_left fun hb => ?_
  obtain ⟨p, hp, rfl⟩ := List.mem_map.1 hb
  simpa using List.lookup_eq_none_iff.1 h p hp

theorem decodeOpcode_illegal {b : Byte} (h : b ∈ illegalBytes) : decodeOpcode b = .ill b := by
  rw [decodeOpcode, Laws.RoundTrip.lookup_illegal (List.contains_iff_mem.2 h)]

/-- What a byte decodes to is well-formed and encodes to the byte: a row of the table, or the illegal row of the byte. -/
theorem decodeOpcode_wellFormed (b : Byte) :
    wellFormed (decodeOpcode b) = true ∧ opcodeOf (decodeOpcode b) = some b := by
  cases h : opcodeTable.lookup b with
  | some i =>
    rw [decodeOpcode, h]
    exact opcodeTable_row (b, i) (lookup_mem h)
  | none =>
    have hill := mem_illegalBytes_of_lookup h
    rw [decodeOpcode_illegal hill]
    exact ⟨List.contains_iff_mem.2 hill, if_pos (List.contains_iff_mem.2 hill)⟩

/-- Settles O2: the byte's row, and an illegal instruction being well-formed only with a byte of the listing. -/
theorem everyByteIsTheOpcodeOfWhatItDecodesTo : Obligations.EveryByteIsTheOpcodeOfWhatItDecodesTo := by
  intro b
  obtain ⟨hw, ho⟩ := decodeOpcode_wellFormed b
  refine ⟨hw, ho, fun h => ?_, decodeOpcode_illegal⟩
  rw [h] at hw
  exact List.contains_iff_mem.1 hw

/-! ## Words of the table (30_encoding.md R101, R103) -/

/-- A word whose bytes begin with an instruction's encoding decodes to that instruction and its operand bytes. -/
theorem wordDecodes_of_encode {nbits w : Nat} {i : Instr} {operands : List Byte} (hw : wellFormed i = true)
    (hlen : operands.length = i.operandBytes) (h : encode i operands <+: tableBytes nbits w) :
    Machine.WordDecodes nbits w i operands := by
  obtain ⟨rest, hrest⟩ := h
  have hd := decodeOfEncodeIsTheInstruction i operands rest hw hlen
  rw [hrest] at hd
  rw [Machine.WordDecodes, decodeTableWord, hd]
  exact ⟨rfl, rfl⟩

/-- Settles O3: each of the thirty words begins with its instruction's encoding. -/
theorem tableWordsDecode : Obligations.TableWordsDecode := by
  unfold Obligations.TableWordsDecode
  iterate 29 refine ⟨wordDecodes_of_encode rfl rfl (by decide), ?_⟩
  exact wordDecodes_of_encode rfl rfl (by decide)

end Sys2Proof
end

section
/-! PROOF. The illegal instruction (O20) and the two fatals of FETCH (O28). -/

namespace Sys2Proof.Machine

/-- Settles O20: its only step raises the fault. -/
theorem illegalInstructionStops : Obligations.IllegalInstructionStops := by
  intro b s hf
  rw [exec_eq]
  exact seqIll_run b hf

/-- A byte that is not implemented installs the illegal instruction (30_encoding.md R104, R108). -/
theorem installed_fetched_of_not_mem {s : State} {b : Byte} (h : b ∉ s.rom.implemented) :
    installed (fetched b s) = .ill b :=
  decodeIn_not_mem h

/-- Settles O28: FETCH installs the illegal instruction, which stops, or its own read of the bus faults. -/
theorem fetchFatals : Obligations.FetchFatals := by
  refine ⟨fun s t b hh hat hq hb hmem => ?_, fun s hh hat hun => ?_⟩
  · obtain ⟨-, -, hhalt, -, hrom⟩ := busRead_frame hb
    rw [afterPpu_halted, hh] at hhalt
    rw [afterPpu_rom] at hrom
    rw [step_boundary hh hat, fetchCycle_fetched hh hq hb]
    dsimp only
    rw [installed_fetched_of_not_mem (hrom ▸ hmem)]
    exact illegalInstructionStops b (fetched b t) ⟨hhalt, rfl⟩
  · rw [step_boundary hh hat, fetchCycle_error hh (busRead_hole _ hun)]

end Sys2Proof.Machine
end

section
/-! PROOF. The sequencer: the accumulator forms of the shifts (O10), the instruction that FETCH installs (O26, O27), the
dummy read of an indexed store (O59) and the bus patterns (O45). -/

namespace Sys2Proof.Machine

/-! ## The accumulator forms (40_sequencer.md R141) -/

/-- The accumulator form of a class M instruction completes with its hook, under any equal form of the hook. -/
theorem accumulatorCompletes_of {i : Instr} {f : Modify} {g : Byte → Flags → Byte × Flags} (hs : ownSteps i = seqAcc f)
    (hg : ∀ v p, f v p = g v p) : ImpliedCompletes i (onA g) := by
  obtain rfl : f = g := funext₂ hg
  exact impliedCompletes_of (e := modifyA f) hs rfl fun _ => ⟨rfl, rfl, rfl⟩

/-- Settles O10: each shift's hook is the integer form of its rule. -/
theorem accumulatorShiftsComplete : Obligations.AccumulatorShiftsComplete :=
  ⟨accumulatorCompletes_of rfl aslModify_eq, accumulatorCompletes_of rfl lsrModify_eq,
    accumulatorCompletes_of rfl rolModify_eq, accumulatorCompletes_of rfl rorModify_eq⟩

/-! ## The instruction that FETCH installs (40_sequencer.md R132, R133) -/

/-- The instruction that an implemented byte decodes to is the one it installs, whatever bytes follow it. -/
theorem installed_fetched_of_decode {s : State} {b : Byte} {more : List Byte} {d : Decoded}
    (hb : b ∈ s.rom.implemented) (hd : decode (b :: more) = .ok d) : installed (fetched b s) = d.instr :=
  (decodeIn_mem hb).trans (decode_instr hd).symm

/-- The forced byte 0x00 installs the interrupt sequence (30_encoding.md R105). -/
theorem installed_fetchedInterrupt {s : State} (hb : 0x00#8 ∈ s.rom.implemented) :
    installed (fetchedInterrupt s) = .brk :=
  (decodeIn_mem hb).trans (by decide)

/-- The read of FETCH keeps the launch constants. -/
theorem fetchRead_rom {s t : State} {b : Byte} (h : busRead s.cpu.pc (afterPpu 1 s) = .ok (b, t)) : t.rom = s.rom := by
  obtain ⟨-, -, -, -, hrom⟩ := busRead_frame h
  rw [hrom, afterPpu_rom]

/-- Settles O26: FETCH installs the byte it reads, and with it the instruction that byte decodes to. -/
theorem stepRunsTheDecodedInstruction : Obligations.StepRunsTheDecodedInstruction := by
  intro s t b more d hh hat hq hread hmem hd
  rw [← fetchRead_rom hread] at hmem
  rw [step_boundary hh hat, fetchCycle_fetched hh hq hread]
  dsimp only
  rw [installed_fetched_of_decode hmem hd]

/-- Settles O27: FETCH installs the forced byte and keeps `PC`, whichever byte it reads. -/
theorem stepTakesThePendingInterrupt : Obligations.StepTakesThePendingInterrupt := by
  intro s t b hh hat hq hread hmem
  rw [← fetchRead_rom hread] at hmem
  rw [step_boundary hh hat, fetchCycle_interrupt hh hq hread]
  dsimp only
  rw [installed_fetchedInterrupt hmem]

/-! ## The dummy read of an indexed store, at any readable address (40_sequencer.md R153, R156, R159) -/

variable {own : List MicroStep} {s t u : State} {n : Nat} {v : Byte} {a : Word}

theorem abiWrite_prefix_read {idx : Cpu → Byte} (hi : IndexHook idx) (h0 : own[0]? = some absT1)
    (h1 : own[1]? = some (abiWriteT2 idx)) (h2 : own[2]? = some (writeDummy idx)) (hh : s.halted = none)
    (hp0 : plain s.cpu.pc = true) (hp1 : plain (s.cpu.pc + 1#16) = true)
    (hr : busRead (uncorrected (absOperand s) (idx s.cpu)) (afterPpu 3 s) = .ok (v, u)) :
    ∃ l, cat l.hi l.lo = indexed (absOperand s) (idx s.cpu) ∧
      runFrom own (n + 3) (start s) = runFrom own n (At u 0 (s.cpu.past 2 l 3)) := by
  rw [absOperand, uncorrected_cat] at hr
  refine ⟨⟨operand1 s + idx s.cpu, _, s.cpu.latch.data⟩, carried_eq (h := operand2 s), ?_⟩
  rw [← past_two]
  exact (absT1_run h0 hh hp0).trans ((abiWriteT2_run hi h1 hh hp1).trans (writeDummy_read hi h2 hh hr))

theorem izyWrite_prefix_read (h0 : own[0]? = some izyT1) (h1 : own[1]? = some izyT2) (h2 : own[2]? = some izyWriteT3)
    (h3 : own[3]? = some (writeDummy Cpu.y)) (hh : s.halted = none) (hp : plain s.cpu.pc = true)
    (hr : busRead (uncorrected (pointer s) s.cpu.y) (afterPpu 4 s) = .ok (v, u)) :
    ∃ l, cat l.hi l.lo = indexed (pointer s) s.cpu.y ∧
      runFrom own (n + 4) (start s) = runFrom own n (At u 0 (s.cpu.past 1 l 4)) := by
  rw [pointer, uncorrected_cat] at hr
  exact ⟨⟨peek s (zeroPage (operand1 s)) + s.cpu.y, _, operand1 s⟩,
    carried_eq (h := peek s (zeroPage (operand1 s + 1#8))), (izyT1_run h0 hh hp).trans ((izyT2_run h1 hh).trans
      ((izyWriteT3_run h2 hh).trans (writeDummy_read indexHook_y h3 hh hr)))⟩

/-- An indexed store, where its operand bytes are plain and its dummy read is answered: the write starts, one tick later, from
the state that the dummy read left. -/
theorem seqWrite_run_of_storeDummy {value : Cpu → Byte} (hv : ValueHook value) (m : WMode) (hf : Fetched s)
    (hp0 : plain s.cpu.pc = true) (hp1 : m ≠ .izy → plain (s.cpu.pc + 1#16) = true) (hd : storeDummy m s = some a)
    (hr : busRead a (afterPpu (writeTicks m - 1) s) = .ok (v, u))
    (hw : busWrite (writeEa m s) (value s.cpu) (afterPpu 1 u) = .ok t) :
    ∃ l, runSteps (seqWrite m value) s = .next
      { t with cpu := s.cpu.past m.format.operandBytes l (seqWrite m value).length } := by
  have hh := hf.1
  have hu := halted_of_busRead hh hr
  rw [runSteps_start hf]
  cases m
  case zp | zpx | zpy | abs => cases hd
  case abx =>
    cases hd
    obtain ⟨l, hl, hrun⟩ := abiWrite_prefix_read (own := seqAbiW Cpu.x value) (n := 1) indexHook_x rfl rfl rfl hh hp0
      (hp1 nofun) hr
    exact ⟨l, hrun.trans (writeStep_end hv rfl rfl hu hl hw)⟩
  case aby =>
    cases hd
    obtain ⟨l, hl, hrun⟩ := abiWrite_prefix_read (own := seqAbiW Cpu.y value) (n := 1) indexHook_y rfl rfl rfl hh hp0
      (hp1 nofun) hr
    exact ⟨l, hrun.trans (writeStep_end hv rfl rfl hu hl hw)⟩
  case izy =>
    cases hd
    obtain ⟨l, hl, hrun⟩ := izyWrite_prefix_read (own := seqIzyW value) (n := 1) rfl rfl rfl rfl hh hp0 hr
    exact ⟨l, hrun.trans (writeStep_end hv rfl rfl hu hl hw)⟩

/-- A read of a mirror of port 2 answers the status byte, clears `vblank` and resets `wlatch` (48_ppu.md R317). -/
theorem busRead_status (s : State) (h : 0x2000 ≤ a.toNat) (h' : a.toNat < 0x4000) (hport : a.toNat % 8 = 2) :
    busRead a s = .ok (ppuStatus s.ppu, { s with ppu := { s.ppu with vblank := false, wlatch := .first } }) := by
  rw [busRead_port s h h', hport, ppuPortRead, if_pos rfl, ppuStatusRead]

/-- Settles O59: the dummy read is answered by port 2, and the write starts from what that read left. -/
theorem indexedStoreDummyReadTouchesTheStatusPort : Obligations.IndexedStoreDummyReadTouchesTheStatusPort := by
  intro m s t a hf hp0 hp1 hd h h' hport hw
  obtain ⟨l, hrun⟩ := seqWrite_run_of_storeDummy (value := Cpu.a) (fun _ _ _ _ => rfl) m hf hp0 hp1 hd
    (busRead_status _ h h' hport) hw
  exact ⟨l, (exec_eq (.sta m) s).trans hrun⟩

/-! ## The bus patterns (40_sequencer.md R157) -/

/-- Settles O45: the pattern of each sequence, and the bound on its length. -/
theorem sequencesHaveTheirBusPatterns : Obligations.SequencesHaveTheirBusPatterns :=
  fun i s => ⟨ownSteps_kinds i s, ownSteps_length_le i⟩

end Sys2Proof.Machine
end

section
/-! PROOF. Loads, stores, transfers and register counts (O4, O8, O11), and the one byte of RAM that a store changes (O40). -/

namespace Sys2Proof.Machine

/-! ## Completion: each hook is its rule, up to the integer form of the flags and counts -/

/-- Settles O4: each load is class R, and its hook writes one register and the two flags of that byte. -/
theorem loadsComplete : Obligations.LoadsComplete := by
  unfold Obligations.LoadsComplete
  simp only [← setNZ_eq]
  exact ⟨readCompletes_of (e := ldaExec) (fun _ => rfl) (fun _ => rfl) (fun _ _ _ _ _ => rfl) rfl fun _ _ => rfl,
    readCompletes_of (e := ldxExec) (fun _ => rfl) (fun _ => rfl) (fun _ _ _ _ _ => rfl) rfl fun _ _ => rfl,
    readCompletes_of (e := ldyExec) (fun _ => rfl) (fun _ => rfl) (fun _ _ _ _ _ => rfl) rfl fun _ _ => rfl⟩

/-- Settles O8: each store is class W, and its value is one register. -/
theorem storesComplete : Obligations.StoresComplete :=
  ⟨writeCompletes_of (fun _ => rfl) (fun _ => rfl) fun _ _ _ _ => rfl,
    writeCompletes_of (fun _ => rfl) (fun _ => rfl) fun _ _ _ _ => rfl,
    writeCompletes_of (fun _ => rfl) (fun _ => rfl) fun _ _ _ _ => rfl⟩

/-- Settles O11: each is `SEQ_IMP`, and a count is a sum modulo 256. -/
theorem transfersAndCountsComplete : Obligations.TransfersAndCountsComplete := by
  unfold Obligations.TransfersAndCountsComplete
  simp only [← setNZ_eq, ← add_one_eq, ← sub_one_eq]
  exact ⟨impliedCompletes_of (e := taxExec) rfl rfl fun _ => ⟨rfl, rfl, rfl⟩,
    impliedCompletes_of (e := tayExec) rfl rfl fun _ => ⟨rfl, rfl, rfl⟩,
    impliedCompletes_of (e := txaExec) rfl rfl fun _ => ⟨rfl, rfl, rfl⟩,
    impliedCompletes_of (e := tyaExec) rfl rfl fun _ => ⟨rfl, rfl, rfl⟩,
    impliedCompletes_of (e := tsxExec) rfl rfl fun _ => ⟨rfl, rfl, rfl⟩,
    impliedCompletes_of (e := txsExec) rfl rfl fun _ => ⟨rfl, rfl, rfl⟩,
    impliedCompletes_of (e := inxExec) rfl rfl fun _ => ⟨rfl, rfl, rfl⟩,
    impliedCompletes_of (e := inyExec) rfl rfl fun _ => ⟨rfl, rfl, rfl⟩,
    impliedCompletes_of (e := dexExec) rfl rfl fun _ => ⟨rfl, rfl, rfl⟩,
    impliedCompletes_of (e := deyExec) rfl rfl fun _ => ⟨rfl, rfl, rfl⟩⟩

/-! ## One byte of RAM written, seen from the bus (20_memory.md R63) -/

variable {s t : State} {a ea : Word} {v : Byte}

/-- The address written and its mirrors read as the new byte. -/
theorem peek_mirror_of_ram_eq (hwf : s.ram.wf) (hram : t.ram = cellWrite s.ram (ramIndex ea) v) (ha : a.toNat < 0x2000)
    (hmod : a.toNat % 2048 = ea.toNat % 2048) : peek t a = v := by
  rw [peek, if_pos ha, hram, ramIndex_eq a, hmod, ← ramIndex_eq ea, cellRead_cellWrite_same _ _ hwf]

/-- Every byte of RAM but the mirrors of the address written, and all of PRG, read as before. -/
theorem peek_other_of_ram_eq (hram : t.ram = cellWrite s.ram (ramIndex ea) v) (hrom : t.rom = s.rom)
    (hmod : a.toNat < 0x2000 → a.toNat % 2048 ≠ ea.toNat % 2048) : peek t a = peek s a := by
  unfold peek
  split
  next hlt =>
    have hne : ramIndex ea ≠ ramIndex a := by rw [ramIndex_eq, ramIndex_eq]; exact (hmod hlt).symm
    rw [hram, cellRead_cellWrite_other _ _ hne]
  next => rw [hrom]

/-- A class W instruction that stores to RAM writes its value there, and neither PRG nor VRAM. -/
theorem exec_seqWrite_memories {i : Instr} {value : Cpu → Byte} {m : WMode} (hs : ownSteps i = seqWrite m value)
    (hv : ValueHook value) (hf : Fetched s) (hp : ∀ a ∈ writeAddrs m s, plain a = true)
    (hea : (writeEa m s).toNat < 0x2000) (h : exec i s = .next t) :
    t.ram = cellWrite s.ram (ramIndex (writeEa m s)) (value s.cpu) ∧ t.rom = s.rom ∧ t.ppu.vram = s.ppu.vram := by
  obtain ⟨l, hrun⟩ := seqWrite_run hv m hf hp (busWrite_ram _ _ hea)
  obtain ⟨hvram, -⟩ := afterPpu_kept (writeTicks m) s
  rw [exec_eq, hs, hrun] at h
  cases h
  exact ⟨by rw [afterPpu_ram], afterPpu_rom _ s, hvram⟩

/-- Settles O40: the store writes one cell of RAM, which the bus shows at the effective address and its mirrors. -/
theorem storesToRamChangeOneByte : Obligations.StoresToRamChangeOneByte := by
  intro i value m s t hi hf hwf hp hea h
  obtain ⟨hs, hv⟩ : ownSteps (i m) = seqWrite m value ∧ ValueHook value := by
    obtain ⟨rfl, rfl⟩ | ⟨rfl, rfl⟩ | ⟨rfl, rfl⟩ := hi <;> exact ⟨rfl, fun _ _ _ _ => rfl⟩
  obtain ⟨hram, hrom, hvram⟩ := exec_seqWrite_memories hs hv hf hp hea h
  exact ⟨fun a => peek_mirror_of_ram_eq hwf hram, fun a _ => peek_other_of_ram_eq hram hrom, hvram⟩

end Sys2Proof.Machine
end

section
/-! PROOF. Arithmetic and logic: the class R instructions of 42_arith_logic.md (O5, O6, O7) and the adder (O46). -/

namespace Sys2Proof.Machine

/-! ## The adder (42_arith_logic.md R220) -/

/-- The overflow is the formula of R220 on the operands and the result. -/
theorem add8_ovf_iff (a m : Byte) (cin : Bool) :
    (add8 a m cin).ovf = true ↔ (~~~(a ^^^ m)) &&& (a ^^^ (add8 a m cin).r) &&& 0x80#8 ≠ 0x00#8 :=
  bne_iff_ne

/-- Settles O46: the result modulo 256, the carry, the overflow formula and its signed meaning, then the two vectors. -/
theorem adderIsTheNineBitSum : Obligations.AdderIsTheNineBitSum := by
  refine ⟨fun a m cin => ⟨?_, ?_, add8_ovf_iff a m cin, ?_⟩, by decide, by decide⟩
  · rw [add8_r, BitVec.toNat_ofNat]
  · rw [add8_cout, decide_eq_true_iff]
  · rw [add8_ovf, outOfByte, decide_eq_true_iff]

/-! ## Logic (R223, R224, R225) -/

/-- A class R instruction whose hook writes the result of `op` on `A` and the operand to `A`, and its `N` and `Z`,
completes so. -/
theorem logicCompletes_of {i : RMode → Instr} {op : Byte → Byte → Byte}
    (hs : ∀ m, ownSteps (i m) = seqRead m fun v c => { c with a := op c.a v, p := setNZ (op c.a v) c.p })
    (hf : ∀ m, (i m).operandBytes = m.format.operandBytes) :
    ReadCompletes i fun v c => { c with a := op c.a v, p := nzFlags (op c.a v) c.p } := by
  simp only [← setNZ_eq]
  exact readCompletes_of hs hf (fun _ _ _ _ _ => rfl) rfl fun _ _ => rfl

/-- Settles O5: the three hooks differ only in their bitwise operation. -/
theorem logicCompletes : Obligations.LogicCompletes :=
  ⟨logicCompletes_of (op := (· &&& ·)) (fun _ => rfl) fun _ => rfl,
    logicCompletes_of (op := (· ||| ·)) (fun _ => rfl) fun _ => rfl,
    logicCompletes_of (op := (· ^^^ ·)) (fun _ => rfl) fun _ => rfl⟩

/-! ## Add and subtract (R221, R222) -/

/-- Settles O6: the hooks are integer arithmetic, SBC as the sum of `A`, the complement `255 - v` and the carry. -/
theorem addAndSubtractComplete : Obligations.AddAndSubtractComplete :=
  ⟨readCompletes_of (fun _ => rfl) (fun _ => rfl) (fun _ _ _ _ _ => rfl) adcExec_eq fun _ _ => rfl,
    readCompletes_of (fun _ => rfl) (fun _ => rfl) (fun _ _ _ _ _ => rfl) sbcExec_eq fun _ _ => rfl⟩

/-! ## Compare and bit test (R226 to R230) -/

/-- A class R instruction whose hook writes no more than the flags, as a function of one register, the operand and the
flags, completes so, under any equal form of that function. -/
theorem flagsOnlyCompletes_of {i : RMode → Instr} {reg : Cpu → Byte} {f g : Byte → Byte → Flags → Flags}
    (hs : ∀ m, ownSteps (i m) = seqRead m fun v c => { c with p := f (reg c) v c.p })
    (hf : ∀ m, (i m).operandBytes = m.format.operandBytes) (hreg : IndexHook reg)
    (hg : ∀ r v p, f r v p = g r v p) : ReadCompletes i fun v c => { c with p := g (reg c) v c.p } := by
  simp only [← hg]
  refine readCompletes_of hs hf (fun v c pc l j => ?_) rfl fun _ _ => rfl
  rw [hreg]
  rfl

/-- `BIT` (R230) in integers: `Z` of the bitwise and, `N` and `V` the two high bits of the operand. -/
def bitSpec (a v : Byte) (p : Flags) : Flags :=
  { p with z := decide (a &&& v = 0x00#8), n := decide (128 ≤ v.toNat), v := decide (64 ≤ v.toNat % 128) }

theorem bitFlags_eq (a v : Byte) (p : Flags) : bitFlags a v p = bitSpec a v p := by
  rw [bitFlags, bitSpec, bit7_eq, bit6_eq, beq_eq_decide]

/-- Settles O7: the compares differ only in their register, and BIT tests `A`. -/
theorem comparesAndBitTestComplete : Obligations.ComparesAndBitTestComplete :=
  ⟨flagsOnlyCompletes_of (reg := Cpu.a) (fun _ => rfl) (fun _ => rfl) (fun _ _ _ _ => rfl) compareFlags_eq,
    flagsOnlyCompletes_of (fun _ => rfl) (fun _ => rfl) indexHook_x compareFlags_eq,
    flagsOnlyCompletes_of (fun _ => rfl) (fun _ => rfl) indexHook_y compareFlags_eq,
    flagsOnlyCompletes_of (reg := Cpu.a) (g := bitSpec) (fun _ => rfl) (fun _ => rfl) (fun _ _ _ _ => rfl) bitFlags_eq⟩

end Sys2Proof.Machine
end

section
/-! PROOF. The memory forms of the shifts, INC and DEC (O9), and the one byte of RAM that each changes (O41). -/

namespace Sys2Proof.Machine

/-! ## Each is class M, with the integer form of its rule as the hook (43_shift_incdec.md R240 to R245) -/

theorem ownSteps_asl (m : MMode) : ownSteps (.asl m) = seqModify m aslSpec :=
  congrArg (seqModify m) (funext₂ aslModify_eq)

theorem ownSteps_lsr (m : MMode) : ownSteps (.lsr m) = seqModify m lsrSpec :=
  congrArg (seqModify m) (funext₂ lsrModify_eq)

theorem ownSteps_rol (m : MMode) : ownSteps (.rol m) = seqModify m rolSpec :=
  congrArg (seqModify m) (funext₂ rolModify_eq)

theorem ownSteps_ror (m : MMode) : ownSteps (.ror m) = seqModify m rorSpec :=
  congrArg (seqModify m) (funext₂ rorModify_eq)

theorem ownSteps_inc (m : MMode) : ownSteps (.inc m) = seqModify m incSpec :=
  congrArg (seqModify m) (funext₂ incModify_eq)

theorem ownSteps_dec (m : MMode) : ownSteps (.dec m) = seqModify m decSpec :=
  congrArg (seqModify m) (funext₂ decModify_eq)

/-- Settles O9: each is class M with its rule's hook. -/
theorem memoryModifiesComplete : Obligations.MemoryModifiesComplete :=
  ⟨modifyCompletes_of ownSteps_asl (fun _ => rfl) rfl, modifyCompletes_of ownSteps_lsr (fun _ => rfl) rfl,
    modifyCompletes_of ownSteps_rol (fun _ => rfl) rfl, modifyCompletes_of ownSteps_ror (fun _ => rfl) rfl,
    modifyCompletes_of ownSteps_inc (fun _ => rfl) rfl, modifyCompletes_of ownSteps_dec (fun _ => rfl) rfl⟩

/-! ## A class M instruction on a byte of RAM (40_sequencer.md R145) -/

/-- Writing back the cell that was read changes nothing, as canonical memories that read the same are the same. -/
theorem cellWrite_cellRead {w : Nat} {m : List (Nat × BitVec w)} (k : Nat) (h : cellsWf m) :
    cellWrite m k (cellRead m k) = m := by
  refine cells_ext (cellWrite_wf _ _ h) h fun j => ?_
  by_cases hj : k = j
  · rw [← hj, cellRead_cellWrite_same _ _ h]
  · rw [cellRead_cellWrite_other _ _ hj]

variable {s t : State} {a : Word}

theorem peek_ram (s : State) (h : a.toNat < 0x2000) : peek s a = cellRead s.ram (ramIndex a) := if_pos h

theorem plain_of_lt (h : a.toNat < 0x2000) : plain a = true := plain_iff.2 (.inl h)

/-- A class M instruction on a byte of RAM writes the new byte there, and neither PRG nor VRAM: its first write leaves RAM as
it was. -/
theorem exec_seqModify_memories {i : Instr} {f : Modify} {m : MMode} (hs : ownSteps i = seqModify m f) (hacc : m ≠ .acc)
    (hf : Fetched s) (hwf : s.ram.wf) (hp : ∀ a ∈ modifyAddrs m s, plain a = true)
    (hea : (modifyEa m s).toNat < 0x2000) (h : exec i s = .next t) :
    t.ram = cellWrite s.ram (ramIndex (modifyEa m s)) (f (peek s (modifyEa m s)) s.cpu.p).1 ∧ t.rom = s.rom ∧
      t.ppu.vram = s.ppu.vram := by
  obtain ⟨l, hrun⟩ := seqModify_run (modify := f) m hacc hf hp (busRead_plain _ (plain_of_lt hea)) (busWrite_ram _ _ hea)
    (busWrite_ram _ _ hea)
  have hpeek : peek (afterPpu (modifyTicks m) s) (modifyEa m s) = peek s (modifyEa m s) :=
    peek_congr (afterPpu_ram _ s) (afterPpu_rom _ s) _
  have hback : cellWrite s.ram (ramIndex (modifyEa m s)) (peek s (modifyEa m s)) = s.ram := by
    rw [peek_ram s hea, cellWrite_cellRead _ hwf]
  have hvram (n : Nat) (u : State) : (afterPpu n u).ppu.vram = u.ppu.vram := (afterPpu_kept n u).1
  rw [exec_eq, hs, hrun] at h
  cases h
  simp only [hpeek, hback, hvram, afterPpu_ram, afterPpu_rom, and_self]

/-- Settles O41: the instruction writes one cell of RAM, which the bus shows at the effective address and its mirrors. -/
theorem modifiesOfRamChangeOneByte : Obligations.ModifiesOfRamChangeOneByte := by
  intro i f m s t hi hacc hf hwf hp hea h
  have hs : ownSteps (i m) = seqModify m f := by
    obtain ⟨rfl, rfl⟩ | ⟨rfl, rfl⟩ | ⟨rfl, rfl⟩ | ⟨rfl, rfl⟩ | ⟨rfl, rfl⟩ | ⟨rfl, rfl⟩ := hi
    · exact ownSteps_asl m
    · exact ownSteps_lsr m
    · exact ownSteps_rol m
    · exact ownSteps_ror m
    · exact ownSteps_inc m
    · exact ownSteps_dec m
  obtain ⟨hram, hrom, hvram⟩ := exec_seqModify_memories hs hacc hf hwf hp hea h
  exact ⟨fun a => peek_mirror_of_ram_eq hwf hram, fun a _ => peek_other_of_ram_eq hram hrom, hvram⟩

end Sys2Proof.Machine
end

section
/-! PROOF. Branches, jump, call and return (O13 to O16), and that a return undoes a call (O25). -/

namespace Sys2Proof.Machine

/-! ## Each completes as its own steps do (44_branch_jump.md R260 to R271) -/

/-- Settles O13: each is `SEQ_REL` under its own condition. -/
theorem branchesComplete : Obligations.BranchesComplete :=
  ⟨branchCompletes_of rfl, branchCompletes_of rfl, branchCompletes_of rfl, branchCompletes_of rfl,
    branchCompletes_of rfl, branchCompletes_of rfl, branchCompletes_of rfl, branchCompletes_of rfl⟩

/-- Settles O14: its own steps are `SEQ_JMP`. -/
theorem jumpCompletes : Obligations.JumpCompletes := by
  intro s hf hp0 hp1
  rw [exec_eq]
  exact seqJmp_run hf hp0 hp1

/-- Settles O15: its own steps are `SEQ_JSR`. -/
theorem callCompletes : Obligations.CallCompletes := by
  intro s hf hp0 hp1
  rw [exec_eq]
  exact seqJsr_run hf hp0 hp1

/-- Settles O16: its own steps are `SEQ_RTS`. -/
theorem returnCompletes : Obligations.ReturnCompletes := by
  intro s t v hf hp hb
  rw [exec_eq]
  exact seqRts_run hf hp hb

/-! ## The return address (R270, R271) -/

theorem cellRead_stackWrite_same {m : Memory} (sp v : Byte) (h : m.wf) :
    cellRead (stackWrite m sp v) (0x100 + sp.toNat) = v := cellRead_cellWrite_same _ v h

theorem cellRead_stackWrite_other (m : Memory) {sp sq : Byte} (v : Byte) (h : sp ≠ sq) :
    cellRead (stackWrite m sp v) (0x100 + sq.toNat) = cellRead m (0x100 + sq.toNat) :=
  cellRead_cellWrite_other m v fun he => h (BitVec.eq_of_toNat_eq (Nat.add_left_cancel he))

/-- What a call pushed, a return pulls: the second push does not touch the byte of the first. -/
theorem returnAddr_of_callRam {s u : State} (hwf : s.ram.wf) (hram : u.ram = callRam s)
    (hs : u.cpu.s = s.cpu.s - 2#8) : returnAddr u = s.cpu.pc + 1#16 := by
  have h1 : u.cpu.s + 1#8 = s.cpu.s - 1#8 := by rw [hs]; bv_omega
  have h2 : u.cpu.s + 2#8 = s.cpu.s := by rw [hs, BitVec.sub_add_cancel]
  have hne : s.cpu.s - 1#8 ≠ s.cpu.s := by bv_omega
  have hlo : stackByte u (s.cpu.s - 1#8) = lo8 (s.cpu.pc + 1#16) := by
    rw [stackByte, hram, callRam]
    exact cellRead_stackWrite_same _ _ (cellWrite_wf _ _ hwf)
  have hhi : stackByte u s.cpu.s = hi8 (s.cpu.pc + 1#16) := by
    rw [stackByte, hram, callRam, cellRead_stackWrite_other _ _ hne, cellRead_stackWrite_same _ _ hwf]
  rw [returnAddr, h1, h2, hlo, hhi, cat_hi8_lo8]

/-- Settles O25: RTS pulls the address of JSR's third byte, a byte that JSR fetched, and goes to the one after it. -/
theorem returnUndoesCall : Obligations.ReturnUndoesCall := by
  intro s t u hf hwf hp0 hp1 hcall hfu hram hsp hpu
  obtain ⟨l, hjsr⟩ := callCompletes s hf hp0 hp1
  cases hjsr.symm.trans hcall
  have hsp2 : u.cpu.s = s.cpu.s - 2#8 := hsp
  have hret : returnAddr u = s.cpu.pc + 1#16 := returnAddr_of_callRam hwf hram hsp2
  have hread : plain (returnAddr u) = true := by rw [hret]; exact hp1
  have hpc : s.cpu.pc + 1#16 + 1#16 = s.cpu.pc + 2#16 := by rw [BitVec.add_assoc]; rfl
  rw [returnCompletes u _ _ hfu hpu (busRead_plain _ hread), hret, hpc, hsp2, BitVec.sub_add_cancel]

end Sys2Proof.Machine
end

section
/-! PROOF. Stack, flag and system instructions: flags and NOP (O12), the stack (O17), RTI (O18), BRK (O19), and that RTI
undoes BRK (O24). -/

namespace Sys2Proof.Machine

/-! ## Each completes as its own steps do (45_stack_flag_system.md R280 to R293) -/

/-- Settles O12: each is `SEQ_IMP`, with its rule's one flag, or nothing, as the effect. -/
theorem flagInstructionsAndNopComplete : Obligations.FlagInstructionsAndNopComplete :=
  ⟨impliedCompletes_of (e := clcExec) rfl rfl fun _ => ⟨rfl, rfl, rfl⟩,
    impliedCompletes_of (e := secExec) rfl rfl fun _ => ⟨rfl, rfl, rfl⟩,
    impliedCompletes_of (e := cliExec) rfl rfl fun _ => ⟨rfl, rfl, rfl⟩,
    impliedCompletes_of (e := seiExec) rfl rfl fun _ => ⟨rfl, rfl, rfl⟩,
    impliedCompletes_of (e := clvExec) rfl rfl fun _ => ⟨rfl, rfl, rfl⟩,
    impliedCompletes_of (e := cldExec) rfl rfl fun _ => ⟨rfl, rfl, rfl⟩,
    impliedCompletes_of (e := sedExec) rfl rfl fun _ => ⟨rfl, rfl, rfl⟩,
    impliedCompletes_of (e := nopExec) rfl rfl fun _ => ⟨rfl, rfl, rfl⟩⟩

/-- Settles O17: `SEQ_PUSH` of `A` and of the status byte, `SEQ_PULL` into `A` and into the flags. -/
theorem stackInstructionsComplete : Obligations.StackInstructionsComplete := by
  intro s hf hp
  simp only [exec_eq, ← setNZ_eq, ← group_php]
  exact ⟨seqPush_run (fun _ _ => rfl) hf hp, seqPush_run (value := fun c => group .php c.p) (fun _ _ => rfl) hf hp,
    seqPull_run (effect := fun v c => { c with a := v, p := setNZ v c.p }) (fun _ _ _ => rfl) hf hp,
    seqPull_run (effect := fun v c => { c with p := ungroup v }) (fun _ _ _ => rfl) hf hp⟩

/-- Settles O18: its own steps are `SEQ_RTI`. -/
theorem returnFromInterruptCompletes : Obligations.ReturnFromInterruptCompletes := by
  intro s hf hp
  rw [exec_eq]
  exact seqRti_run hf hp

/-! ## The software break (R292, 60_exceptions.md R350) -/

/-- A software break pushes the status byte of PHP: bit 4 set (10_state.md R24). -/
theorem group_softBreak (p : Flags) : group .softBreak p = group .hardware p ||| 0x10#8 := group_php p

/-- An entry that finds nothing pending at any of its steps is the software break's (10_state.md R27). -/
theorem entered_none {s : State} {q : Nat → Pending} (hq : ∀ n ≤ 6, q n = .none) :
    entered s q = { afterPpu 6 s with
      pending := .none,
      ram := stackWrite (stackWrite (stackWrite s.ram s.cpu.s (hi8 (s.cpu.pc + 1#16))) (s.cpu.s - 1#8)
        (lo8 (s.cpu.pc + 1#16))) (s.cpu.s - 2#8) (group .softBreak s.cpu.p),
      cpu := { s.cpu with
        s := s.cpu.s - 3#8, p := { s.cpu.p with i := true }, pc := cat (peek s 0xFFFF#16) (peek s 0xFFFE#16),
        cursor := 6 } } := by
  rw [entered, hq 1 (by omega), hq 2 (by omega), hq 3 (by omega), hq 4 (by omega), hq 5 (by omega), hq 6 (by omega)]
  rfl

/-- Settles O19: nothing pending after six system steps was pending at none of them, so the entry is a software break. -/
theorem breakCompletes : Obligations.BreakCompletes := by
  intro s hf hp h6
  have hq : ∀ n ≤ 6, (afterPpu n s).pending = .none := fun n hn =>
    (afterPpu_pending_of_later hn (by rw [h6]; decide)).trans h6
  rw [exec_eq, ownSteps, stepsBrk, seqInt_run hf hp, entered_none hq, group_softBreak, ← h6]

/-! ## What a break pushed, RTI pulls (R292, R293) -/

/-- The bytes of a break's three pushes: no push touches the byte of an earlier one. -/
theorem stackBytes_of_break {u : State} {m : Memory} {sp sb hi lo : Byte} (hwf : m.wf)
    (hram : u.ram = stackWrite (stackWrite (stackWrite m sp hi) (sp - 1#8) lo) (sp - 2#8) sb) :
    stackByte u (sp - 2#8) = sb ∧ stackByte u (sp - 1#8) = lo ∧ stackByte u sp = hi := by
  have hwf1 : (stackWrite m sp hi).wf := cellWrite_wf _ _ hwf
  have hne10 : sp - 1#8 ≠ sp := by bv_omega
  have hne20 : sp - 2#8 ≠ sp := by bv_omega
  have hne21 : sp - 2#8 ≠ sp - 1#8 := by bv_omega
  simp only [stackByte, hram]
  refine ⟨cellRead_stackWrite_same _ _ (cellWrite_wf _ _ hwf1), ?_, ?_⟩
  · rw [cellRead_stackWrite_other _ _ hne21, cellRead_stackWrite_same _ _ hwf1]
  · rw [cellRead_stackWrite_other _ _ hne20, cellRead_stackWrite_other _ _ hne10, cellRead_stackWrite_same _ _ hwf]

/-- Settles O24: RTI pulls the three bytes BRK pushed, the status byte with bit 4, hence `B`, set. -/
theorem returnFromInterruptUndoesBreak : Obligations.ReturnFromInterruptUndoesBreak := by
  intro s t u hf hwf hp h6 hbrk hpt hhu hram hcpu
  cases (breakCompletes s hf hp h6).symm.trans hbrk
  have hsp : u.cpu.s = s.cpu.s - 3#8 := by rw [hcpu]
  have h1 : u.cpu.s + 1#8 = s.cpu.s - 2#8 := by rw [hsp]; bv_omega
  have h2 : u.cpu.s + 2#8 = s.cpu.s - 1#8 := by rw [hsp]; bv_omega
  have h3 : u.cpu.s + 3#8 = s.cpu.s := by rw [hsp, BitVec.sub_add_cancel]
  obtain ⟨hstatus, hlo, hhi⟩ := stackBytes_of_break hwf hram
  have hflags : ungroup (group .hardware s.cpu.p ||| 0x10#8) = { s.cpu.p with b := true } := by
    rw [← group_softBreak, ungroup_group]; rfl
  have hfu : Fetched u := ⟨hhu, by rw [hcpu]⟩
  have hpu : plain u.cpu.pc = true := by rw [hcpu]; exact hpt
  rw [returnFromInterruptCompletes u hfu hpu, h1, h2, h3, hstatus, hlo, hhi, hflags, cat_hi8_lo8, hcpu]

end Sys2Proof.Machine
end

section
/-! PROOF. The PPU tick (O50 to O53): what the action of a position does, and where the advance goes (48_ppu.md R305 to
R313). -/

namespace Sys2Proof.Machine

/-! ## The advance (48_ppu.md R306) -/

theorem ppuAdvance_inside {p : Ppu} (h : p.dot < 340) : ppuAdvance p = { p with dot := p.dot + 1 } := if_pos h

theorem ppuAdvance_lineEnd {p : Ppu} (h : p.dot = 340) :
    ppuAdvance p = { p with dot := 0, scanline := if p.scanline = 261 then 0 else p.scanline + 1 } := by
  rw [ppuAdvance, if_neg (by rw [h]; decide), Config.lastScanline]
  split <;> rfl

/-- The position of a PPU depends on its two counters only. -/
theorem position_of_counters_eq {p q : Ppu} (h : p.dot = q.dot ∧ p.scanline = q.scanline) : p.position = q.position := by
  rw [Ppu.position, Ppu.position, h.1, h.2]

/-- The counters after a tick are the advance's: the action moves neither. -/
theorem ppuTick_counters {s : State} (hh : s.halted = none) :
    (ppuTick s).ppu.dot = (ppuAdvance s.ppu).dot ∧ (ppuTick s).ppu.scanline = (ppuAdvance s.ppu).scanline := by
  obtain ⟨hd, hl⟩ := ppuAct_position s.rom s.ppu
  rw [ppuTick_of_running hh]
  unfold ppuAdvance
  rw [hd, hl]
  constructor <;> split_ifs <;> rfl

/-- The advance keeps the counters in their ranges and moves the position by one tick modulo the frame. -/
theorem ppuAdvance_moves {p : Ppu} (hd : p.dot ≤ 340) (hl : p.scanline ≤ 261) :
    (ppuAdvance p).dot ≤ 340 ∧ (ppuAdvance p).scanline ≤ 261 ∧
      (ppuAdvance p).position = (p.position + 1) % frameTicks := by
  simp only [Ppu.position, frameTicks]
  rcases hd.lt_or_eq with h | h
  · rw [ppuAdvance_inside h]
    dsimp only
    omega
  · rw [ppuAdvance_lineEnd h]
    dsimp only
    split <;> omega

/-- `n` ticks move the position by `n` modulo the frame: each tick by one, from wherever the ticks before it led. -/
theorem ppuTicks_moves (n : Nat) {s : State} (hh : s.halted = none) (hd : s.ppu.dot ≤ 340) (hl : s.ppu.scanline ≤ 261) :
    (ppuTicks n s).ppu.dot ≤ 340 ∧ (ppuTicks n s).ppu.scanline ≤ 261 ∧
      (ppuTicks n s).ppu.position = (s.ppu.position + n) % frameTicks := by
  induction n generalizing s with
  | zero =>
    have hlt : s.ppu.position < frameTicks := by
      rw [Ppu.position, frameTicks]
      omega
    exact ⟨hd, hl, by rw [ppuTicks_zero, Nat.add_zero, Nat.mod_eq_of_lt hlt]⟩
  | succ n ih =>
    have hc := ppuTick_counters hh
    obtain ⟨hd', hl', hpos⟩ := ppuAdvance_moves hd hl
    obtain ⟨h1, h2, h3⟩ := ih ((ppuTick_halted s).trans hh) (hc.1.trans_le hd') (hc.2.trans_le hl')
    refine ⟨h1, h2, ?_⟩
    rw [ppuTicks_succ, h3, position_of_counters_eq hc, hpos, Nat.mod_add_mod, Nat.add_assoc, Nat.add_comm 1]

/-- Settles O50: the two cases of the advance, and one tick of the position a step of the induction. -/
theorem positionAdvancesModuloTheFrame : Obligations.PositionAdvancesModuloTheFrame := by
  intro s hh hd hl
  obtain ⟨htd, htl⟩ := ppuTick_counters hh
  rw [htd, htl]
  refine ⟨fun h => ?_, fun h => ?_, fun n => ppuTicks_moves n hh hd hl⟩
  · rw [ppuAdvance_inside h]
    exact ⟨rfl, rfl⟩
  · rw [ppuAdvance_lineEnd h]
    exact ⟨rfl, rfl⟩

/-! ## The action (48_ppu.md R308, R311, R312, R313) -/

/-- Everything the action of a position can do: a pixel, the frame event, vblank entry, vblank exit, nothing elsewhere. -/
theorem ppuAct_cases (r : Rom) (p : Ppu) :
    ((p.scanline ≤ 239 ∧ p.dot ≤ 255) ∧ ppuAct r p = render r p) ∨
    ((p.scanline = 240 ∧ p.dot = 0) ∧ ppuAct r p = { p with frames := p.frames + 1, lastFrame := some p.fb }) ∨
    ((p.scanline = 241 ∧ p.dot = 1) ∧ ppuAct r p = { p with vblank := true }) ∨
    ((p.scanline = 261 ∧ p.dot = 1) ∧ ppuAct r p = { p with vblank := false }) ∨
    (¬ (p.scanline ≤ 239 ∧ p.dot ≤ 255) ∧ ¬ (p.scanline = 240 ∧ p.dot = 0) ∧ ¬ (p.scanline = 241 ∧ p.dot = 1) ∧
      ¬ (p.scanline = 261 ∧ p.dot = 1) ∧ ppuAct r p = p) := by
  rw [ppuAct]
  split_ifs with hl hd hframe hentry hexit
  · exact .inl ⟨⟨hl, hd⟩, rfl⟩
  · exact .inr (.inr (.inr (.inr ⟨fun h => hd h.2, by omega, by omega, by omega, rfl⟩)))
  · exact .inr (.inl ⟨hframe, rfl⟩)
  · exact .inr (.inr (.inl ⟨hentry, rfl⟩))
  · exact .inr (.inr (.inr (.inl ⟨hexit, rfl⟩)))
  · exact .inr (.inr (.inr (.inr ⟨fun h => hl h.1, hframe, hentry, hexit, rfl⟩)))

/-- A running tick's pixels, frame event and vblank are those of its action: the advance touches none of them. -/
theorem ppuTick_act {s : State} (hh : s.halted = none) :
    (ppuTick s).ppu.vblank = (ppuAct s.rom s.ppu).vblank ∧ (ppuTick s).ppu.fb = (ppuAct s.rom s.ppu).fb ∧
      (ppuTick s).ppu.frames = (ppuAct s.rom s.ppu).frames ∧
      (ppuTick s).ppu.lastFrame = (ppuAct s.rom s.ppu).lastFrame := by
  rw [ppuTick_of_running hh]
  exact ppuAdvance_frame _

theorem ppuTick_pending_of_running {s : State} (hh : s.halted = none) :
    (ppuTick s).pending = pendingAfter s.ppu s.pending := by rw [ppuTick_of_running hh]

theorem pendingAfter_vblankEntry {p : Ppu} (h : p.scanline = 241 ∧ p.dot = 1) (q : Pending) :
    pendingAfter p q = if p.nmiEnable then .nmi else q := by simp [pendingAfter, nmiRaised, h]

theorem pendingAfter_elsewhere {p : Ppu} (h : ¬ (p.scanline = 241 ∧ p.dot = 1)) (q : Pending) : pendingAfter p q = q := by
  have hno : nmiRaised p = false := by
    rw [nmiRaised, Bool.and_eq_false_iff]
    exact .inl (by simpa using h)
  simp [pendingAfter, hno]

theorem ppuAct_vblank (r : Rom) (p : Ppu) :
    (ppuAct r p).vblank =
      if p.scanline = 241 ∧ p.dot = 1 then true else if p.scanline = 261 ∧ p.dot = 1 then false else p.vblank := by
  rcases ppuAct_cases r p with ⟨⟨h, -⟩, e⟩ | ⟨⟨h, -⟩, e⟩ | ⟨h, e⟩ | ⟨h, e⟩ | ⟨-, -, h, h', e⟩ <;> rw [e]
  · rw [if_neg (by omega), if_neg (by omega)]; rfl
  · rw [if_neg (by omega), if_neg (by omega)]
  · rw [if_pos h]
  · rw [if_neg (by omega), if_pos h]
  · rw [if_neg h, if_neg h']

/-- Settles O51: the tick's `vblank` is the action's, its `pending` that of the NMI test. -/
theorem verticalBlankAndNmi : Obligations.VerticalBlankAndNmi := by
  intro s hh
  obtain ⟨hv, -⟩ := ppuTick_act hh
  rw [hv, ppuAct_vblank, ppuTick_pending_of_running hh]
  refine ⟨fun hl hd => ?_, fun hl hd => ?_, fun hentry hexit => ?_⟩
  · exact ⟨if_pos ⟨hl, hd⟩, pendingAfter_vblankEntry ⟨hl, hd⟩ _⟩
  · have hentry : ¬ (s.ppu.scanline = 241 ∧ s.ppu.dot = 1) := by omega
    rw [if_neg hentry, if_pos ⟨hl, hd⟩]
    exact ⟨rfl, pendingAfter_elsewhere hentry _⟩
  · rw [if_neg hentry, if_neg hexit]
    exact ⟨rfl, pendingAfter_elsewhere hentry _⟩

theorem ppuAct_frameEvent (r : Rom) {p : Ppu} (h : p.scanline = 240 ∧ p.dot = 0) :
    ppuAct r p = { p with frames := p.frames + 1, lastFrame := some p.fb } := by
  rw [ppuAct, if_neg (by omega), if_pos h]

/-- No other position's action emits a frame. -/
theorem ppuAct_noFrameEvent (r : Rom) {p : Ppu} (h : ¬ (p.scanline = 240 ∧ p.dot = 0)) :
    (ppuAct r p).frames = p.frames ∧ (ppuAct r p).lastFrame = p.lastFrame := by
  rcases ppuAct_cases r p with ⟨-, e⟩ | ⟨h', -⟩ | ⟨-, e⟩ | ⟨-, e⟩ | ⟨-, -, -, -, e⟩
  · rw [e]; exact ⟨rfl, rfl⟩
  · exact absurd h' h
  all_goals rw [e]; exact ⟨rfl, rfl⟩

/-- Settles O52: the event is the action at (240, 0), and no other action touches its two fields. -/
theorem frameEventOncePerFrame : Obligations.FrameEventOncePerFrame := by
  intro s hh
  obtain ⟨-, hfb, hframes, hlast⟩ := ppuTick_act hh
  rw [hfb, hframes, hlast]
  refine ⟨fun hl hd => ?_, ppuAct_noFrameEvent s.rom⟩
  rw [ppuAct_frameEvent s.rom ⟨hl, hd⟩]
  exact ⟨rfl, rfl, rfl⟩

/-! ## The pixel (48_ppu.md R308, R310) -/

theorem getLsbD_toNat (v : Byte) (k : Nat) : (v.getLsbD k).toNat = v.toNat / 2 ^ k % 2 := by
  rw [← BitVec.testBit_toNat, Nat.toNat_testBit]

theorem and_seven_eq (k : Nat) : k &&& 7 = k % 8 := Nat.and_two_pow_sub_one_eq_mod k 3

theorem tileIndex_eq (l d : Nat) : tileIndex l d = l / 8 * 32 + d / 8 := by
  rw [tileIndex, Nat.shiftRight_eq_div_pow, Nat.shiftRight_eq_div_pow]

/-- The pattern address in integers: its four parts lie in separate bits, so the bitwise or is their sum. -/
theorem patternBase_eq (half : Bool) (tile : Byte) (l : Nat) :
    patternBase half tile l = (if half then 4096 else 0) + 16 * tile.toNat + l % 8 := by
  have hnibbles : (tile.toNat >>> 4) <<< 8 ||| (tile.toNat &&& 0x0F) <<< 4 = 16 * tile.toNat := by
    rw [Nat.and_two_pow_sub_one_eq_mod tile.toNat 4, ← Nat.shiftLeft_add_eq_or_of_lt (by rw [Nat.shiftLeft_eq]; omega),
      Nat.shiftLeft_eq, Nat.shiftLeft_eq, Nat.shiftRight_eq_div_pow]
    omega
  have hhalf : (if half then 0x1000 else 0x0000) ||| 16 * tile.toNat = 16 * ((if half then 256 else 0) + tile.toNat) := by
    cases half
    case false => simp
    case true =>
      rw [if_pos rfl, if_pos rfl, Nat.mul_add]
      exact (Nat.two_pow_add_eq_or_of_lt (i := 12) (by omega) 1).symm
  have hfine := Nat.two_pow_add_eq_or_of_lt (i := 4) (b := l % 8) (by omega) ((if half then 256 else 0) + tile.toNat)
  rw [patternBase, and_seven_eq, hnibbles, hhalf, ← hfine]
  split <;> omega

/-- The high plane lies 8 bytes above the low one: bit 3 of the low plane's address is clear. -/
theorem patternBase_or_eight (half : Bool) (tile : Byte) (l : Nat) :
    patternBase half tile l ||| 8 = patternBase half tile l + 8 := by
  rw [patternBase_eq]
  generalize hk : (if half then 256 else 0) + tile.toNat = k
  have hbase : (if half then 4096 else 0) + 16 * tile.toNat = 2 ^ 4 * k := by rw [← hk]; split <;> omega
  have hplane := Nat.two_pow_add_eq_or_of_lt (i := 3) (b := l % 8) (by omega) 1
  have hlo := Nat.two_pow_add_eq_or_of_lt (i := 4) (b := l % 8) (by omega) k
  have hhi := Nat.two_pow_add_eq_or_of_lt (i := 4) (b := 8 + l % 8) (by omega) k
  calc (if half then 4096 else 0) + 16 * tile.toNat + l % 8 ||| 8
      = 2 ^ 4 * k ||| (8 ||| l % 8) := by rw [hbase, hlo, Nat.or_assoc, Nat.or_comm (l % 8)]
    _ = 2 ^ 4 * k + (8 + l % 8) := by rw [← hplane, hhi]
    _ = (if half then 4096 else 0) + 16 * tile.toNat + l % 8 + 8 := by rw [← hbase]; omega

theorem chrRead_eq {r : Rom} (h : isPow2 r.chrSize) (k : Nat) : chrRead r k = cellRead r.chr (k % r.chrSize) := by
  rw [chrRead, isPow2_and h]

/-- The pixel in integers, its pattern address `base` named by the caller. -/
theorem pixel_toNat {r : Rom} {p : Ppu} {l d base : Nat} (h : isPow2 r.chrSize)
    (hbase : patternBase p.patternHalf (cellRead p.vram (tileIndex l d)) l = base) :
    (pixel r p l d).toNat =
      2 * ((cellRead r.chr ((base + 8) % r.chrSize)).toNat / 2 ^ (7 - d % 8) % 2) +
        (cellRead r.chr (base % r.chrSize)).toNat / 2 ^ (7 - d % 8) % 2 := by
  have hhi : base ||| 8 = base + 8 := by rw [← hbase, patternBase_or_eight]
  simp only [pixel, hbase, hhi, Nat.or_zero, chrRead_eq h, and_seven_eq]
  rw [BitVec.toNat_append, BitVec.toNat_ofBool, BitVec.toNat_ofBool, ← getLsbD_toNat, ← getLsbD_toNat,
    ← Nat.shiftLeft_add_eq_or_of_lt (Bool.toNat_lt _), Nat.shiftLeft_eq, Nat.mul_comm]

theorem ppuAct_visible (r : Rom) {p : Ppu} (hl : p.scanline ≤ 239) (hd : p.dot ≤ 255) : ppuAct r p = render r p := by
  rw [ppuAct, if_pos hl, if_pos hd]

theorem render_fb (r : Rom) (p : Ppu) :
    (render r p).fb = cellWrite p.fb (p.scanline * 256 + p.dot) (pixel r p p.scanline p.dot) := rfl

/-- No other position's action stores a pixel. -/
theorem ppuAct_noPixel (r : Rom) {p : Ppu} (h : ¬ (p.scanline ≤ 239 ∧ p.dot ≤ 255)) : (ppuAct r p).fb = p.fb := by
  rcases ppuAct_cases r p with ⟨h', -⟩ | ⟨-, e⟩ | ⟨-, e⟩ | ⟨-, e⟩ | ⟨-, -, -, -, e⟩
  · exact absurd h' h
  all_goals rw [e]

/-- Settles O53: the buffer after a visible tick is one cell write, whose value is the pixel in integers. -/
theorem visibleTickRendersOnePixel : Obligations.VisibleTickRendersOnePixel := by
  intro s hh hwf hsize
  obtain ⟨-, hfb, -⟩ := ppuTick_act hh
  rw [hfb]
  refine ⟨fun hl hd => ⟨_, rfl, ?_, fun k hk => ?_⟩, ppuAct_noPixel s.rom⟩
  · rw [ppuAct_visible s.rom hl hd, render_fb, cellRead_cellWrite_same _ _ hwf]
    exact pixel_toNat hsize (by rw [patternBase_eq, tileIndex_eq])
  · rw [ppuAct_visible s.rom hl hd, render_fb, cellRead_cellWrite_other _ _ hk.symm]

end Sys2Proof.Machine
end

section
/-! PROOF. The PPU's ports 2, 6 and 7, and those the port table does not list (O55 to O58; 48_ppu.md R317 to R320). -/

namespace Sys2Proof.Machine

/-- Settles O55: the bus rule of the status port. -/
theorem statusPortRead : Obligations.StatusPortRead := fun _ s h h' hport => busRead_status s h h' hport

/-- Settles O58: a write to ports 1 to 5 falls through the port table, and a read of any port but 2 is a draw. -/
theorem unlistedPortAccesses : Obligations.UnlistedPortAccesses := by
  intro a v s h h'
  refine ⟨fun h1 h5 => ?_, fun h2 => ⟨Config.ppuOpenRead s.draws, s.draws + 1, ?_⟩⟩
  · rw [busWrite_port v s h h', ppuPortWrite, if_neg (by omega), if_neg (by omega), if_neg (by omega)]
  · rw [busRead_port s h h', ppuPortRead, if_neg h2]

/-! ## The address port (48_ppu.md R318) -/

theorem busWrite_address {a : Word} (v : Byte) (s : State) (h : 0x2000 ≤ a.toNat) (h' : a.toNat < 0x4000)
    (hport : a.toNat % 8 = 6) :
    busWrite a v s = .ok { s with ppu := ppuAddrWrite v s.ppu } := by
  rw [busWrite_port v s h h', hport]; rfl

theorem ppuAddrWrite_frame (v : Byte) (p : Ppu) :
    ppuAddrWrite v p = { p with vramAddr := (ppuAddrWrite v p).vramAddr, wlatch := (ppuAddrWrite v p).wlatch } := by
  rw [ppuAddrWrite]; split <;> rfl

theorem ppuAddrWrite_first (v : Byte) {p : Ppu} (h : p.wlatch = .first) :
    (ppuAddrWrite v p).wlatch = .second ∧
      (ppuAddrWrite v p).vramAddr.toNat = v.toNat % 64 * 256 + p.vramAddr.toNat % 256 := by
  rw [ppuAddrWrite, h]
  refine ⟨rfl, ?_⟩
  show (v.extractLsb' 0 6 ++ p.vramAddr.extractLsb' 0 8).toNat = _
  rw [BitVec.toNat_append, ← Nat.shiftLeft_add_eq_or_of_lt (BitVec.isLt _), Nat.shiftLeft_eq, BitVec.extractLsb'_toNat,
    BitVec.extractLsb'_toNat]
  rfl

theorem ppuAddrWrite_second (v : Byte) {p : Ppu} (h : p.wlatch = .second) :
    (ppuAddrWrite v p).wlatch = .first ∧ (ppuAddrWrite v p).vramAddr.toNat = p.vramAddr.toNat / 256 * 256 + v.toNat := by
  rw [ppuAddrWrite, h]
  refine ⟨rfl, ?_⟩
  show (p.vramAddr.extractLsb' 8 6 ++ v).toNat = _
  rw [BitVec.toNat_append, ← Nat.shiftLeft_add_eq_or_of_lt v.isLt, Nat.shiftLeft_eq, BitVec.extractLsb'_toNat,
    Nat.shiftRight_eq_div_pow, Nat.mod_eq_of_lt (by omega)]

/-- Settles O56: one rule for each value of the latch, and the pair is the one after the other. -/
theorem addressPortWrites : Obligations.AddressPortWrites := by
  intro a h h' hport
  refine ⟨fun v s => ?_, fun v1 v2 s t u hfirst ht hu => ?_⟩
  · refine ⟨_, busWrite_address v s h h' hport, ?_, ppuAddrWrite_first v, ppuAddrWrite_second v⟩
    exact congrArg (fun p => { s with ppu := p }) (ppuAddrWrite_frame v s.ppu)
  · cases (busWrite_address v1 s h h' hport).symm.trans ht
    cases (busWrite_address v2 _ h h' hport).symm.trans hu
    obtain ⟨hsecond, haddr1⟩ := ppuAddrWrite_first v1 hfirst
    obtain ⟨hlatch, haddr2⟩ := ppuAddrWrite_second v2 hsecond
    have := v2.isLt
    exact ⟨hlatch, by rw [haddr2, haddr1]; omega⟩

/-! ## The data port (48_ppu.md R319) -/

theorem busWrite_data {a : Word} (v : Byte) (s : State) (h : 0x2000 ≤ a.toNat) (h' : a.toNat < 0x4000)
    (hport : a.toNat % 8 = 7) :
    busWrite a v s = .ok { s with ppu := ppuDataWrite v s.ppu } := by
  rw [busWrite_port v s h h', hport]; rfl

/-- The 2 KiB mask is the remainder. -/
theorem vramOffset_eq (a : BitVec 14) : vramOffset a = a.toNat % 0x0800 := by
  rw [vramOffset, BitVec.toNat_and]
  exact Nat.and_two_pow_sub_one_eq_mod a.toNat 11

theorem vramStep_toNat (p : Ppu) : (vramStep p).toNat = if p.vramInc32 then 32 else 1 := by
  rw [vramStep]; split <;> rfl

/-- Settles O57: the VRAM after the write is one cell write at the masked address, and the 14-bit sum wraps at 0x4000. -/
theorem dataPortWrite : Obligations.DataPortWrite := by
  intro a v s h h' hport hwf
  refine ⟨_, busWrite_data v s h h' hport, rfl, fun k => ?_, ?_⟩
  · show cellRead (cellWrite s.ppu.vram (vramOffset s.ppu.vramAddr) v) k = _
    rw [vramOffset_eq]
    split
    case isTrue hk => rw [hk, cellRead_cellWrite_same _ v hwf]
    case isFalse hk => exact cellRead_cellWrite_other _ v (Ne.symm hk)
  · show (s.ppu.vramAddr + vramStep s.ppu).toNat = _
    rw [BitVec.toNat_add, vramStep_toNat]

end Sys2Proof.Machine
end

section
/-! PROOF. Interrupt entries (O21, O22), the fatal tick and what follows it (O32, O31), and the invariant at launch (O35;
60_exceptions.md R341 to R352, 10_state.md R44). -/

namespace Sys2Proof.Machine

/-! ## Interrupt entries (60_exceptions.md R345 to R352) -/

/-- Settles O21: the break's own steps are `SEQ_INT`. -/
theorem entryConsultsPendingAtEachStep : Obligations.EntryConsultsPendingAtEachStep := by
  intro s hf hp
  rw [exec_eq]
  exact seqInt_run hf hp

/-- The CPU after a FETCH that finds an interrupt pending: the forced byte installed, `PC` kept (R347, 40_sequencer.md R132). -/
def forcedCpu (c : Cpu) : Cpu := { c with ir := 0x00#8, cursor := 0 }

/-- The state of a FETCH that finds an interrupt pending at a plain `PC`, in normal form. -/
theorem fetchedInterrupt_afterPpu (s : State) :
    fetchedInterrupt (afterPpu 1 s) = At s 1 (forcedCpu s.cpu) := by
  rw [fetchedInterrupt, afterPpu_cpu, At, forcedCpu]

/-- What an entry leaves that finds one NMI or IRQ pending at each of its steps: three real pushes in the hardware context. -/
theorem entered_hardware {s : State} {k : Nat} {c : Cpu} {qs : Nat → Pending} {q : Pending} (hq : q = .nmi ∨ q = .irq)
    (hqs : ∀ n ≤ 6, qs n = q) :
    entered (At s k c) qs = { afterPpu (k + 6) s with
      pending := .none,
      ram := stackWrite (stackWrite (stackWrite s.ram c.s (hi8 c.pc)) (c.s - 1#8) (lo8 c.pc)) (c.s - 2#8)
        (group .hardware c.p),
      cpu := { c with
        s := c.s - 3#8, pc := cat (peek s (vector q + 1#16)) (peek s (vector q)), p := { c.p with i := true },
        cursor := 6 } } := by
  rw [entered, hqs 1 (by omega), hqs 2 (by omega), hqs 3 (by omega), hqs 4 (by omega), hqs 5 (by omega),
    hqs 6 (by omega), afterPpu_at, peek_at, peek_at, at_ram]
  rcases hq with rfl | rfl <;> rfl

/-- Settles O22: FETCH forces the break's opcode, and the entry finds the same request at each of its steps. -/
theorem hardwareInterruptEntry : Obligations.HardwareInterruptEntry := by
  intro s q hh hat hq hpend hmem hp
  have hne : (afterPpu 1 s).pending ≠ .none := by
    rw [hpend 1 le_rfl (by omega)]
    rcases hq with rfl | rfl <;> decide
  rw [stepTakesThePendingInterrupt s _ _ hh hat hne (busRead_plain _ hp) hmem, fetchedInterrupt_afterPpu]
  have hf : Fetched (At s 1 (forcedCpu s.cpu)) := ⟨(at_halted _ _ _).trans hh, rfl⟩
  have hqs (n : Nat) (hn : n ≤ 6) : (afterPpu n (At s 1 (forcedCpu s.cpu))).pending = q := by
    rw [afterPpu_at, at_pending]
    exact hpend (1 + n) (by omega) (by omega)
  rw [entryConsultsPendingAtEachStep _ hf hp, entered_hardware hq hqs, forcedCpu]

/-! ## The fatal tick (R341, R342) and the halted machine (R343) -/

/-- A system step of a running machine leaves it running, or is the PPU's share with `halted` set. -/
theorem tick_cases {s : State} (hh : s.halted = none) :
    (tick s).halted = none ∨ ∃ f, tick s = { ppuShare s with halted := some f } := by
  cases hm : currentStep s with
  | none =>
    rw [tick_fetch hh (currentStep_eq_none.1 hm)]
    cases hf : fetchCycle s with
    | next u => exact .inl (fetchCycle_frame hf).1
    | fault f => exact .inr ⟨f, rfl⟩
    | refused q => exact .inl hh
  | some m =>
    rw [tick_own hh hm]
    cases hc : cycle m s with
    | next u =>
      obtain ⟨r, hr, -⟩ := tame_getElem (tame_ownSteps _) hm
      obtain ⟨-, hrun, -⟩ := cycle_tame hr hc
      exact .inl hrun
    | fault f => exact .inr ⟨f, rfl⟩
    | refused q => exact .inl hh

/-- Settles O32: the only system step that halts is the PPU's share with `halted` set. -/
theorem fatalTickChangesOnlyHalted : Obligations.FatalTickChangesOnlyHalted := by
  intro s f hh hf
  obtain hrun | ⟨g, hg⟩ := tick_cases hh
  · rw [hrun] at hf
    cases hf
  · rw [hg] at hf ⊢
    cases hf
    rfl

theorem cpuTick_halted {s : State} {f : Fault} (h : s.halted = some f) : cpuTick s = s := by
  rw [cpuTick, h]

theorem ticks_halted {s : State} {f : Fault} (h : s.halted = some f) (n : Nat) : ticks n s = s := by
  induction n with
  | zero => rfl
  | succ n ih => rw [ticks_succ, tick_halted h, ih]

theorem step_halted {s : State} {f : Fault} (h : s.halted = some f) : step s = .fault f := by
  rw [step, h]

/-- Settles O31: neither engine moves a halted machine. -/
theorem fatalIsTerminal : Obligations.FatalIsTerminal := fun _ _ h =>
  ⟨cpuTick_halted h, ppuTicks_of_halted h, ticks_halted h, step_halted h⟩

/-! ## The invariant at launch (10_state.md R44) -/

/-- The launch opcode has one own step: it is NOP, or illegal where 0xEA is not implemented (R28). -/
theorem ownSteps_launch_length (l : Launch) : (ownSteps (installed (State.launch l))).length = 1 := by
  have hir : installed (State.launch l) = decodeIn l.implemented 0xEA#8 := rfl
  have hnop : decodeOpcode 0xEA#8 = .nop := by decide
  rw [hir, decodeIn, hnop]
  split <;> rfl

/-- Admissible launch constants and canonical memories give the invariant, with the launch cursor just past the installed
instruction. -/
theorem launch_inv {l : Launch} (hram : l.ramInit.wf) (hramLt : cellsBelow Config.ramSize l.ramInit)
    (hvram : l.vramInit.wf) (hvramLt : cellsBelow Config.vramSize l.vramInit) (hrom : (State.launch l).rom.Inv) :
    (State.launch l).Inv := by
  have hfb : (State.launch l).ppu.fb.wf := ⟨.nil, List.forall_mem_nil _⟩
  refine ⟨rfl, (ownSteps_launch_length l).ge, hram, hramLt, ?_, hrom⟩
  exact ⟨Nat.zero_le _, Nat.zero_le _, hvram, hvramLt, hfb, List.forall_mem_nil _⟩

/-- Settles O35: the default launch parameters are admissible, and its memories list no cell. -/
theorem invariantHoldsAtReset : Obligations.InvariantHoldsAtReset :=
  launch_inv (by decide) (by decide) (by decide) (by decide) (by decide)

end Sys2Proof.Machine
end
